-- ==== Sys2Proof/Word.lean ====
section
/-! DEFINITION. The two word types of the block: `u32` registers and command words, `u8` octets and samples
(00_scope.md R7, R15). Bit 0 is the least significant bit (R14). -/

namespace Sys2Proof

/-- A 32-bit register or command word (`u32`, 00_scope.md R15). -/
abbrev Word := BitVec 32

/-- An octet of `OCT` or a sample of `SMP` (`u8`, 00_scope.md R7, R15). -/
abbrev Byte := BitVec 8

end Sys2Proof
end

