-- ==== Sys2Proof/Config.lean ====
section
/-! DEFINITION. The configuration of a build (00_scope.md R12) and the free values. The reference configuration is in
Sys2Proof/Machine/Reference.lean. -/

namespace Sys2Proof

/-- A tone: `low` is tone bit 0 (`F_LOW`), `high` is tone bit 1 (`F_HIGH`) (00_scope.md R18, 41_modulator.md R133). -/
inductive Tone where
  | low
  | high
  deriving DecidableEq, Repr

/-- The parameters of a build (00_scope.md R12). `wave` is the waveform ROM (10_state.md R56) and `cl`, `sl`, `ch`, `sh`
are the coefficient ROM (R57): their contents are fixed by the configuration (R55), so nothing that happens in a run can
change them. `INC_LOW` and `INC_HIGH` are derived (41_modulator.md R137). -/
structure Config where
  fLow        : Nat
  fHigh       : Nat
  tableBits   : Nat
  amp         : Nat
  phaseBits   : Nat
  wave        : List Int
  cl          : List Int
  sl          : List Int
  ch          : List Int
  sh          : List Int
  initTone    : Tone
  presyncIdle : Nat
  escLen      : Nat
  runMax      : Nat
  destId      : List Byte
  destSsidPre : Byte
  srcSsidBase : Byte
  controlUi   : Byte
  pidNoL3     : Byte
  octSize     : Nat
  smpSize     : Nat
  deriving DecidableEq, Repr

/-- `SPB`: samples per line bit and per discriminator window, fixed by the source (00_scope.md R6). -/
abbrev spb : Nat := 8

/-- The sample rate, 8 × 1200 (00_scope.md R6). -/
abbrev sampleRate : Nat := 9600

/-- `MIN_FRAME` (00_scope.md R9). -/
abbrev minFrame : Nat := 16

/-- The flag byte (00_scope.md R8). -/
abbrev flagByte : Byte := 0x7E#8

/-- The idle byte (00_scope.md R8). -/
abbrev idleByte : Byte := 0x00#8

/-- FREE VALUE (notes/assumptions/3.md). The byte that draw number `n` returns: what a read of an unwritten byte gives
(20_memory.md R95), and what a host read of memory gives while a command is pending (R96). It has no body, so nothing
can be proved of its value. -/
opaque Config.freeByte : Nat → Byte

/-- FREE VALUE (notes/assumptions/3.md). The word that draw number `n` returns, used where the spec leaves registers or
a command's result unconstrained (20_memory.md R88, R96; 93_implementation_defined.md section 1). It has no body. -/
opaque Config.freeWord : Nat → Word

end Sys2Proof
end

