-- ==== Sys2Proof/Syntax.lean ====
section
/-! DEFINITION. The nine commands of the block (30_encoding.md R111), one constructor for each row of
spec/opcode_table.json. -/

namespace Sys2Proof

/-- A command with its immediates (30_encoding.md R111, R112). Every other operand of a command is a register
(R110, R116). -/
inductive Instr where
  /-- `ENCODE_FRAME`, opcode 0x1 (45_frame_codec.md R228). -/
  | encodeFrame
  /-- `DECODE_FRAME`, opcode 0x2 (45_frame_codec.md R237). -/
  | decodeFrame
  /-- `MODULATE nb, ne`, opcode 0x3: the begin and end marker counts (41_modulator.md R142). -/
  | modulate (nb ne : Byte)
  /-- `DEMODULATE`, opcode 0x4 (44_phase_search.md R207). -/
  | demodulate
  /-- `DISCRIMINATE`, opcode 0x5 (42_discriminator.md R166). -/
  | discriminate
  /-- `DEMOD_STEP`, opcode 0x6 (43_demodulator.md R186). -/
  | demodStep
  /-- `DEMOD_RESET`, opcode 0x7 (43_demodulator.md R187). -/
  | demodReset
  /-- `CRC16`, opcode 0x8 (45_frame_codec.md R239). -/
  | crc16
  /-- `DEMOD_TRIAL o`, opcode 0x9: `o` is the whole of `IMM_A`, and only 0..7 is well formed (44_phase_search.md R206,
  30_encoding.md R112). -/
  | demodTrial (o : Byte)
  deriving DecidableEq, Repr

end Sys2Proof
end

