-- ==== Sys2Proof/WellFormed.lean ====
section
/-! DEFINITION. Which commands a legal command word can hold (30_encoding.md R112, R113). -/

namespace Sys2Proof

/-- The one limit on an immediate: the offset of `DEMOD_TRIAL` is 0..7 (30_encoding.md R112: bits [7:3] of `IMM_A` must
be 0). The marker counts of `MODULATE` take every value 0..255. -/
def Instr.wf : Instr → Bool
  | .encodeFrame  => true
  | .decodeFrame  => true
  | .modulate _ _ => true
  | .demodulate   => true
  | .discriminate => true
  | .demodStep    => true
  | .demodReset   => true
  | .crc16        => true
  | .demodTrial o => decide (o.toNat < spb)

end Sys2Proof
end

