-- ==== Sys2Proof/Decode.lean ====
section
/-! DEFINITION. The command word (30_encoding.md R110 to R114): the opcode table of R113, the decoder, total on every
word and refusing by name, and the encoder of R117. -/

namespace Sys2Proof

/-- Why a word is illegal (30_encoding.md R114). Every one of them completes with `ILLEGAL_COMMAND`. -/
inductive DecodeError where
  /-- Bits [7:4] or [31:24] are not 0. -/
  | reservedBits
  /-- `OP` is 0x0 or 0xA..0xF. -/
  | reservedOpcode
  /-- A nonzero immediate on a command that takes none, or a nonzero `IMM_B` on `DEMOD_TRIAL`. -/
  | unusedImmediate
  /-- `DEMOD_TRIAL` with an offset above 7. -/
  | offsetAbove7
  deriving DecidableEq, Repr

/-- `OP`, bits [3:0] of the command word (30_encoding.md R110). -/
def opField (w : Word) : BitVec 4 := w.extractLsb' 0 4

/-- The reserved bits [7:4] (30_encoding.md R110). -/
def reservedLow (w : Word) : BitVec 4 := w.extractLsb' 4 4

/-- `IMM_A`, bits [15:8] (30_encoding.md R110). -/
def immA (w : Word) : Byte := w.extractLsb' 8 8

/-- `IMM_B`, bits [23:16] (30_encoding.md R110). -/
def immB (w : Word) : Byte := w.extractLsb' 16 8

/-- The reserved bits [31:24] (30_encoding.md R110). -/
def reservedHigh (w : Word) : Byte := w.extractLsb' 24 8

/-- A command without immediates: both must be 0 (30_encoding.md R112). -/
def decodePlain (w : Word) (i : Instr) : Except DecodeError Instr :=
  if immA w = 0 ∧ immB w = 0 then .ok i else .error .unusedImmediate

/-- `DEMOD_TRIAL`: `IMM_B` must be 0 and the offset at most 7 (30_encoding.md R112). -/
def decodeTrial (w : Word) : Except DecodeError Instr :=
  if immB w ≠ 0 then .error .unusedImmediate
  else if (immA w).toNat < spb then .ok (.demodTrial (immA w)) else .error .offsetAbove7

/-- The decoder, total on all 32-bit words (30_encoding.md R111 to R114). -/
def decode (w : Word) : Except DecodeError Instr :=
  if reservedLow w ≠ 0 ∨ reservedHigh w ≠ 0 then .error .reservedBits
  else match (opField w).toNat with
    | 1 => decodePlain w .encodeFrame
    | 2 => decodePlain w .decodeFrame
    | 3 => .ok (.modulate (immA w) (immB w))
    | 4 => decodePlain w .demodulate
    | 5 => decodePlain w .discriminate
    | 6 => decodePlain w .demodStep
    | 7 => decodePlain w .demodReset
    | 8 => decodePlain w .crc16
    | 9 => decodeTrial w
    | _ => .error .reservedOpcode

/-- The word of a command (30_encoding.md R117). -/
def encode : Instr → Word
  | .encodeFrame    => 0x00000001#32
  | .decodeFrame    => 0x00000002#32
  | .modulate nb ne => (ne.setWidth 32 <<< 16) ||| (nb.setWidth 32 <<< 8) ||| 0x03#32
  | .demodulate     => 0x00000004#32
  | .discriminate   => 0x00000005#32
  | .demodStep      => 0x00000006#32
  | .demodReset     => 0x00000007#32
  | .crc16          => 0x00000008#32
  | .demodTrial o   => (o.setWidth 32 <<< 8) ||| 0x09#32

/-- A row of the opcode table (30_encoding.md R113). -/
structure OpcodeRow where
  mnemonic  : String
  matchBits : Word
  mask      : Word
  deriving DecidableEq, Repr

/-- The opcode table of 30_encoding.md R113 and spec/opcode_table.json. -/
def opcodeRows : List OpcodeRow :=
  [⟨"ENCODE_FRAME", 0x00000001#32, 0xFFFFFFFF#32⟩, ⟨"DECODE_FRAME", 0x00000002#32, 0xFFFFFFFF#32⟩,
   ⟨"MODULATE",     0x00000003#32, 0xFF0000FF#32⟩, ⟨"DEMODULATE",   0x00000004#32, 0xFFFFFFFF#32⟩,
   ⟨"DISCRIMINATE", 0x00000005#32, 0xFFFFFFFF#32⟩, ⟨"DEMOD_STEP",   0x00000006#32, 0xFFFFFFFF#32⟩,
   ⟨"DEMOD_RESET",  0x00000007#32, 0xFFFFFFFF#32⟩, ⟨"CRC16",        0x00000008#32, 0xFFFFFFFF#32⟩,
   ⟨"DEMOD_TRIAL",  0x00000009#32, 0xFFFFF8FF#32⟩]

/-- The mnemonic of a command (30_encoding.md R111). -/
def Instr.mnemonic : Instr → String
  | .encodeFrame  => "ENCODE_FRAME"
  | .decodeFrame  => "DECODE_FRAME"
  | .modulate _ _ => "MODULATE"
  | .demodulate   => "DEMODULATE"
  | .discriminate => "DISCRIMINATE"
  | .demodStep    => "DEMOD_STEP"
  | .demodReset   => "DEMOD_RESET"
  | .crc16        => "CRC16"
  | .demodTrial _ => "DEMOD_TRIAL"

/-- The table's row `row` matches the word `w`: `(w & mask) = match` (30_encoding.md R113). -/
def OpcodeRow.matches (row : OpcodeRow) (w : Word) : Bool := w &&& row.mask == row.matchBits

/-- What the decoder reads from an instruction whose `nbits` bits are `w`, the bits above being 0. A command is one
32-bit register write (30_encoding.md R115), so the table's bit numbers are the word's. -/
def decodeTableWord (nbits w : Nat) : Option Instr :=
  (decode (BitVec.ofNat 32 (w % 2 ^ nbits))).toOption

end Sys2Proof
end

