-- ==== Sys2Proof/Machine/Reference.lean ====
section
/-! DEFINITION. The reference configuration (00_scope.md R12), with the contents of the two ROMs (10_state.md R56, R57)
written out from the spec's tables. -/

namespace Sys2Proof

/-- The waveform ROM of the reference configuration, 256 entries, a row of R56's table on each line (10_state.md R56). -/
def referenceWave : List Int :=
   [0, 2, 5, 7, 9, 12, 14, 16, 19, 21, 23, 26, 28, 30, 32, 35] ++
   [37, 39, 41, 43, 45, 47, 49, 51, 53, 55, 57, 59, 61, 63, 64, 66] ++
   [68, 70, 71, 73, 74, 76, 77, 78, 80, 81, 82, 84, 85, 86, 87, 88] ++
   [89, 90, 90, 91, 92, 93, 93, 94, 94, 95, 95, 95, 96, 96, 96, 96] ++
   [96, 96, 96, 96, 96, 95, 95, 95, 94, 94, 93, 93, 92, 91, 90, 90] ++
   [89, 88, 87, 86, 85, 84, 82, 81, 80, 78, 77, 76, 74, 73, 71, 70] ++
   [68, 66, 64, 63, 61, 59, 57, 55, 53, 51, 49, 47, 45, 43, 41, 39] ++
   [37, 35, 32, 30, 28, 26, 23, 21, 19, 16, 14, 12, 9, 7, 5, 2] ++
   [0, -2, -5, -7, -9, -12, -14, -16, -19, -21, -23, -26, -28, -30, -32, -35] ++
   [-37, -39, -41, -43, -45, -47, -49, -51, -53, -55, -57, -59, -61, -63, -64, -66] ++
   [-68, -70, -71, -73, -74, -76, -77, -78, -80, -81, -82, -84, -85, -86, -87, -88] ++
   [-89, -90, -90, -91, -92, -93, -93, -94, -94, -95, -95, -95, -96, -96, -96, -96] ++
   [-96, -96, -96, -96, -96, -95, -95, -95, -94, -94, -93, -93, -92, -91, -90, -90] ++
   [-89, -88, -87, -86, -85, -84, -82, -81, -80, -78, -77, -76, -74, -73, -71, -70] ++
   [-68, -66, -64, -63, -61, -59, -57, -55, -53, -51, -49, -47, -45, -43, -41, -39] ++
   [-37, -35, -32, -30, -28, -26, -23, -21, -19, -16, -14, -12, -9, -7, -5, -2]

/-- The reference configuration (00_scope.md R12). `destId` is the ASCII of "APZ001" (45_frame_codec.md R221). -/
def Config.reference : Config where
  fLow        := 1200
  fHigh       := 2400
  tableBits   := 8
  amp         := 96
  phaseBits   := 16
  wave        := referenceWave
  cl          := [8, 6, 0, -6, -8, -6, 0, 6]
  sl          := [0, 6, 8, 6, 0, -6, -8, -6]
  ch          := [8, 0, -8, 0, 8, 0, -8, 0]
  sh          := [0, 8, 0, -8, 0, 8, 0, -8]
  initTone    := .low
  presyncIdle := 1
  escLen      := 6
  runMax      := 15
  destId      := [0x41#8, 0x50#8, 0x5A#8, 0x30#8, 0x30#8, 0x31#8]
  destSsidPre := 0x70#8
  srcSsidBase := 0x30#8
  controlUi   := 0x03#8
  pidNoL3     := 0xF0#8
  octSize     := 4096
  smpSize     := 65536

/-- The phase increment of a tone of frequency `f`: `floor(f * 2^PHASE_BITS / 9600 + 1/2)` (41_modulator.md R137). -/
def Config.incOf (c : Config) (f : Nat) : Nat := (2 * f * 2 ^ c.phaseBits + sampleRate) / (2 * sampleRate)

/-- `INC[tone]` (41_modulator.md R135, R137). -/
def Config.inc (c : Config) : Tone → Nat
  | .low  => c.incOf c.fLow
  | .high => c.incOf c.fHigh

/-- The constraints on a configuration: the list of 00_scope.md R12, the increments' bounds of 41_modulator.md R137, and
the shapes of the two ROMs (10_state.md R56, R57) and of the destination identifier (45_frame_codec.md R221). -/
def Config.legal (c : Config) : Bool :=
  decide (c.fLow < c.fHigh)
    && decide (1 ≤ c.amp) && decide (c.amp ≤ 127)
    && decide (c.tableBits ≤ c.phaseBits) && decide (c.phaseBits ≤ 32)
    && decide (1 ≤ c.escLen) && decide (c.escLen ≤ 15)
    && decide (6 ≤ c.runMax) && decide (c.runMax ≤ 15)
    && decide (c.octSize ≤ 2 ^ 32) && decide (c.smpSize ≤ 2 ^ 32)
    && decide (0 < c.inc .low) && decide (c.inc .low < c.inc .high) && decide (2 * c.inc .high < 2 ^ c.phaseBits)
    && decide (c.wave.length = 2 ^ c.tableBits)
    && c.wave.all (fun v => decide (-(c.amp : Int) ≤ v) && decide (v ≤ (c.amp : Int)))
    && decide (c.cl.length = spb) && decide (c.sl.length = spb)
    && decide (c.ch.length = spb) && decide (c.sh.length = spb)
    && decide (c.destId.length = 6)

end Sys2Proof
end

