-- ==== Sys2Proof/Machine/State.lean ====
section
/-! DEFINITION. The state of the block as plain data (10_state.md R30 to R62), the events that move it, and the state
after reset. The fields `disturbed`, `draws`, `schedule` and `reads` are the model's own (INVENTORY.md, State). -/

namespace Sys2Proof.Machine

/-- A model fault that would stop the machine. There is none: 93_implementation_defined.md section 1 says that no
behaviour of the block is stuck, and the model faults of 60_exceptions.md R272 set the violation mark and go on. -/
inductive Fault where
  deriving DecidableEq, Repr

/-- Why `exec` gives an instruction no meaning. Illegal command words are not refused: they complete with
`ILLEGAL_COMMAND` (30_encoding.md R114). -/
inductive Refusal where
  /-- Raised by `exec` for an instruction that has no meaning yet; no arm raises it now. Safe: the machine stops. -/
  | notModelled (mnemonic : String)
  deriving DecidableEq, Repr

/-- The error codes of `STATUS.ERR` (60_exceptions.md R260). Codes 6..15 are never written, so they are no values. -/
inductive ErrCode where
  | ok
  | formatError
  | notFound
  | invalidChecksum
  | illegalCommand
  | rangeError
  deriving DecidableEq, Repr

/-- The two byte memories (20_memory.md R80). -/
inductive Space where
  | oct
  | smp
  deriving DecidableEq, Repr

/-- A memory: the written bytes with their addresses, addresses strictly rising. An unlisted address is unwritten
(20_memory.md R95). -/
abbrev Memory := List Host.Cell

/-- A host access (20_memory.md R85), by its offset in its window. Register accesses carry their width in bits, since
one that is not an aligned 32-bit word is a violation (R88). -/
inductive HostAccess where
  | regRead  (off bits : Nat)
  | regWrite (off bits : Nat) (v : Word)
  | memRead  (sp : Space) (a : Nat)
  | memWrite (sp : Space) (a : Nat) (v : Byte)
  deriving DecidableEq, Repr

/-- One entry of the schedule: who takes the next atomic step (00_scope.md R13, 70_reset_and_hazards.md R300). -/
inductive Event where
  /-- The host's access takes effect (20_memory.md R93). -/
  | host (h : HostAccess)
  /-- The command engine takes its turn: the completion step, if a command is pending (60_exceptions.md R266). -/
  | engine
  /-- The platform applies the power-on reset (70_reset_and_hazards.md R290). -/
  | powerOn
  deriving DecidableEq, Repr

/-- The register block (10_state.md R32 to R52). `ID` is hard-wired (R33) and `STATUS.BUSY` is the latch's (R60), so
they are no fields. Registers with reserved bits hold them as 0. -/
structure Regs where
  irqEn      : Bool     -- CTRL.IRQ_EN (R34)
  done       : Bool     -- STATUS.DONE (R35)
  ovr        : Bool     -- STATUS.OVR (R35)
  err        : ErrCode  -- STATUS.ERR (R35)
  cmd        : Word     -- R36
  srcAddr    : Word     -- R37
  srcLen     : Word     -- R38
  dstAddr    : Word     -- R39
  resultLen  : Word     -- R40
  resultAux  : Word     -- R41
  callLo     : Word     -- R42
  callHi     : Word     -- R43, bits [15:0]
  frameCfg   : Word     -- R44, bits [11:0]
  ctrlPid    : Word     -- R45, bits [15:0]
  crc        : Word     -- R46
  payloadOff : Word     -- R47
  payloadLen : Word     -- R48
  dmState    : Word     -- R49, mask 0x00FF0FF3
  dmBitidx   : Word     -- R50
  dmStart    : Word     -- R51
  dmEvent    : Word     -- R52, mask 0x0003FF03
  deriving DecidableEq, Repr

/-- The state of the block (10_state.md R30), and the model's own fields after it. -/
structure State where
  regs      : Regs
  oct       : Memory        -- R53
  smp       : Memory        -- R54
  latch     : Option Word   -- R60
  mark      : Bool          -- R61, the sticky violation mark
  disturbed : Bool          -- the model's own: the pending command's result is unconstrained
  draws     : Nat           -- the model's own: the number of the next free value
  schedule  : List Event    -- the model's own: who moves next
  reads     : List Word     -- the model's own: what host reads returned, newest first
  deriving DecidableEq, Repr

/-- Every register at its reset value (the table of 10_state.md R32): `DM_STATE` is `zext_32(INIT_TONE)`, all else 0. -/
def Regs.reset (c : Config) : Regs where
  irqEn      := false
  done       := false
  ovr        := false
  err        := .ok
  cmd        := 0#32
  srcAddr    := 0#32
  srcLen     := 0#32
  dstAddr    := 0#32
  resultLen  := 0#32
  resultAux  := 0#32
  callLo     := 0#32
  callHi     := 0#32
  frameCfg   := 0#32
  ctrlPid    := 0#32
  crc        := 0#32
  payloadOff := 0#32
  payloadLen := 0#32
  dmState    := match c.initTone with
                | .low  => 0#32
                | .high => 1#32
  dmBitidx   := 0#32
  dmStart    := 0#32
  dmEvent    := 0#32

/-- The state after a power-on reset of the build `c` (10_state.md R62, 70_reset_and_hazards.md R290), with the model's
own fields at their first values. Nothing is scheduled: a run's schedule is given from outside
(notes/assumptions/2.md). -/
def State.resetOf (c : Config) : State where
  regs      := Regs.reset c
  oct       := []
  smp       := []
  latch     := none
  mark      := false
  disturbed := false
  draws     := 0
  schedule  := []
  reads     := []

/-- The state after a power-on reset of the reference build (00_scope.md R12). -/
def State.reset : State := State.resetOf Config.reference

end Sys2Proof.Machine
end

