-- ==== Sys2Proof/Machine/Ops.lean ====
section
/-! DEFINITION. The shared operations: the memories and the command engine's primitives over them (20_memory.md R89,
R95), acceptance, completion and errors (60_exceptions.md R261, R265, R266, R268). -/

namespace Sys2Proof.Machine

/-! ### Memories -/

/-- The form a memory is kept in: addresses strictly rising. -/
abbrev Memory.wf (m : Memory) : Prop := m.Pairwise (fun x y => x.1 < y.1)

/-- The byte at address `a`, if it is written (20_memory.md R95). -/
def Memory.read (m : Memory) (a : Nat) : Option Byte := (m.find? (fun x => x.1 == a)).map (·.2)

/-- The cells that the bytes `vs` fill from address `a` on. -/
def cellsFrom : Nat → List Byte → Memory
  | _, []      => []
  | a, v :: vs => (a, v) :: cellsFrom (a + 1) vs

/-- `MemWrite`'s effect on one memory: the bytes `vs` from address `a` on, each marked written (20_memory.md R89). -/
def Memory.writeRange (m : Memory) (a : Nat) (vs : List Byte) : Memory :=
  m.filter (fun x => x.1 < a) ++ cellsFrom a vs ++ m.filter (fun x => a + vs.length ≤ x.1)

/-- One byte written (20_memory.md R85, R95). -/
def Memory.write (m : Memory) (a : Nat) (v : Byte) : Memory := m.writeRange a [v]

/-- The `n` bytes from address `a` on become unwritten (70_reset_and_hazards.md R291). -/
def Memory.forget (m : Memory) (a n : Nat) : Memory := m.filter (fun x => x.1 < a || a + n ≤ x.1)

/-- The memory of a space (20_memory.md R80). -/
def State.mem (s : State) : Space → Memory
  | .oct => s.oct
  | .smp => s.smp

/-- The state with another memory in a space. -/
def State.setMem (s : State) (sp : Space) (m : Memory) : State :=
  match sp with
  | .oct => { s with oct := m }
  | .smp => { s with smp := m }

/-- `SIZE(space)` (20_memory.md R89). -/
def spaceSize (c : Config) : Space → Nat
  | .oct => c.octSize
  | .smp => c.smpSize

/-- `InRange(space, addr, n)`: the sum is exact, with no wrap (20_memory.md R89). -/
def inRange (c : Config) (sp : Space) (addr : Word) (n : Nat) : Bool := decide (addr.toNat + n ≤ spaceSize c sp)

/-- The written-or-not bytes of a range, lowest address first. -/
def Memory.range (m : Memory) (a n : Nat) : List (Option Byte) := (List.range n).map (fun i => m.read (a + i))

/-- The bytes a command takes from cells: an unwritten byte is a draw, the `i`-th byte draw `d + i`
(20_memory.md R95; notes/assumptions/6.md). -/
def fillDraws : Nat → List (Option Byte) → List Byte
  | _, []             => []
  | d, some b :: rest => b :: fillDraws (d + 1) rest
  | d, none :: rest   => Config.freeByte d :: fillDraws (d + 1) rest

/-- `MemRead`: the bytes read and the state after. A range that holds an unwritten byte sets the violation mark
(20_memory.md R89, R95; 60_exceptions.md R272), and its draws are used up. -/
def memRead (s : State) (sp : Space) (a n : Nat) : List Byte × State :=
  let cells := (s.mem sp).range a n
  (fillDraws s.draws cells,
   if cells.all Option.isSome then s else { s with mark := true, draws := s.draws + n })

/-- `MemWrite` (20_memory.md R89). -/
def memWrite (s : State) (sp : Space) (a : Nat) (vs : List Byte) : State :=
  s.setMem sp ((s.mem sp).writeRange a vs)

/-- `RESULT_LEN` takes the count `n` (10_state.md R40). DESIGN CHOICE (notes/assumptions/15.md): the spec gives the 32-bit
register no value for a count that it cannot hold; it takes a free value then. -/
def storeLength (n : Nat) (s : State) : State :=
  if n < 2 ^ 32 then { s with regs := { s.regs with resultLen := BitVec.ofNat 32 n } }
  else { s with regs := { s.regs with resultLen := Config.freeWord s.draws }, draws := s.draws + 1 }

/-- A range becomes unwritten (70_reset_and_hazards.md R291). -/
def forgetRange (s : State) (sp : Space) (a n : Nat) : State := s.setMem sp ((s.mem sp).forget a n)

/-! ### Acceptance, completion, errors -/

/-- `STATUS.BUSY`: 1 exactly when the latch holds a command (10_state.md R60). -/
def State.busy (s : State) : Bool := s.latch.isSome

/-- Acceptance of a command word (60_exceptions.md R265): `OVR` is unchanged, and an illegal word is accepted too. -/
def accept (w : Word) (s : State) : State :=
  { s with
    regs := { s.regs with cmd := w, done := false, err := .ok }
    latch := some w
    disturbed := false }

/-- Completion with a code (60_exceptions.md R266 step 4): `ERR` takes the code, `DONE` is set, the latch is emptied, so
`BUSY` is 0. This is all the machine does when an error is taken: no trap, no vector, nothing saved (R261, R271). -/
def complete (e : ErrCode) (s : State) : State :=
  { s with
    regs := { s.regs with done := true, err := e }
    latch := none
    disturbed := false }

/-- `finish(OK)` (00_scope.md R16). -/
def finish (s : State) : State := complete .ok s

/-- `raise E`: the command ends with that code and writes nothing else (60_exceptions.md R261, R263). -/
def raise (e : ErrCode) (s : State) : State := complete e s

/-- The host's acknowledgement, the block's only "return": a write of `v` to `STATUS` clears `DONE` if `v[1]` and `OVR`
if `v[2]`, and changes nothing else (10_state.md R35; 60_exceptions.md R268). -/
def acknowledge (v : Word) (r : Regs) : Regs :=
  { r with done := r.done && !v.getLsbD 1, ovr := r.ovr && !v.getLsbD 2 }

end Sys2Proof.Machine
end

