-- ==== Sys2Proof/Machine/Flags.lean ====
section
/-! DEFINITION. The status word, the error codes and the interrupt (10_state.md R34, R35; 60_exceptions.md R260, R267). -/

namespace Sys2Proof.Machine

/-- The code of an error (60_exceptions.md R260). -/
def ErrCode.code : ErrCode → BitVec 4
  | .ok              => 0#4
  | .formatError     => 1#4
  | .notFound        => 2#4
  | .invalidChecksum => 3#4
  | .illegalCommand  => 4#4
  | .rangeError      => 5#4

/-- One bit as a word. -/
def bitWord (b : Bool) : Word := if b then 1#32 else 0#32

/-- What a read of `STATUS` gives: `BUSY` [0], `DONE` [1], `OVR` [2], `ERR` [11:8], the reserved bits 0
(10_state.md R35). -/
def State.status (s : State) : Word :=
  bitWord s.busy ||| (bitWord s.regs.done <<< 1) ||| (bitWord s.regs.ovr <<< 2) ||| (s.regs.err.code.setWidth 32 <<< 8)

/-- The interrupt output, a level: `STATUS.DONE & CTRL.IRQ_EN` at all times (60_exceptions.md R267). -/
def State.irq (s : State) : Bool := s.regs.done && s.regs.irqEn

/-- The error code that a free word stands for, used where the spec leaves a command's result unconstrained; reserved
codes are never written (60_exceptions.md R260). -/
def ErrCode.ofFree (w : Word) : ErrCode :=
  match w.toNat % 6 with
  | 0 => .ok
  | 1 => .formatError
  | 2 => .notFound
  | 3 => .invalidChecksum
  | 4 => .illegalCommand
  | _ => .rangeError

end Sys2Proof.Machine
end

