-- ==== Sys2Proof/Machine/Operands.lean ====
section
/-! DEFINITION. The register map and the operand forms (10_state.md R32 to R52; 30_encoding.md R116): every register by
name and offset, what a host read of it gives, what a host write of it stores, and the fields that commands read. -/

namespace Sys2Proof.Machine

/-- The registers of the map (10_state.md R32). -/
inductive Reg where
  | id | ctrl | status | cmd | srcAddr | srcLen | dstAddr | resultLen | resultAux | callLo | callHi | frameCfg
  | ctrlPid | crc | payloadOff | payloadLen | dmState | dmBitidx | dmStart | dmEvent
  deriving DecidableEq, Repr

/-- The registers in the order of their offsets (10_state.md R32). -/
def regOrder : List Reg :=
  [.id, .ctrl, .status, .cmd, .srcAddr, .srcLen, .dstAddr, .resultLen, .resultAux, .callLo, .callHi, .frameCfg,
   .ctrlPid, .crc, .payloadOff, .payloadLen, .dmState, .dmBitidx, .dmStart, .dmEvent]

/-- The offset of a register (10_state.md R32). -/
def Reg.offset : Reg → Nat
  | .id         => 0x00
  | .ctrl       => 0x04
  | .status     => 0x08
  | .cmd        => 0x0C
  | .srcAddr    => 0x10
  | .srcLen     => 0x14
  | .dstAddr    => 0x18
  | .resultLen  => 0x1C
  | .resultAux  => 0x20
  | .callLo     => 0x24
  | .callHi     => 0x28
  | .frameCfg   => 0x2C
  | .ctrlPid    => 0x30
  | .crc        => 0x34
  | .payloadOff => 0x38
  | .payloadLen => 0x3C
  | .dmState    => 0x40
  | .dmBitidx   => 0x44
  | .dmStart    => 0x48
  | .dmEvent    => 0x4C

/-- The register at an offset; the offsets 0x50..0xFC hold none (10_state.md R32). -/
def regAt (off : Nat) : Option Reg := regOrder.find? (fun r => r.offset == off)

/-- The hard-wired value of `ID` (10_state.md R33). -/
def idValue : Word := 0x4146534B#32

/-- The implemented bits of `CALL_HI` (10_state.md R43). -/
def callHiMask : Word := 0x0000FFFF#32

/-- The implemented bits of `FRAME_CFG` (10_state.md R44). -/
def frameCfgMask : Word := 0x00000FFF#32

/-- The implemented bits of `CTRL_PID` (10_state.md R45). -/
def ctrlPidMask : Word := 0x0000FFFF#32

/-- The implemented bits of `DM_STATE` (10_state.md R49). -/
def dmStateMask : Word := 0x00FF0FF3#32

/-- The implemented bits of `DM_EVENT` (10_state.md R52). -/
def dmEventMask : Word := 0x0003FF03#32

/-- What a host read of a register gives (10_state.md R33 to R52). -/
def State.regValue (s : State) : Reg → Word
  | .id         => idValue
  | .ctrl       => bitWord s.regs.irqEn
  | .status     => s.status
  | .cmd        => s.regs.cmd
  | .srcAddr    => s.regs.srcAddr
  | .srcLen     => s.regs.srcLen
  | .dstAddr    => s.regs.dstAddr
  | .resultLen  => s.regs.resultLen
  | .resultAux  => s.regs.resultAux
  | .callLo     => s.regs.callLo
  | .callHi     => s.regs.callHi
  | .frameCfg   => s.regs.frameCfg
  | .ctrlPid    => s.regs.ctrlPid
  | .crc        => s.regs.crc
  | .payloadOff => s.regs.payloadOff
  | .payloadLen => s.regs.payloadLen
  | .dmState    => s.regs.dmState
  | .dmBitidx   => s.regs.dmBitidx
  | .dmStart    => s.regs.dmStart
  | .dmEvent    => s.regs.dmEvent

/-- What a read at an aligned offset of the register window gives: 0 where no register is (10_state.md R32). -/
def State.regRead (s : State) (off : Nat) : Word := ((regAt off).map s.regValue).getD 0#32

/-- What a host write stores into the plain registers: a read-only register ignores it, reserved bits are not stored
(10_state.md R32, R37 to R52). `CTRL`, `STATUS` and `CMD` have effects of their own and are left alone here. -/
def storeReg (r : Reg) (v : Word) (g : Regs) : Regs :=
  match r with
  | .srcAddr  => { g with srcAddr := v }
  | .srcLen   => { g with srcLen := v }
  | .dstAddr  => { g with dstAddr := v }
  | .callLo   => { g with callLo := v }
  | .callHi   => { g with callHi := v &&& callHiMask }
  | .frameCfg => { g with frameCfg := v &&& frameCfgMask }
  | .dmState  => { g with dmState := v &&& dmStateMask }
  | .dmBitidx => { g with dmBitidx := v }
  | .dmStart  => { g with dmStart := v }
  | .id | .ctrl | .status | .cmd | .resultLen | .resultAux | .ctrlPid | .crc | .payloadOff | .payloadLen | .dmEvent => g

/-- `FRAME_CFG.SSID`, bits [7:0] (10_state.md R44). -/
def Regs.ssid (g : Regs) : Byte := g.frameCfg.extractLsb' 0 8

/-- `FRAME_CFG.CALL_LEN`, bits [11:8] (10_state.md R44). -/
def Regs.callLen (g : Regs) : Nat := (g.frameCfg.extractLsb' 8 4).toNat

/-- The six callsign characters, character 0 first: four in `CALL_LO`, two in `CALL_HI`, each in its byte
(10_state.md R42, R43). -/
def Regs.callChars (g : Regs) : List Byte :=
  [g.callLo.extractLsb' 0 8, g.callLo.extractLsb' 8 8, g.callLo.extractLsb' 16 8, g.callLo.extractLsb' 24 8,
   g.callHi.extractLsb' 0 8, g.callHi.extractLsb' 8 8]

/-- Four bytes in a word, the first in bits [7:0] (20_memory.md R86). -/
def packBytes (b0 b1 b2 b3 : Byte) : Word :=
  b0.setWidth 32 ||| (b1.setWidth 32 <<< 8) ||| (b2.setWidth 32 <<< 16) ||| (b3.setWidth 32 <<< 24)

/-- A tone's bit: 0 LOW, 1 HIGH (00_scope.md R18). -/
def toneBit : Tone → Bool
  | .low  => false
  | .high => true

/-- The tone of a bit (00_scope.md R18). -/
def toneOfBit (b : Bool) : Tone := if b then .high else .low

/-- The other tone (41_modulator.md R133). -/
def toggleTone : Tone → Tone
  | .low  => .high
  | .high => .low

end Sys2Proof.Machine
end

