-- ==== Sys2Proof/Machine/FrameCodec.lean ====
section
/-! DEFINITION. The AX.25/APRS frame codec: `ENCODE_FRAME`, `DECODE_FRAME` and `CRC16` (45_frame_codec.md). -/

namespace Sys2Proof.Machine

/-! ### The CRC -/

/-- `crc_update` (45_frame_codec.md R225). -/
def crcUpdate (crc : BitVec 16) (data : Byte) : BitVec 16 :=
  let d0 := data ^^^ crc.setWidth 8
  let d1 := d0 ^^^ (d0 <<< 4)
  ((d1.setWidth 16 <<< 8) ||| (crc >>> 8)) ^^^ (d1 >>> 4).setWidth 16 ^^^ (d1.setWidth 16 <<< 3)

/-- `crc16` of a byte list: seed 0xFFFF, complemented at the end (45_frame_codec.md R225; 00_scope.md R10). -/
def crc16 (bs : List Byte) : BitVec 16 := bs.foldl crcUpdate 0xFFFF#16 ^^^ 0xFFFF#16

/-! ### Encoding -/

/-- The space that pads a callsign (45_frame_codec.md R222). -/
def spaceByte : Byte := 0x20#8

/-- The callsign on the wire, before the shift: character `k` for `k < len`, a space from there on
(45_frame_codec.md R222). -/
def paddedCall (chars : List Byte) (len : Nat) : List Byte :=
  (List.range 6).map (fun k => if k < len then chars.getD k spaceByte else spaceByte)

/-- The 14 address octets before the shift: destination, then source (45_frame_codec.md R221, R222). -/
def addressOctets (c : Config) (chars : List Byte) (len : Nat) (ssid : Byte) : List Byte :=
  c.destId ++ [c.destSsidPre] ++ paddedCall chars len ++ [c.srcSsidBase ||| (ssid &&& 0x0F#8)]

/-- The address shift: every octet moves left by one, and the low bit, the terminator, is set on the last one alone
(45_frame_codec.md R223). -/
def shiftAddress (as : List Byte) : List Byte :=
  (as.take 13).map (fun (a : Byte) => (a <<< 1) &&& 0xFE#8) ++ (as.drop 13).map (fun (a : Byte) => ((a <<< 1) &&& 0xFE#8) ||| 1#8)

/-- The CRC trailer: `crc16` of every octet before it, low byte first (45_frame_codec.md R229). -/
def withCrc (f : List Byte) : List Byte := f ++ [(crc16 f).setWidth 8, (crc16 f >>> 8).setWidth 8]

/-- Every octet of the frame before the trailer: address, control, protocol ID, payload (45_frame_codec.md R220 to
R224). -/
def frameBody (c : Config) (chars : List Byte) (len : Nat) (ssid : Byte) (payload : List Byte) : List Byte :=
  shiftAddress (addressOctets c chars len ssid) ++ [c.controlUi, c.pidNoL3] ++ payload

/-- The ranges `[a, a+n)` and `[d, d+18+n)` overlap (45_frame_codec.md R226 check 4). -/
def encodeOverlaps (a n d : Nat) : Bool := decide (0 < n) && decide (a < d + 18 + n) && decide (d < a + n)

/-- `ENCODE_FRAME` (45_frame_codec.md R226, R228). -/
def encodeFrame (c : Config) (s : State) : State :=
  let g := s.regs
  let n := g.srcLen.toNat
  if !inRange c .oct g.srcAddr n then raise .rangeError s
  else
    let p := (memRead s .oct g.srcAddr.toNat n).1
    let s1 := (memRead s .oct g.srcAddr.toNat n).2
    if 6 < g.callLen then raise .formatError s1
    else if !inRange c .oct g.dstAddr (18 + n) then raise .rangeError s1
    else if encodeOverlaps g.srcAddr.toNat n g.dstAddr.toNat then raise .rangeError s1
    else
      let body := frameBody c g.callChars g.callLen g.ssid p
      let s2 := memWrite s1 .oct g.dstAddr.toNat (withCrc body)
      finish { s2 with
        regs := { s2.regs with
          resultLen := BitVec.ofNat 32 (18 + n)
          resultAux := (crc16 body).setWidth 32 } }

/-- The meaning of `ENCODE_FRAME` (45_frame_codec.md R228). -/
def execEncodeFrame (s : State) : Host.Outcome State Fault Refusal := .next (encodeFrame Config.reference s)

/-! ### Decoding -/

/-- The address terminator: the least index from 13 on whose octet has bit 0 set (45_frame_codec.md R233). -/
def terminatorIndex (f : List Byte) : Option Nat := ((f.drop 13).findIdx? (fun b => b.getLsbD 0)).map (13 + ·)

/-- The format checks of `DECODE_FRAME`, giving the terminator's index when all pass (45_frame_codec.md R230). -/
def frameTerminator (f : List Byte) : Option Nat :=
  if f.length < 14 then none
  else match terminatorIndex f with
    | none   => none
    | some t => if f.length < t + 5 then none else some t

/-- Octet `i` of a frame. -/
def octetAt (f : List Byte) (i : Nat) : Byte := f.getD i 0#8

/-- The six source characters, shifted back (45_frame_codec.md R231). -/
def sourceChars (f : List Byte) : List Byte := (List.range 6).map (fun k => octetAt f (7 + k) >>> 1)

/-- The length without trailing spaces (45_frame_codec.md R231). -/
def trimmedLength (chars : List Byte) : Nat := (chars.reverse.dropWhile (fun ch => ch == spaceByte)).length

/-- The received CRC, low byte first (45_frame_codec.md R236). -/
def receivedCrc (f : List Byte) : BitVec 16 :=
  (octetAt f (f.length - 2)).setWidth 16 ||| ((octetAt f (f.length - 1)).setWidth 16 <<< 8)

/-- The computed CRC, over every octet before the trailer (45_frame_codec.md R236). -/
def computedCrc (f : List Byte) : BitVec 16 := crc16 (f.take (f.length - 2))

/-- The registers that `DECODE_FRAME` writes for the frame `f` at address `a` whose terminator has index `t`
(45_frame_codec.md R231 to R238). -/
def decodeResults (a : Nat) (f : List Byte) (t : Nat) (g : Regs) : Regs :=
  let s := sourceChars f
  { g with
    callLo     := packBytes (octetAt s 0) (octetAt s 1) (octetAt s 2) (octetAt s 3)
    callHi     := packBytes (octetAt s 4) (octetAt s 5) 0#8 0#8
    frameCfg   := (BitVec.ofNat 32 (trimmedLength s) <<< 8) ||| ((octetAt f 13 >>> 1) &&& 0x0F#8).setWidth 32
    ctrlPid    := packBytes (octetAt f (t + 1)) (octetAt f (t + 2)) 0#8 0#8
    crc        := ((receivedCrc f).setWidth 32 <<< 16) ||| (computedCrc f).setWidth 32
    payloadOff := BitVec.ofNat 32 (a + t + 3)
    payloadLen := BitVec.ofNat 32 (f.length - t - 5)
    resultLen  := BitVec.ofNat 32 (f.length - t - 5)
    resultAux  := BitVec.ofNat 32 (t + 1) }

/-- `DECODE_FRAME`: on a CRC mismatch it completes with `INVALID_CHECKSUM` after writing every result
(45_frame_codec.md R236, R237). -/
def decodeFrame (c : Config) (s : State) : State :=
  let g := s.regs
  let n := g.srcLen.toNat
  if !inRange c .oct g.srcAddr n then raise .rangeError s
  else
    let f := (memRead s .oct g.srcAddr.toNat n).1
    let s1 := (memRead s .oct g.srcAddr.toNat n).2
    match frameTerminator f with
    | none   => raise .formatError s1
    | some t =>
      let s2 := { s1 with regs := decodeResults g.srcAddr.toNat f t s1.regs }
      if computedCrc f = receivedCrc f then finish s2 else raise .invalidChecksum s2

/-- The meaning of `DECODE_FRAME` (45_frame_codec.md R237). -/
def execDecodeFrame (s : State) : Host.Outcome State Fault Refusal := .next (decodeFrame Config.reference s)

/-! ### CRC16 -/

/-- `CRC16` (45_frame_codec.md R239). -/
def crcCommand (c : Config) (s : State) : State :=
  let g := s.regs
  let n := g.srcLen.toNat
  if !inRange c .oct g.srcAddr n then raise .rangeError s
  else
    let bs := (memRead s .oct g.srcAddr.toNat n).1
    let s1 := (memRead s .oct g.srcAddr.toNat n).2
    finish { s1 with regs := { s1.regs with resultAux := (crc16 bs).setWidth 32 } }

/-- The meaning of `CRC16` (45_frame_codec.md R239). -/
def execCrc16 (s : State) : Host.Outcome State Fault Refusal := .next (crcCommand Config.reference s)

end Sys2Proof.Machine
end

