-- ==== Sys2Proof/Machine/Modulator.lean ====
section
/-! DEFINITION. The AFSK modulator: `MODULATE` (41_modulator.md). -/

namespace Sys2Proof.Machine

/-- The bits of a byte in wire order, least significant first (20_memory.md R87; 41_modulator.md R131). -/
def byteBits (b : Byte) : List Bool := (List.range 8).map (fun k => b.getLsbD k)

/-- The line bits of `k` copies of a marker byte, sent verbatim (41_modulator.md R130, R131). -/
def markerBits (b : Byte) : Nat → List Bool
  | 0     => []
  | k + 1 => byteBits b ++ markerBits b k

/-- The data bits of an octet list in wire order (41_modulator.md R131). -/
def dataBits (octets : List Byte) : List Bool := octets.flatMap byteBits

/-- Bit stuffing with the run counter `ones`: a 0 after every fifth consecutive 1, the counter carried across bytes
(41_modulator.md R131, R132). -/
def stuffBits : Nat → List Bool → List Bool
  | _,    []            => []
  | _,    false :: rest => false :: stuffBits 0 rest
  | ones, true :: rest  => if ones + 1 = 5 then true :: false :: stuffBits 0 rest else true :: stuffBits (ones + 1) rest

/-- The line-bit sequence: idle bytes, begin flags, stuffed data, end flags (41_modulator.md R131). -/
def lineBits (c : Config) (octets : List Byte) (nb ne : Nat) : List Bool :=
  markerBits idleByte c.presyncIdle ++ markerBits flagByte nb ++ stuffBits 0 (dataBits octets) ++ markerBits flagByte ne

/-- The tone of a line bit: a 0 toggles it, a 1 keeps it (41_modulator.md R133). -/
def nrziTone (tone : Tone) (bit : Bool) : Tone := if bit then tone else toggleTone tone

/-- One sample, taken before the phase advances (41_modulator.md R135). -/
def sampleAt (c : Config) (phase : Nat) : Byte :=
  BitVec.ofInt 8 (128 + c.wave.getD (phase / 2 ^ (c.phaseBits - c.tableBits)) 0)

/-- The phase after one sample of a tone (41_modulator.md R135). -/
def nextPhase (c : Config) (tone : Tone) (phase : Nat) : Nat := (phase + c.inc tone) % 2 ^ c.phaseBits

/-- `k` samples of a tone, and the phase after them (41_modulator.md R135). -/
def toneSamples (c : Config) (tone : Tone) : Nat → Nat → List Byte × Nat
  | 0,     phase => ([], phase)
  | k + 1, phase =>
    let rest := toneSamples c tone k (nextPhase c tone phase)
    (sampleAt c phase :: rest.1, rest.2)

/-- The samples of a line-bit sequence from a tone and a phase on: `SPB` samples for each bit, the phase continuous
(41_modulator.md R133, R135, R139). -/
def synthesize (c : Config) : Tone → Nat → List Bool → List Byte
  | _,    _,     []          => []
  | tone, phase, bit :: bits =>
    let tone' := nrziTone tone bit
    let out := toneSamples c tone' spb phase
    out.1 ++ synthesize c tone' out.2 bits

/-- `MODULATE nb, ne` (41_modulator.md R142). The modulator's state starts fresh (R136). A legal build with `SMP_SIZE` 2^32
can write 2^32 samples, which `RESULT_LEN` cannot hold: `storeLength` makes the model's choice. -/
def modulate (c : Config) (nb ne : Byte) (s : State) : State :=
  let g := s.regs
  let n := g.srcLen.toNat
  if !inRange c .oct g.srcAddr n then raise .rangeError s
  else
    let octets := (memRead s .oct g.srcAddr.toNat n).1
    let s1 := (memRead s .oct g.srcAddr.toNat n).2
    let lb := lineBits c octets nb.toNat ne.toNat
    if !inRange c .smp g.dstAddr (spb * lb.length) then raise .rangeError s1
    else
      let s2 := memWrite s1 .smp g.dstAddr.toNat (synthesize c c.initTone 0 lb)
      let s3 := storeLength (spb * lb.length) s2
      finish { s3 with regs := { s3.regs with resultAux := BitVec.ofNat 32 lb.length } }

/-- The meaning of `MODULATE` (41_modulator.md R142). -/
def execModulate (nb ne : Byte) (s : State) : Host.Outcome State Fault Refusal :=
  .next (modulate Config.reference nb ne s)

end Sys2Proof.Machine
end

