-- ==== Sys2Proof/Machine/Discriminator.lean ====
section
/-! DEFINITION. The tone discriminator: `DISCRIMINATE` (42_discriminator.md). -/

namespace Sys2Proof.Machine

/-- A sample moved to a signed value about the PCM zero level (42_discriminator.md R161). -/
def centred (b : Byte) : Int := (b.toNat : Int) - 128

/-- One correlation sum of a window with a coefficient table (42_discriminator.md R162). -/
def correlate (table : List Int) (window : List Byte) : Int :=
  (List.zipWith (fun b k => centred b * k) window table).foldr (· + ·) 0

/-- `power_low` (42_discriminator.md R163). -/
def powerLow (c : Config) (w : List Byte) : Int := correlate c.cl w ^ 2 + correlate c.sl w ^ 2

/-- `power_high` (42_discriminator.md R163). -/
def powerHigh (c : Config) (w : List Byte) : Int := correlate c.ch w ^ 2 + correlate c.sh w ^ 2

/-- The score of a window, a function of its 8 samples alone (42_discriminator.md R160, R163). -/
def disc (c : Config) (w : List Byte) : Int := powerHigh c w - powerLow c w

/-- The tone a score decides: HIGH for a positive score, LOW for 0 or less (42_discriminator.md R165). -/
def toneOfScore (score : Int) : Tone := if 0 < score then .high else .low

/-- The 32-bit two's-complement pattern of a score (42_discriminator.md R164, R166). -/
def scoreWord (score : Int) : Word := BitVec.ofInt 32 score

/-- `DISCRIMINATE` (42_discriminator.md R166). -/
def discriminate (c : Config) (s : State) : State :=
  let g := s.regs
  if !inRange c .smp g.srcAddr spb then raise .rangeError s
  else
    let w := (memRead s .smp g.srcAddr.toNat spb).1
    let s1 := (memRead s .smp g.srcAddr.toNat spb).2
    finish { s1 with regs := { s1.regs with resultAux := scoreWord (disc c w) } }

/-- The meaning of `DISCRIMINATE` (42_discriminator.md R166). -/
def execDiscriminate (s : State) : Host.Outcome State Fault Refusal := .next (discriminate Config.reference s)

end Sys2Proof.Machine
end

