-- ==== Sys2Proof/Machine/Demodulator.lean ====
section
/-! DEFINITION. The AFSK demodulator: its step, `DEMOD_STEP` and `DEMOD_RESET` (43_demodulator.md). -/

namespace Sys2Proof.Machine

/-- The demodulator state (43_demodulator.md R175). -/
structure DemodState where
  prev    : Tone
  inFrame : Bool
  run     : Nat
  esc     : Nat
  sreg    : Byte
  bitidx  : Word
  start   : Word
  deriving DecidableEq, Repr

/-- What a step emits (43_demodulator.md R184; 00_scope.md R18). -/
inductive DemodEvent where
  | none
  | flag
  | skip
  | byte (v : Byte)
  deriving DecidableEq, Repr

/-- What a step gives: the new state, the event, and the decoded bit (43_demodulator.md R185). -/
structure StepResult where
  st    : DemodState
  event : DemodEvent
  bit   : Bool
  deriving DecidableEq, Repr

/-- The initial state (43_demodulator.md R175). -/
def demodInit (c : Config) : DemodState where
  prev    := c.initTone
  inFrame := false
  run     := 0
  esc     := 0
  sreg    := 0#8
  bitidx  := 0#32
  start   := 0#32

/-- The shift of part 2: the new bit enters at the top (43_demodulator.md R177). -/
def shiftIn (sreg : Byte) (bit : Bool) : Byte := (sreg >>> 1) ||| (if bit then 0x80#8 else 0#8)

/-- The step after the tone decision (43_demodulator.md R176 to R185). Natural subtraction is the escape counter's
decrement: it stays 0 at 0 (R178). -/
def demodTone (c : Config) (st : DemodState) (tone : Tone) : StepResult :=
  let bit  := decide (tone = st.prev)
  let sreg := shiftIn st.sreg bit
  let next := { st with prev := tone, esc := st.esc - 1, bitidx := st.bitidx + 1 }
  if st.esc = 0 ∧ sreg = flagByte then
    { st := { next with sreg := 0#8, run := 0, esc := 0, inFrame := true, start := st.bitidx }, event := .flag, bit := bit }
  else if !st.inFrame then
    { st := { next with sreg := sreg }, event := .none, bit := bit }
  else if bit = false ∧ st.run = 5 then
    { st := { next with sreg := sreg <<< 1, start := st.start + 1, run := 0, esc := c.escLen }, event := .skip, bit := bit }
  else
    let run := if bit then min (st.run + 1) c.runMax else 0
    if (st.bitidx - st.start).toNat % 8 = 0 then
      { st := { next with sreg := 0#8, run := run }, event := .byte sreg, bit := bit }
    else
      { st := { next with sreg := sreg, run := run }, event := .none, bit := bit }

/-- `dstep`: the tone of the window's score, then the step (43_demodulator.md R176, R185). -/
def dstep (c : Config) (st : DemodState) (w : List Byte) : StepResult := demodTone c st (toneOfScore (disc c w))

/-- The demodulator that the `DM_*` registers hold (10_state.md R49 to R51; 43_demodulator.md R186). -/
def Regs.demod (g : Regs) : DemodState where
  prev    := toneOfBit (g.dmState.getLsbD 0)
  inFrame := g.dmState.getLsbD 1
  run     := (g.dmState.extractLsb' 4 4).toNat
  esc     := (g.dmState.extractLsb' 8 4).toNat
  sreg    := g.dmState.extractLsb' 16 8
  bitidx  := g.dmBitidx
  start   := g.dmStart

/-- The word of `DM_STATE`, reserved bits 0 (10_state.md R49). -/
def dmStateWord (st : DemodState) : Word :=
  bitWord (toneBit st.prev) ||| (bitWord st.inFrame <<< 1)
    ||| ((BitVec.ofNat 4 st.run).setWidth 32 <<< 4) ||| ((BitVec.ofNat 4 st.esc).setWidth 32 <<< 8)
    ||| (st.sreg.setWidth 32 <<< 16)

/-- The code of an event (43_demodulator.md R186). -/
def DemodEvent.code : DemodEvent → BitVec 2
  | .none   => 0#2
  | .flag   => 1#2
  | .skip   => 2#2
  | .byte _ => 3#2

/-- The byte of an event, 0 unless it is a `BYTE` (10_state.md R52). -/
def DemodEvent.value : DemodEvent → Byte
  | .byte v => v
  | .none   => 0#8
  | .flag   => 0#8
  | .skip   => 0#8

/-- The word of `DM_EVENT` (10_state.md R52). -/
def dmEventWord (ev : DemodEvent) (bit : Bool) (tone : Tone) : Word :=
  ev.code.setWidth 32 ||| (ev.value.setWidth 32 <<< 8) ||| (bitWord bit <<< 16) ||| (bitWord (toneBit tone) <<< 17)

/-- The `DM_*` registers after a step (43_demodulator.md R186); the step's tone is the new `prev` (R176). -/
def storeDemod (r : StepResult) (g : Regs) : Regs :=
  { g with
    dmState  := dmStateWord r.st
    dmBitidx := r.st.bitidx
    dmStart  := r.st.start
    dmEvent  := dmEventWord r.event r.bit r.st.prev }

/-- `DEMOD_STEP` (43_demodulator.md R186). -/
def demodStep (c : Config) (s : State) : State :=
  let g := s.regs
  if !inRange c .smp g.srcAddr spb then raise .rangeError s
  else
    let w := (memRead s .smp g.srcAddr.toNat spb).1
    let s1 := (memRead s .smp g.srcAddr.toNat spb).2
    let r := dstep c g.demod w
    finish { s1 with regs := { storeDemod r s1.regs with resultAux := scoreWord (disc c w) } }

/-- The meaning of `DEMOD_STEP` (43_demodulator.md R186). -/
def execDemodStep (s : State) : Host.Outcome State Fault Refusal := .next (demodStep Config.reference s)

/-- `DEMOD_RESET` (43_demodulator.md R187). -/
def demodReset (c : Config) (s : State) : State :=
  finish { s with
    regs := { s.regs with
      dmState  := bitWord (toneBit c.initTone)
      dmBitidx := 0#32
      dmStart  := 0#32
      dmEvent  := 0#32 } }

/-- The meaning of `DEMOD_RESET` (43_demodulator.md R187). -/
def execDemodReset (s : State) : Host.Outcome State Fault Refusal := .next (demodReset Config.reference s)

end Sys2Proof.Machine
end

