-- ==== Sys2Proof/Machine/PhaseSearch.lean ====
section
/-! DEFINITION. The phase-search synchronizer: `DEMOD_TRIAL` and `DEMODULATE` (44_phase_search.md). -/

namespace Sys2Proof.Machine

/-- The complete windows of a sample list, in order; a partial one at the end is never read (44_phase_search.md R200). -/
def windows : List Byte → List (List Byte)
  | b0 :: b1 :: b2 :: b3 :: b4 :: b5 :: b6 :: b7 :: rest => [b0, b1, b2, b3, b4, b5, b6, b7] :: windows rest
  | _ => []

/-- A trial from a demodulator state and an accumulator on: it ends at the first flag that closes at least `MIN_FRAME`
bytes (44_phase_search.md R201, R203). -/
def trialFrom (c : Config) : DemodState → List Byte → List (List Byte) → Option (List Byte)
  | _,  _,   []      => none
  | st, acc, w :: ws =>
    let r := dstep c st w
    match r.event with
    | .flag   => if minFrame ≤ acc.length then some acc else trialFrom c r.st [] ws
    | .byte v => trialFrom c r.st (acc ++ [v]) ws
    | .skip   => trialFrom c r.st acc ws
    | .none   => trialFrom c r.st acc ws

/-- `Trial(buf, o)`: a fresh demodulator over the windows from offset `o` (44_phase_search.md R200, R201). -/
def trial (c : Config) (buf : List Byte) (o : Nat) : Option (List Byte) :=
  trialFrom c (demodInit c) [] (windows (buf.drop o))

/-- `Search(buf)`: the least offset whose trial finds a frame, with the frame (44_phase_search.md R205). -/
def search (c : Config) (buf : List Byte) : Option (Nat × List Byte) :=
  (List.range spb).findSome? (fun o => (trial c buf o).map (fun acc => (o, acc)))

/-- The end of a command that found the frame `acc` at offset `o` (44_phase_search.md R206, R207). -/
def deliverFrame (c : Config) (o : Nat) (acc : List Byte) (s : State) : State :=
  let g := s.regs
  if !inRange c .oct g.dstAddr acc.length then raise .rangeError s
  else
    let s1 := memWrite s .oct g.dstAddr.toNat acc
    finish { s1 with
      regs := { s1.regs with
        resultLen := BitVec.ofNat 32 acc.length
        resultAux := BitVec.ofNat 32 o } }

/-- `DEMOD_TRIAL o` (44_phase_search.md R206). An offset above 7 is an illegal command. -/
def demodTrial (c : Config) (o : Byte) (s : State) : State :=
  let g := s.regs
  let n := g.srcLen.toNat
  if spb ≤ o.toNat then raise .illegalCommand s
  else if !inRange c .smp g.srcAddr n then raise .rangeError s
  else
    let buf := (memRead s .smp g.srcAddr.toNat n).1
    let s1 := (memRead s .smp g.srcAddr.toNat n).2
    match trial c buf o.toNat with
    | none     => raise .notFound s1
    | some acc => deliverFrame c o.toNat acc s1

/-- The meaning of `DEMOD_TRIAL` (44_phase_search.md R206). -/
def execDemodTrial (o : Byte) (s : State) : Host.Outcome State Fault Refusal :=
  .next (demodTrial Config.reference o s)

/-- `DEMODULATE` (44_phase_search.md R207). -/
def demodulate (c : Config) (s : State) : State :=
  let g := s.regs
  let n := g.srcLen.toNat
  if !inRange c .smp g.srcAddr n then raise .rangeError s
  else
    let buf := (memRead s .smp g.srcAddr.toNat n).1
    let s1 := (memRead s .smp g.srcAddr.toNat n).2
    match search c buf with
    | none          => raise .notFound s1
    | some (o, acc) => deliverFrame c o acc s1

/-- The meaning of `DEMODULATE` (44_phase_search.md R207). -/
def execDemodulate (s : State) : Host.Outcome State Fault Refusal := .next (demodulate Config.reference s)

end Sys2Proof.Machine
end

