-- ==== Sys2Proof/Machine/Reset.lean ====
section
/-! DEFINITION. The power-on reset and the soft reset (70_reset_and_hazards.md R290, R291). -/

namespace Sys2Proof.Machine

/-- The power-on reset: every register at its reset value, the latch empty, every byte unwritten
(70_reset_and_hazards.md R290). The violation mark stays: no step clears it (10_state.md R61). -/
def powerOnReset (c : Config) (s : State) : State :=
  { s with regs := Regs.reset c, oct := [], smp := [], latch := none, disturbed := false }

/-- The length of the range that a command writes when it ends with `OK`, from the bytes its `MemRead` gives
(20_memory.md R90; 70_reset_and_hazards.md R291); 0 for one that writes no memory. -/
def outputLength (c : Config) (i : Instr) (s : State) : Nat :=
  let a := s.regs.srcAddr.toNat
  let n := s.regs.srcLen.toNat
  match i with
  | .encodeFrame    => 18 + n
  | .modulate nb ne => spb * (lineBits c (memRead s .oct a n).1 nb.toNat ne.toNat).length
  | .demodulate     => ((search c (memRead s .smp a n).1).map (fun r => r.2.length)).getD 0
  | .demodTrial o   => ((trial c (memRead s .smp a n).1 o.toNat).map List.length).getD 0
  | .decodeFrame    => 0
  | .discriminate   => 0
  | .demodStep      => 0
  | .demodReset     => 0
  | .crc16          => 0

/-- `OutRange` made unwritten, for a command that writes `n` bytes of the space `sp` on `OK` and that would give `t` from
`s`: the range is empty after an error (70_reset_and_hazards.md R291). -/
def forgetOutput (sp : Space) (n : Nat) (s t : State) : State :=
  let s1 := { s with draws := t.draws }
  if t.regs.err = .ok then forgetRange s1 sp s.regs.dstAddr.toNat n else s1

/-- What aborting the command `i` does to the memories (70_reset_and_hazards.md R291). -/
def abortCommand (c : Config) (i : Instr) (s : State) : State :=
  match i with
  | .encodeFrame    => forgetOutput .oct (outputLength c i s) s (encodeFrame c s)
  | .modulate nb ne => forgetOutput .smp (outputLength c i s) s (modulate c nb ne s)
  | .demodulate     => forgetOutput .oct (outputLength c i s) s (demodulate c s)
  | .demodTrial o   => forgetOutput .oct (outputLength c i s) s (demodTrial c o s)
  | .decodeFrame    => s
  | .discriminate   => s
  | .demodStep      => s
  | .demodReset     => s
  | .crc16          => s

/-- The largest output range of a command becomes unwritten, for a command whose result is unconstrained: `18 + n`
bytes (45_frame_codec.md R228), eight samples for each of the most line bits (41_modulator.md R140), the longest frame
(44_phase_search.md R204). -/
def forgetBound (c : Config) (i : Instr) (s : State) : State :=
  let d := s.regs.dstAddr.toNat
  let n := s.regs.srcLen.toNat
  match i with
  | .encodeFrame    => forgetRange s .oct d (18 + n)
  | .modulate nb ne => forgetRange s .smp d (spb * (8 * (c.presyncIdle + nb.toNat + ne.toNat) + 8 * n + 8 * n / 5))
  | .demodulate     => forgetRange s .oct d (n / 64)
  | .demodTrial _   => forgetRange s .oct d (n / 64)
  | .decodeFrame    => s
  | .discriminate   => s
  | .demodStep      => s
  | .demodReset     => s
  | .crc16          => s

/-- The memories after the pending command, if there is one, is aborted (70_reset_and_hazards.md R291). -/
def abortPending (c : Config) (s : State) : State :=
  match s.latch with
  | none   => s
  | some w =>
    match decode w with
    | .error _ => s
    | .ok i    => if s.disturbed then forgetBound c i s else abortCommand c i s

/-- The soft reset (70_reset_and_hazards.md R291): the aborted command's output range becomes unwritten, every register
takes its reset value, the latch is emptied. -/
def softReset (c : Config) (s : State) : State :=
  { abortPending c s with regs := Regs.reset c, latch := none, disturbed := false }

end Sys2Proof.Machine
end

