-- ==== Sys2Proof/Machine/Bus.lean ====
section
/-! DEFINITION. The host's accesses as atomic steps (20_memory.md R85, R88, R92, R95, R96; 60_exceptions.md R265, R269,
R270, R272). -/

namespace Sys2Proof.Machine

/-- A free bit. -/
def freeBit (d : Nat) : Bool := (Config.freeWord d).getLsbD 0

/-- The host gets the value `v` of a read (20_memory.md R85). -/
def answer (v : Word) (s : State) : State := { s with reads := v :: s.reads }

/-- The registers after an access whose effect is unconstrained: free values in the implemented bits
(93_implementation_defined.md section 1; notes/assumptions/7.md). -/
def freeRegs (d : Nat) : Regs where
  irqEn      := freeBit d
  done       := freeBit (d + 1)
  ovr        := freeBit (d + 2)
  err        := ErrCode.ofFree (Config.freeWord (d + 3))
  cmd        := Config.freeWord (d + 4)
  srcAddr    := Config.freeWord (d + 5)
  srcLen     := Config.freeWord (d + 6)
  dstAddr    := Config.freeWord (d + 7)
  resultLen  := Config.freeWord (d + 8)
  resultAux  := Config.freeWord (d + 9)
  callLo     := Config.freeWord (d + 10)
  callHi     := Config.freeWord (d + 11) &&& callHiMask
  frameCfg   := Config.freeWord (d + 12) &&& frameCfgMask
  ctrlPid    := Config.freeWord (d + 13) &&& ctrlPidMask
  crc        := Config.freeWord (d + 14)
  payloadOff := Config.freeWord (d + 15)
  payloadLen := Config.freeWord (d + 16)
  dmState    := Config.freeWord (d + 17) &&& dmStateMask
  dmBitidx   := Config.freeWord (d + 18)
  dmStart    := Config.freeWord (d + 19)
  dmEvent    := Config.freeWord (d + 20) &&& dmEventMask

/-- The latch after an access whose effect is unconstrained: as before, empty, or any word. -/
def freeLatch (d : Nat) (latch : Option Word) : Option Word :=
  if freeBit d then latch else if freeBit (d + 1) then none else some (Config.freeWord (d + 2))

/-- How many draws an irregular register access uses up. -/
def irregularDraws : Nat := 32

/-- A register access that is not an aligned 32-bit word: the violation mark is set and the registers are unconstrained,
and with them a pending command's result (20_memory.md R88; 60_exceptions.md R272). -/
def irregularAccess (s : State) : State :=
  { s with
    regs := freeRegs s.draws
    latch := freeLatch (s.draws + 21) s.latch
    mark := true
    disturbed := true
    draws := s.draws + irregularDraws }

/-- A register access is an aligned 32-bit word (20_memory.md R88). -/
def regularAccess (off bits : Nat) : Bool := bits == 32 && off % 4 == 0

/-- The size of the register window (20_memory.md R99). -/
def regWindow : Nat := 0x100

/-- A host write to `CMD`: acceptance, or, while busy, the write is dropped and `OVR` is set (60_exceptions.md R265,
R269). -/
def writeCmd (v : Word) (s : State) : State :=
  if s.busy then { s with regs := { s.regs with ovr := true } } else accept v s

/-- A host write to `CTRL`: a soft reset if bit 1 is set, whatever bit 0; else `IRQ_EN` takes bit 0 (10_state.md R34;
70_reset_and_hazards.md R291). It is performed while busy too (60_exceptions.md R270). -/
def writeCtrl (c : Config) (v : Word) (s : State) : State :=
  if v.getLsbD 1 then softReset c s else { s with regs := { s.regs with irqEn := v.getLsbD 0 } }

/-- A host write of a register (10_state.md R32 to R52), with the busy rules of 60_exceptions.md R270. -/
def writeReg (c : Config) (r : Reg) (v : Word) (s : State) : State :=
  match r with
  | .ctrl   => writeCtrl c v s
  | .status => { s with regs := acknowledge v s.regs }
  | .cmd    => writeCmd v s
  | r       => if s.busy then s else { s with regs := storeReg r v s.regs }

/-- `RegRead` (20_memory.md R85); an irregular one returns any value. A read has no side effect on the block (R92). -/
def hostRegRead (off bits : Nat) (s : State) : State :=
  if regularAccess off bits then answer (s.regRead off) s
  else answer (Config.freeWord (s.draws + 31)) (irregularAccess s)

/-- `RegWrite` (20_memory.md R85); where no register is, the write is ignored (10_state.md R32). -/
def hostRegWrite (c : Config) (off bits : Nat) (v : Word) (s : State) : State :=
  if regularAccess off bits then
    match regAt off with
    | some r => writeReg c r v s
    | none   => s
  else irregularAccess s

/-- The violation of a host access to a memory while a command is pending: the mark is set and the pending command's
result is unconstrained (20_memory.md R96; 93_implementation_defined.md section 1). It uses up one draw. -/
def busyAccess (s : State) : State := { s with mark := true, disturbed := true, draws := s.draws + 1 }

/-- `OctRead`, `SmpRead`: the byte if it is written, else a draw (20_memory.md R85, R95); any value while busy (R96). -/
def hostMemRead (sp : Space) (a : Nat) (s : State) : State :=
  if s.busy then answer ((Config.freeByte s.draws).setWidth 32) (busyAccess s)
  else match (s.mem sp).read a with
    | some v => answer (v.setWidth 32) s
    | none   => answer ((Config.freeByte s.draws).setWidth 32) { s with draws := s.draws + 1 }

/-- `OctWrite`, `SmpWrite`: the byte is set and marked written (20_memory.md R85, R95); while busy it may or may not
land (R96). -/
def hostMemWrite (sp : Space) (a : Nat) (v : Byte) (s : State) : State :=
  if s.busy then
    if freeBit s.draws then memWrite (busyAccess s) sp a [v] else busyAccess s
  else memWrite s sp a [v]

/-- A host access. One outside its window goes elsewhere and is no step of the block (20_memory.md R85, R99). -/
def hostAccess (c : Config) (h : HostAccess) (s : State) : State :=
  match h with
  | .regRead off bits    => if off < regWindow then hostRegRead off bits s else s
  | .regWrite off bits v => if off < regWindow then hostRegWrite c off bits v s else s
  | .memRead sp a        => if a < spaceSize c sp then hostMemRead sp a s else s
  | .memWrite sp a v     => if a < spaceSize c sp then hostMemWrite sp a v s else s

end Sys2Proof.Machine
end

