-- ==== Sys2Proof/Machine/Dispatch.lean ====
section
/-! DEFINITION. One arm for each command (30_encoding.md R111). -/

namespace Sys2Proof.Machine

def exec (i : Instr) (s : State) : Host.Outcome State Fault Refusal :=
  match i with
  | .encodeFrame => Sys2Proof.Machine.execEncodeFrame s
  | .decodeFrame => Sys2Proof.Machine.execDecodeFrame s
  | .modulate nb ne => Sys2Proof.Machine.execModulate nb ne s
  | .demodulate => Sys2Proof.Machine.execDemodulate s
  | .discriminate => Sys2Proof.Machine.execDiscriminate s
  | .demodStep => Sys2Proof.Machine.execDemodStep s
  | .demodReset => Sys2Proof.Machine.execDemodReset s
  | .crc16 => Sys2Proof.Machine.execCrc16 s
  | .demodTrial o => Sys2Proof.Machine.execDemodTrial o s

end Sys2Proof.Machine
end

