-- ==== Sys2Proof/Machine/Engine.lean ====
section
/-! DEFINITION. The command engine's turn: the completion step (60_exceptions.md R266), and the steps of a build. Every
definition here takes the build's configuration (00_scope.md R12). -/

namespace Sys2Proof.Machine

/-- The rule of the command `i` in the build `c` (00_scope.md R12). `exec` is this at the reference build
(`exec_eq_perform`). -/
def perform (c : Config) (i : Instr) (s : State) : State :=
  match i with
  | .encodeFrame    => encodeFrame c s
  | .decodeFrame    => decodeFrame c s
  | .modulate nb ne => modulate c nb ne s
  | .demodulate     => demodulate c s
  | .discriminate   => discriminate c s
  | .demodStep      => demodStep c s
  | .demodReset     => demodReset c s
  | .crc16          => crcCommand c s
  | .demodTrial o   => demodTrial c o s

/-- The registers a command may write, with free values in them: the result set of 30_encoding.md R116. -/
def freeResults (i : Instr) (d : Nat) (g : Regs) : Regs :=
  match i with
  | .encodeFrame    => { g with resultLen := (freeRegs d).resultLen, resultAux := (freeRegs d).resultAux }
  | .modulate _ _   => { g with resultLen := (freeRegs d).resultLen, resultAux := (freeRegs d).resultAux }
  | .demodulate     => { g with resultLen := (freeRegs d).resultLen, resultAux := (freeRegs d).resultAux }
  | .demodTrial _   => { g with resultLen := (freeRegs d).resultLen, resultAux := (freeRegs d).resultAux }
  | .discriminate   => { g with resultAux := (freeRegs d).resultAux }
  | .crc16          => { g with resultAux := (freeRegs d).resultAux }
  | .decodeFrame    =>
    { g with
      callLo := (freeRegs d).callLo, callHi := (freeRegs d).callHi, frameCfg := (freeRegs d).frameCfg
      ctrlPid := (freeRegs d).ctrlPid, crc := (freeRegs d).crc, payloadOff := (freeRegs d).payloadOff
      payloadLen := (freeRegs d).payloadLen, resultLen := (freeRegs d).resultLen, resultAux := (freeRegs d).resultAux }
  | .demodStep      =>
    { g with
      dmState := (freeRegs d).dmState, dmBitidx := (freeRegs d).dmBitidx, dmStart := (freeRegs d).dmStart
      dmEvent := (freeRegs d).dmEvent, resultAux := (freeRegs d).resultAux }
  | .demodReset     =>
    { g with
      dmState := (freeRegs d).dmState, dmBitidx := (freeRegs d).dmBitidx, dmStart := (freeRegs d).dmStart
      dmEvent := (freeRegs d).dmEvent }

/-- The completion of a command whose result is unconstrained, after a host violation while it was pending: any code,
free values in its result registers, its output range unwritten (93_implementation_defined.md section 1;
notes/assumptions/5.md). -/
def completeUnconstrained (c : Config) (i : Instr) (s : State) : State :=
  let s1 := forgetBound c i s
  complete (freeRegs s.draws).err
    { s1 with regs := freeResults i s.draws s1.regs, draws := s.draws + irregularDraws }

/-- The engine's turn: with a command pending it decodes the latch and performs the command's rule, or ends with
`ILLEGAL_COMMAND` for an illegal word (60_exceptions.md R266; 30_encoding.md R114). With none pending the completion
step is not enabled, and the block holds its state (R276). -/
def engineTurn (c : Config) (s : State) : Host.Outcome State Fault Refusal :=
  match s.latch with
  | none   => .next s
  | some w =>
    match decode w with
    | .error _ => .next (raise .illegalCommand s)
    | .ok i    => .next (if s.disturbed then completeUnconstrained c i s else perform c i s)

/-- One event of the schedule (00_scope.md R13). -/
def takeEvent (c : Config) (e : Event) (s : State) : Host.Outcome State Fault Refusal :=
  match e with
  | .host h  => .next (hostAccess c h s)
  | .engine  => engineTurn c s
  | .powerOn => .next (powerOnReset c s)

/-- The next step of the build `c`: the schedule's first event, or the engine's turn when the schedule is exhausted, which
is the weak fairness of 70_reset_and_hazards.md R300. -/
def nextStep (c : Config) (s : State) : Host.Outcome State Fault Refusal :=
  match s.schedule with
  | []        => engineTurn c s
  | e :: rest => takeEvent c e { s with schedule := rest }

/-- The state with the command word `w` accepted and the engine's turn next (notes/assumptions/9.md). -/
def placeCommand (w : Word) (s : State) : State := { accept w s with schedule := .engine :: s.schedule }

/-- The machine of the build `c`: `Sys2Proof.core` is that of the reference build (`buildCore_reference`). -/
def buildCore (c : Config) : Host.Core where
  State   := State
  Fault   := Fault
  Refusal := Refusal
  step    := nextStep c
  reset   := State.resetOf c

end Sys2Proof.Machine
end

