-- ==== Sys2Proof/Machine/Step.lean ====
section
/-! DEFINITION. The step of the block, and the placing of a command word where the next step takes it. -/

namespace Sys2Proof.Machine

/-- One atomic step of the reference build: a host access, a turn of the command engine, or a power-on reset
(00_scope.md R12, R13). Another build's step is `nextStep`. -/
def step (s : State) : Host.Outcome State Fault Refusal := nextStep Config.reference s

/-- The state in which the next step performs the command of the word whose `nbits` bits are `w`. The block fetches
nothing (20_memory.md R97): a command comes to run by a write to `CMD` (60_exceptions.md R265), whose acceptance this
stands for. -/
def State.withFetchWord (s : State) (nbits w : Nat) : State := placeCommand (BitVec.ofNat 32 (w % 2 ^ nbits)) s

end Sys2Proof.Machine
end

