-- ==== Sys2Proof/Machine/HostProgram.lean ====
section
/-! DEFINITION. The assembler syntax and the host-program notation (30_encoding.md R117 to R119), expanded to the events
of the schedule. -/

namespace Sys2Proof.Machine

/-- A line of the assembler syntax; operands are numbers of any size (30_encoding.md R117). -/
inductive AsmLine where
  | encodeFrame
  | decodeFrame
  | modulate (nb ne : Nat)
  | demodulate
  | discriminate
  | demodStep
  | demodReset
  | crc16
  | demodTrial (o : Nat)
  /-- `.word v`: the raw word, the only way to write an illegal command. -/
  | rawWord (v : Word)
  deriving DecidableEq, Repr

/-- The word of an assembler line. An operand out of range is an assembly error, never a wrapped value
(30_encoding.md R117). -/
def assemble : AsmLine → Option Word
  | .encodeFrame    => some (encode .encodeFrame)
  | .decodeFrame    => some (encode .decodeFrame)
  | .modulate nb ne =>
    if nb < 256 ∧ ne < 256 then some (encode (.modulate (BitVec.ofNat 8 nb) (BitVec.ofNat 8 ne))) else none
  | .demodulate     => some (encode .demodulate)
  | .discriminate   => some (encode .discriminate)
  | .demodStep      => some (encode .demodStep)
  | .demodReset     => some (encode .demodReset)
  | .crc16          => some (encode .crc16)
  | .demodTrial o   => if o < spb then some (encode (.demodTrial (BitVec.ofNat 8 o))) else none
  | .rawWord v      => some v

/-- A step of a host program, or a pseudo-instruction (30_encoding.md R118, R119). DESIGN CHOICE
(notes/assumptions/14.md): a `WAIT` carries how often it polls `STATUS` before the completion step falls, since the
latency is free (70_reset_and_hazards.md R300). -/
inductive HostStep where
  /-- `W <reg>, v` -/
  | writeReg (reg : Reg) (v : Word)
  /-- `R <reg> -> name`: the value joins `reads`; the name is the host's own. -/
  | readReg (reg : Reg)
  /-- `WB a, b0 b1 … bk` -/
  | writeOct (a : Nat) (bs : List Byte)
  /-- `RB a, n -> name` -/
  | readOct (a n : Nat)
  /-- `WS a, s0 s1 … sk` -/
  | writeSmp (a : Nat) (bs : List Byte)
  /-- `RS a, n -> name` -/
  | readSmp (a n : Nat)
  /-- `CMD <assembler command>` -/
  | command (line : AsmLine)
  /-- `WAIT` -/
  | wait (polls : Nat)
  /-- `RUN <command>` -/
  | runCommand (line : AsmLine) (polls : Nat)
  /-- `ACK` -/
  | ack
  /-- `ACKALL` -/
  | ackAll
  /-- `SRST` -/
  | softReset
  /-- `ARGS s, n, d` -/
  | args (s n d : Word)
  /-- `CALL "XYZ", ssid` -/
  | call (chars : List Byte) (ssid : Byte)
  deriving DecidableEq, Repr

/-- A register write of a host program: one aligned 32-bit word (20_memory.md R85). -/
def regWriteEvent (r : Reg) (v : Word) : Event := .host (.regWrite r.offset 32 v)

/-- A register read of a host program. -/
def regReadEvent (r : Reg) : Event := .host (.regRead r.offset 32)

/-- The byte writes of `WB` and `WS`, in order. -/
def writeEvents (sp : Space) : Nat → List Byte → List Event
  | _, []      => []
  | a, b :: bs => .host (.memWrite sp a b) :: writeEvents sp (a + 1) bs

/-- The byte reads of `RB` and `RS`, in order. -/
def readEvents (sp : Space) : Nat → Nat → List Event
  | _, 0     => []
  | a, n + 1 => .host (.memRead sp a) :: readEvents sp (a + 1) n

/-- `WAIT`: polls that find `BUSY` set, the completion step, and the poll that reads it clear. DESIGN CHOICE
(notes/assumptions/14.md): the engine's turn stands here alone, although 70_reset_and_hazards.md R300 also lets the command
complete before or between the host steps that precede the `WAIT`; and on an idle block `wait p` polls `p + 1` times. -/
def waitEvents (polls : Nat) : List Event :=
  List.replicate polls (regReadEvent .status) ++ [.engine, regReadEvent .status]

/-- The events of a host step; `none` for an assembly error, or a callsign of more than 6 characters. -/
def HostStep.events : HostStep → Option (List Event)
  | .writeReg reg v  => some [regWriteEvent reg v]
  | .readReg reg     => some [regReadEvent reg]
  | .writeOct a bs   => some (writeEvents .oct a bs)
  | .readOct a n     => some (readEvents .oct a n)
  | .writeSmp a bs   => some (writeEvents .smp a bs)
  | .readSmp a n     => some (readEvents .smp a n)
  | .command l       => (assemble l).map (fun v => [regWriteEvent .cmd v])
  | .wait p          => some (waitEvents p)
  | .runCommand l p  => (assemble l).map (fun v => regWriteEvent .cmd v :: waitEvents p)
  | .ack             => some [regWriteEvent .status 0x00000002#32]
  | .ackAll          => some [regWriteEvent .status 0x00000006#32]
  | .softReset       => some [regWriteEvent .ctrl 0x00000002#32]
  | .args s n d      => some [regWriteEvent .srcAddr s, regWriteEvent .srcLen n, regWriteEvent .dstAddr d]
  | .call cs sid =>
    if cs.length ≤ 6 then
      some [regWriteEvent .callLo (packBytes (cs.getD 0 0#8) (cs.getD 1 0#8) (cs.getD 2 0#8) (cs.getD 3 0#8)),
            regWriteEvent .callHi (packBytes (cs.getD 4 0#8) (cs.getD 5 0#8) 0#8 0#8),
            regWriteEvent .frameCfg ((BitVec.ofNat 32 cs.length <<< 8) ||| sid.setWidth 32)]
    else none

/-- A schedule of a host program, if every line assembles (30_encoding.md R118). It is the one in which each command
completes inside the next `WAIT` (DESIGN CHOICE, notes/assumptions/14.md); any other list of events is a schedule too. -/
def programEvents : List HostStep → Option (List Event)
  | []      => some []
  | h :: hs => h.events.bind (fun es => (programEvents hs).map (es ++ ·))

end Sys2Proof.Machine
end

