-- ==== Sys2Proof/Machine/Platform.lean ====
section
/-! DEFINITION. The platform's address map (20_memory.md R81 to R83, R99). The window bases are OPEN
(92_eei_decisions.md D34): a platform is an argument. -/

namespace Sys2Proof.Machine

/-- Where a platform maps the three windows (20_memory.md R99). -/
structure Platform where
  regBase : Nat
  octBase : Nat
  smpBase : Nat
  deriving DecidableEq, Repr

/-- Two windows share no address. -/
def windowsApart (b1 n1 b2 n2 : Nat) : Bool := decide (b1 + n1 ≤ b2) || decide (b2 + n2 ≤ b1)

/-- The windows of a platform do not overlap (20_memory.md R99). -/
def Platform.legal (p : Platform) (c : Config) : Bool :=
  windowsApart p.regBase regWindow p.octBase c.octSize
    && windowsApart p.regBase regWindow p.smpBase c.smpSize
    && windowsApart p.octBase c.octSize p.smpBase c.smpSize

/-- An address lies in a window. -/
def inWindow (addr base size : Nat) : Bool := decide (base ≤ addr) && decide (addr < base + size)

/-- A platform read of `bits` bits, as the host access of the block it reaches, if it reaches one; otherwise the
platform's decoder sends it elsewhere and the block sees no step (20_memory.md R85, R99). DESIGN CHOICE
(notes/assumptions/10.md): an access to a memory is exactly 8 bits (R88), and the spec gives a wider read no effect; here
it is the one-byte read at the address. -/
def Platform.read (p : Platform) (c : Config) (addr bits : Nat) : Option HostAccess :=
  if inWindow addr p.regBase regWindow then some (.regRead (addr - p.regBase) bits)
  else if inWindow addr p.octBase c.octSize then some (.memRead .oct (addr - p.octBase))
  else if inWindow addr p.smpBase c.smpSize then some (.memRead .smp (addr - p.smpBase))
  else none

/-- A platform write, likewise. DESIGN CHOICE (notes/assumptions/10.md): an access to a memory is exactly 8 bits
(20_memory.md R88), and the spec gives a wider write no effect; here the memory takes the low byte, at the address. -/
def Platform.write (p : Platform) (c : Config) (addr bits : Nat) (v : Word) : Option HostAccess :=
  if inWindow addr p.regBase regWindow then some (.regWrite (addr - p.regBase) bits v)
  else if inWindow addr p.octBase c.octSize then some (.memWrite .oct (addr - p.octBase) (v.setWidth 8))
  else if inWindow addr p.smpBase c.smpSize then some (.memWrite .smp (addr - p.smpBase) (v.setWidth 8))
  else none

end Sys2Proof.Machine
end

