-- ==== Sys2Proof/Safety.lean ====
section
/-! DEFINITION. What counts as a safe run, and the invariant of the block's state. -/

namespace Sys2Proof.Machine

/-- The premise of every claim about a run: the violation mark is clear (10_state.md R61; 60_exceptions.md R272). -/
def State.safe (s : State) : Prop := s.mark = false

/-- Every address of a memory is below its size (20_memory.md R80). -/
def Memory.below (m : Memory) (size : Nat) : Prop := ∀ x ∈ m, x.1 < size

/-- The invariant of the state of the build `c`. While a command is pending and the mark is clear, `DONE` is 0 and `ERR` is 0
(60_exceptions.md R265, R270); reserved bits hold 0 (10_state.md R32); memories are in their form and inside their
spaces (20_memory.md R80, R95); only a violation disturbs a pending command (R96). -/
structure State.Inv (c : Config) (s : State) : Prop where
  octForm         : s.oct.wf
  smpForm         : s.smp.wf
  octInside       : s.oct.below c.octSize
  smpInside       : s.smp.below c.smpSize
  callHiReserved  : s.regs.callHi &&& ~~~callHiMask = 0#32
  frameCfgReserved: s.regs.frameCfg &&& ~~~frameCfgMask = 0#32
  ctrlPidReserved : s.regs.ctrlPid &&& ~~~ctrlPidMask = 0#32
  dmStateReserved : s.regs.dmState &&& ~~~dmStateMask = 0#32
  dmEventReserved : s.regs.dmEvent &&& ~~~dmEventMask = 0#32
  pendingClean    : s.mark = false → s.busy = true → s.regs.done = false ∧ s.regs.err = .ok
  disturbedMarked : s.disturbed = true → s.mark = true

end Sys2Proof.Machine
end

