-- ==== Sys2Proof/Certificates/Slice0/Obligations.lean ====
section
/-! DEFINITION. The statements about the block, each formalising rules of spec/. The helpers of `Sys2Proof.Claims` write
the rules' values out anew, apart from the definitions of the machine, wherever a rule gives a value. The fields
`schedule`, `reads`, `draws` and `disturbed` that statements name are the model's own (notes/assumptions/2.md to 5.md). -/

open Sys2Proof Sys2Proof.Machine

namespace Sys2Proof.Claims

/-- The reference build (00_scope.md R12). -/
abbrev ref : Config := Config.reference

/-- The bytes `bs` are written at `a`, in order. -/
abbrev Holds (m : Memory) (a : Nat) (bs : List Byte) : Prop := ∀ i (h : i < bs.length), m.read (a + i) = some bs[i]

/-- Every byte outside the `n` bytes from `a` on reads in `m'` as in `m`. -/
abbrev SameOutside (m m' : Memory) (a n : Nat) : Prop := ∀ x, x < a ∨ a + n ≤ x → m'.read x = m.read x

/-- The state `s` after a command ended with the code `e`, its registers being `g` but for `STATUS`
(60_exceptions.md R266). -/
def ended (s : State) (e : ErrCode) (g : Regs) : State :=
  { s with regs := { g with done := true, err := e }, latch := none, disturbed := false }

/-- The next step of `s` is the host access `h`, and `rest` is scheduled after it. -/
abbrev HostNext (s : State) (h : HostAccess) (rest : List Event) : Prop := s.schedule = .host h :: rest

/-- The next step of `s` is the engine's turn, and `rest` is scheduled after it. -/
abbrev EngineNext (s : State) (rest : List Event) : Prop :=
  s.schedule = .engine :: rest ∨ (s.schedule = [] ∧ rest = [])

/-- The input range of a command that reads memory (20_memory.md R90). -/
def inputRange (i : Instr) (g : Regs) : Option (Space × Nat × Nat) :=
  match i with
  | .encodeFrame  => some (.oct, g.srcAddr.toNat, g.srcLen.toNat)
  | .decodeFrame  => some (.oct, g.srcAddr.toNat, g.srcLen.toNat)
  | .crc16        => some (.oct, g.srcAddr.toNat, g.srcLen.toNat)
  | .modulate _ _ => some (.oct, g.srcAddr.toNat, g.srcLen.toNat)
  | .discriminate => some (.smp, g.srcAddr.toNat, 8)
  | .demodStep    => some (.smp, g.srcAddr.toNat, 8)
  | .demodReset   => none
  | .demodTrial _ => some (.smp, g.srcAddr.toNat, g.srcLen.toNat)
  | .demodulate   => some (.smp, g.srcAddr.toNat, g.srcLen.toNat)

/-- The sizes of the two memories in the reference build (00_scope.md R12). -/
def bytesIn (sp : Space) : Nat :=
  match sp with
  | .oct => 4096
  | .smp => 65536

/-- The space a command's output lies in (20_memory.md R90). -/
def outputSpace (i : Instr) : Option Space :=
  match i with
  | .encodeFrame  => some .oct
  | .modulate _ _ => some .smp
  | .demodulate   => some .oct
  | .demodTrial _ => some .oct
  | .decodeFrame  => none
  | .discriminate => none
  | .demodStep    => none
  | .demodReset   => none
  | .crc16        => none

/-- A command that reads a range which lies inside its space but holds an unwritten byte (20_memory.md R95). -/
def ReadsUnwritten (i : Instr) (s : State) : Prop :=
  ∃ sp a n, inputRange i s.regs = some (sp, a, n) ∧ a + n ≤ bytesIn sp ∧
    ∃ x, a ≤ x ∧ x < a + n ∧ (s.mem sp).read x = none

/-- A host access that is a protocol violation: a register access that is not an aligned 32-bit word, or an access to a
memory while a command is pending (60_exceptions.md R272). -/
abbrev Violates (h : HostAccess) (s : State) : Prop :=
  match h with
  | .regRead off bits    => off < 0x100 ∧ (bits ≠ 32 ∨ off % 4 ≠ 0)
  | .regWrite off bits _ => off < 0x100 ∧ (bits ≠ 32 ∨ off % 4 ≠ 0)
  | .memRead sp a        => a < bytesIn sp ∧ s.latch ≠ none
  | .memWrite sp a _     => a < bytesIn sp ∧ s.latch ≠ none

/-- The implemented bits of a register that the host may write, `none` for a read-only one and for the three registers
with effects of their own (10_state.md R32 to R52). -/
def writableBits (r : Reg) : Option Word :=
  match r with
  | .srcAddr | .srcLen | .dstAddr | .callLo | .dmBitidx | .dmStart => some 0xFFFFFFFF#32
  | .callHi   => some 0x0000FFFF#32
  | .frameCfg => some 0x00000FFF#32
  | .dmState  => some 0x00FF0FF3#32
  | .id | .ctrl | .status | .cmd | .resultLen | .resultAux | .ctrlPid | .crc | .payloadOff | .payloadLen | .dmEvent =>
    none

/-- What every register reads after a reset of the reference build (10_state.md R32, R62). -/
def resetValue (r : Reg) : Word := if r = .id then 0x4146534B#32 else 0#32

/-- What every register reads after a reset of the build `c` (10_state.md R32). -/
def resetValueIn (c : Config) (r : Reg) : Word :=
  if r = .id then 0x4146534B#32 else if r = .dmState ∧ c.initTone = .high then 1#32 else 0#32

/-- The sizes of the two memories in the build `c` (00_scope.md R12). -/
def bytesInBuild (c : Config) (sp : Space) : Nat :=
  match sp with
  | .oct => c.octSize
  | .smp => c.smpSize

/-- The five conditions on a legal command word (30_encoding.md R113). -/
def LegalWord (w : Word) : Prop :=
  (1 ≤ (w.extractLsb' 0 4).toNat ∧ (w.extractLsb' 0 4).toNat ≤ 9) ∧
  (w.extractLsb' 4 4 = 0#4 ∧ w.extractLsb' 24 8 = 0#8) ∧
  (w.extractLsb' 0 4 = 9#4 → w.extractLsb' 11 5 = 0#5 ∧ w.extractLsb' 16 8 = 0#8) ∧
  (w.extractLsb' 0 4 ≠ 3#4 → w.extractLsb' 0 4 ≠ 9#4 → w.extractLsb' 8 16 = 0#16)

/-- Callsign character `k` (10_state.md R42, R43). -/
def char (g : Regs) (k : Nat) : Byte := (g.callHi ++ g.callLo).extractLsb' (8 * k) 8

/-- `FRAME_CFG.CALL_LEN` (10_state.md R44). -/
def callLength (g : Regs) : Nat := (g.frameCfg.extractLsb' 8 4).toNat

/-- The octets before the CRC trailer that `ENCODE_FRAME` builds for the payload `p` (45_frame_codec.md R220 to R224):
"APZ001" shifted, 0xE0, the padded callsign shifted, the SSID octet with the terminator, 0x03, 0xF0, the payload. -/
def encodedBody (g : Regs) (p : List Byte) : List Byte :=
  [0x82#8, 0xA0#8, 0xB4#8, 0x60#8, 0x60#8, 0x62#8, 0xE0#8]
    ++ (List.range 6).map (fun k => (if k < callLength g then char g k else 0x20#8) <<< 1)
    ++ [0x61#8 ||| ((0#4 ++ g.frameCfg.extractLsb' 0 4) <<< 1), 0x03#8, 0xF0#8] ++ p

/-- `t` is the index of the last address octet of `f` (45_frame_codec.md R233). -/
abbrev IsTerminator (f : List Byte) (t : Nat) : Prop :=
  13 ≤ t ∧ t < f.length ∧ (f.getD t 0#8).getLsbD 0 = true ∧
    ∀ i, 13 ≤ i → i < t → (f.getD i 0#8).getLsbD 0 = false

/-- `m` is the length of the source callsign of `f` without its trailing spaces (45_frame_codec.md R231). -/
abbrev IsTrimmed (f : List Byte) (m : Nat) : Prop :=
  m ≤ 6 ∧ (∀ k, m ≤ k → k < 6 → f.getD (7 + k) 0#8 >>> 1 = 0x20#8) ∧ (0 < m → f.getD (6 + m) 0#8 >>> 1 ≠ 0x20#8)

/-- One step of the bit-serial CRC with the reflected polynomial 0x8408 (45_frame_codec.md R225). -/
def serialBit (crc : BitVec 16) : BitVec 16 := if crc.getLsbD 0 then (crc >>> 1) ^^^ 0x8408#16 else crc >>> 1

/-- The bit-serial CRC over one byte (45_frame_codec.md R225). -/
def serialUpdate (crc : BitVec 16) (b : Byte) : BitVec 16 :=
  serialBit (serialBit (serialBit (serialBit (serialBit (serialBit (serialBit (serialBit (crc ^^^ b.setWidth 16))))))))

/-- Undo the stuffing: after five 1 bits the next bit must be a 0, which is dropped (41_modulator.md R132). -/
def destuff : Nat → List Bool → Option (List Bool)
  | 5,    false :: rest => destuff 0 rest
  | 5,    _             => none
  | _,    []            => some []
  | _,    false :: rest => (destuff 0 rest).map (false :: ·)
  | ones, true :: rest  => (destuff (ones + 1) rest).map (true :: ·)

/-- The tone of the last of the bits `bits` of a modulation: every 0 toggles it, from LOW (41_modulator.md R133,
R134). -/
def toneAfter (bits : List Bool) : Tone := if bits.count false % 2 = 1 then .high else .low

/-- The eight samples of a line bit in the reference build (41_modulator.md R143). -/
def bitPattern (tone : Tone) : List Byte :=
  match tone with
  | .low  => [128#8, 196#8, 224#8, 196#8, 128#8, 60#8, 32#8, 60#8]
  | .high => [128#8, 224#8, 128#8, 32#8, 128#8, 224#8, 128#8, 32#8]

/-- Sample `k` of a window about the PCM zero level (42_discriminator.md R161). -/
def about (w : List Byte) (k : Nat) : Int := ((w.getD k 0#8).toNat : Int) - 128

/-- The score of a window, its sums written out from the coefficient tables (10_state.md R57; 42_discriminator.md R162,
R163). -/
def score (w : List Byte) : Int :=
  let x := about w
  let iLow  := 8 * x 0 + 6 * x 1 - 6 * x 3 - 8 * x 4 - 6 * x 5 + 6 * x 7
  let qLow  := 6 * x 1 + 8 * x 2 + 6 * x 3 - 6 * x 5 - 8 * x 6 - 6 * x 7
  let iHigh := 8 * x 0 - 8 * x 2 + 8 * x 4 - 8 * x 6
  let qHigh := 8 * x 1 - 8 * x 3 + 8 * x 5 - 8 * x 7
  (iHigh ^ 2 + qHigh ^ 2) - (iLow ^ 2 + qLow ^ 2)

/-- The tone bit of a window: 1 exactly when its score is positive (42_discriminator.md R165). -/
def toneBitOf (w : List Byte) : Bool := decide (0 < score w)

/-- `DM_STATE` with its fields (10_state.md R49). -/
def dmStateOf (sreg : Byte) (esc run : BitVec 4) (inFrame tone : Bool) : Word :=
  0#8 ++ sreg ++ 0#4 ++ esc ++ run ++ 0#2 ++ BitVec.ofBool inFrame ++ BitVec.ofBool tone

/-- `DM_EVENT` with its fields (10_state.md R52). -/
def dmEventOf (code : BitVec 2) (byte : Byte) (bit tone : Bool) : Word :=
  0#14 ++ BitVec.ofBool tone ++ BitVec.ofBool bit ++ byte ++ 0#6 ++ code

/-- `DM_STATE.SREG` (10_state.md R49). -/
def sregOf (g : Regs) : Byte := g.dmState.extractLsb' 16 8

/-- `DM_STATE.ESC` (10_state.md R49). -/
def escOf (g : Regs) : BitVec 4 := g.dmState.extractLsb' 8 4

/-- `DM_STATE.RUN` (10_state.md R49). -/
def runOf (g : Regs) : BitVec 4 := g.dmState.extractLsb' 4 4

/-- `DM_STATE.IN_FRAME` (10_state.md R49). -/
def inFrameOf (g : Regs) : Bool := g.dmState.getLsbD 1

/-- The bit a window decodes to: 1 exactly when its tone is `DM_STATE.PREV_TONE` (43_demodulator.md R176). -/
def decodedBit (g : Regs) (w : List Byte) : Bool := toneBitOf w == g.dmState.getLsbD 0

/-- `SREG` with the decoded bit shifted in at the top (43_demodulator.md R177). -/
def shifted (g : Regs) (w : List Byte) : Byte := BitVec.ofBool (decodedBit g w) ++ (sregOf g).extractLsb' 1 7

/-- The flag test of the step fires (43_demodulator.md R178, R180). -/
abbrev FlagFires (g : Regs) (w : List Byte) : Prop := escOf g = 0#4 ∧ shifted g w = 0x7E#8

/-- `ESC` after the countdown of R178. -/
def countedDown (esc : BitVec 4) : BitVec 4 := if esc = 0#4 then 0#4 else esc - 1#4

/-- `RUN` after R182: it saturates at 15. -/
def tracked (run : BitVec 4) (bit : Bool) : BitVec 4 := if bit then (if run = 15#4 then 15#4 else run + 1#4) else 0#4

/-- `s` holds the 8 samples `w` at `SRC_ADDR`, inside `SMP`: a window `DISCRIMINATE` and `DEMOD_STEP` execute on
(42_discriminator.md R166, 43_demodulator.md R186). -/
abbrev WindowAt (s : State) (w : List Byte) : Prop :=
  w.length = 8 ∧ s.regs.srcAddr.toNat + 8 ≤ 65536 ∧ Holds s.smp s.regs.srcAddr.toNat w

/-- `s` holds the input `bs` of `SRC_LEN` bytes at `SRC_ADDR`, inside the space `sp` (20_memory.md R89, R90). -/
abbrev InputAt (s : State) (sp : Space) (bs : List Byte) : Prop :=
  bs.length = s.regs.srcLen.toNat ∧ s.regs.srcAddr.toNat + bs.length ≤ bytesIn sp ∧
    Holds (s.mem sp) s.regs.srcAddr.toNat bs

/-- The events of a demodulator over windows, step by step (43_demodulator.md R185). -/
def eventsOf (c : Config) : DemodState → List (List Byte) → List DemodEvent
  | _,  []      => []
  | st, w :: ws => (dstep c st w).event :: eventsOf c (dstep c st w).st ws

/-- The bytes of the `BYTE` events among `evs`. -/
def bytesOf : List DemodEvent → List Byte
  | []              => []
  | .byte v :: rest => v :: bytesOf rest
  | .none :: rest   => bytesOf rest
  | .skip :: rest   => bytesOf rest
  | .flag :: rest   => bytesOf rest

/-- How many bytes a storing command stores in the build `c` when it ends with `OK` (20_memory.md R90), computed as its
meaning computes them, from the bytes its `MemRead` gives. -/
def storedCount (c : Config) (i : Instr) (s : State) : Nat :=
  let a := s.regs.srcAddr.toNat
  let n := s.regs.srcLen.toNat
  match i with
  | .encodeFrame    => 18 + n
  | .modulate nb ne => 8 * (lineBits c (memRead s .oct a n).1 nb.toNat ne.toNat).length
  | .demodulate     => ((search c (memRead s .smp a n).1).map (fun r => r.2.length)).getD 0
  | .demodTrial o   => ((trial c (memRead s .smp a n).1 o.toNat).map List.length).getD 0
  | .decodeFrame    => 0
  | .discriminate   => 0
  | .demodStep      => 0
  | .demodReset     => 0
  | .crc16          => 0

/-- Two register blocks agree on the registers a command reads (30_encoding.md R116, column "reads"). -/
def AgreeOnOperands (i : Instr) (g g' : Regs) : Prop :=
  match i with
  | .encodeFrame  => g.srcAddr = g'.srcAddr ∧ g.srcLen = g'.srcLen ∧ g.dstAddr = g'.dstAddr ∧ g.callLo = g'.callLo ∧
      g.callHi = g'.callHi ∧ g.frameCfg = g'.frameCfg
  | .decodeFrame  => g.srcAddr = g'.srcAddr ∧ g.srcLen = g'.srcLen
  | .modulate _ _ => g.srcAddr = g'.srcAddr ∧ g.srcLen = g'.srcLen ∧ g.dstAddr = g'.dstAddr
  | .demodulate   => g.srcAddr = g'.srcAddr ∧ g.srcLen = g'.srcLen ∧ g.dstAddr = g'.dstAddr
  | .discriminate => g.srcAddr = g'.srcAddr
  | .demodStep    => g.srcAddr = g'.srcAddr ∧ g.dmState = g'.dmState ∧ g.dmBitidx = g'.dmBitidx ∧ g.dmStart = g'.dmStart
  | .demodReset   => True
  | .crc16        => g.srcAddr = g'.srcAddr ∧ g.srcLen = g'.srcLen
  | .demodTrial _ => g.srcAddr = g'.srcAddr ∧ g.srcLen = g'.srcLen ∧ g.dstAddr = g'.dstAddr

/-- Two register blocks hold the same results of a command (30_encoding.md R116, column "writes on OK"). -/
def SameResults (i : Instr) (g g' : Regs) : Prop :=
  match i with
  | .encodeFrame  => g.resultLen = g'.resultLen ∧ g.resultAux = g'.resultAux
  | .decodeFrame  => g.callLo = g'.callLo ∧ g.callHi = g'.callHi ∧ g.frameCfg = g'.frameCfg ∧ g.ctrlPid = g'.ctrlPid ∧
      g.crc = g'.crc ∧ g.payloadOff = g'.payloadOff ∧ g.payloadLen = g'.payloadLen ∧ g.resultLen = g'.resultLen ∧
      g.resultAux = g'.resultAux
  | .modulate _ _ => g.resultLen = g'.resultLen ∧ g.resultAux = g'.resultAux
  | .demodulate   => g.resultLen = g'.resultLen ∧ g.resultAux = g'.resultAux
  | .discriminate => g.resultAux = g'.resultAux
  | .demodStep    => g.dmState = g'.dmState ∧ g.dmBitidx = g'.dmBitidx ∧ g.dmStart = g'.dmStart ∧
      g.dmEvent = g'.dmEvent ∧ g.resultAux = g'.resultAux
  | .demodReset   => g.dmState = g'.dmState ∧ g.dmBitidx = g'.dmBitidx ∧ g.dmStart = g'.dmStart ∧ g.dmEvent = g'.dmEvent
  | .crc16        => g.resultAux = g'.resultAux
  | .demodTrial _ => g.resultLen = g'.resultLen ∧ g.resultAux = g'.resultAux

/-! ### The rules in a build other than the reference one (00_scope.md R12) -/

/-- The octets before the CRC trailer that `ENCODE_FRAME` builds in the build `c` (45_frame_codec.md R221 to R224). -/
def encodedBodyIn (c : Config) (g : Regs) (p : List Byte) : List Byte :=
  (c.destId ++ [c.destSsidPre]).map (fun b : Byte => b <<< 1)
    ++ (List.range 6).map (fun k => (if k < callLength g then char g k else 0x20#8) <<< 1)
    ++ [((c.srcSsidBase ||| (0#4 ++ g.frameCfg.extractLsb' 0 4)) <<< 1) ||| 1#8, c.controlUi, c.pidNoL3] ++ p

/-- A correlation sum of a window with a table (42_discriminator.md R161, R162). -/
def sumWith (w : List Byte) (table : List Int) : Int :=
  ((List.range 8).map (fun k => about w k * table.getD k 0)).sum

/-- The score of a window in the build `c` (42_discriminator.md R163). -/
def scoreIn (c : Config) (w : List Byte) : Int :=
  (sumWith w c.ch ^ 2 + sumWith w c.sh ^ 2) - (sumWith w c.cl ^ 2 + sumWith w c.sl ^ 2)

/-- The bit a window decodes to in the build `c` (43_demodulator.md R176). -/
def bitIn (c : Config) (g : Regs) (w : List Byte) : Bool := decide (0 < scoreIn c w) == g.dmState.getLsbD 0

/-- `SREG` with that bit shifted in at the top (43_demodulator.md R177). -/
def shiftedIn (c : Config) (g : Regs) (w : List Byte) : Byte :=
  BitVec.ofBool (bitIn c g w) ++ (sregOf g).extractLsb' 1 7

/-- The phase increment of a tone: its frequency times 2^PHASE_BITS over the sample rate, rounded (41_modulator.md
R137). -/
def incIn (c : Config) (tone : Tone) : Nat :=
  match tone with
  | .low  => (c.fLow * 2 ^ c.phaseBits + 4800) / 9600
  | .high => (c.fHigh * 2 ^ c.phaseBits + 4800) / 9600

/-- The tone of the last of the bits `bits` of a modulation: every 0 toggles it, from `INIT_TONE` (41_modulator.md R133,
R134). -/
def toneAfterIn (c : Config) (bits : List Bool) : Tone :=
  if bits.count false % 2 = 0 then c.initTone else if c.initTone = .low then .high else .low

/-- The phase at sample `k`: the sum of the increments of the samples before it, each of its line bit's tone
(41_modulator.md R135). -/
def phaseIn (c : Config) (bits : List Bool) (k : Nat) : Nat :=
  ((List.range k).map (fun j => incIn c (toneAfterIn c (bits.take (j / 8 + 1))))).sum % 2 ^ c.phaseBits

/-- Sample `k` of a modulation of the line bits `bits` (41_modulator.md R135). -/
def sampleIn (c : Config) (bits : List Bool) (k : Nat) : Byte :=
  BitVec.ofInt 8 (128 + c.wave.getD (phaseIn c bits k / 2 ^ (c.phaseBits - c.tableBits)) 0)

/-- The codes a command may end with, other than `OK` (60_exceptions.md R262). -/
def allowedErrors (i : Instr) : List ErrCode :=
  match i with
  | .encodeFrame  => [.rangeError, .formatError]
  | .decodeFrame  => [.rangeError, .formatError, .invalidChecksum]
  | .modulate _ _ => [.rangeError]
  | .demodulate   => [.rangeError, .notFound]
  | .discriminate => [.rangeError]
  | .demodStep    => [.rangeError]
  | .demodReset   => []
  | .crc16        => [.rangeError]
  | .demodTrial _ => [.rangeError, .notFound]

end Sys2Proof.Claims

open Sys2Proof.Claims

/-! ### Encoding -/

/-- Tier 1. Words written out from the encodings of 30_encoding.md R113 decode to their commands, and words with a
reserved bit, a reserved opcode, an unused immediate or a large offset are illegal (R114). -/
def Obligations.TableWordsDecode : Prop :=
  decode 0x00000001#32 = .ok .encodeFrame ∧ decode 0x00000002#32 = .ok .decodeFrame ∧
  decode 0x00010203#32 = .ok (.modulate 2#8 1#8) ∧ decode 0x00000004#32 = .ok .demodulate ∧
  decode 0x00000005#32 = .ok .discriminate ∧ decode 0x00000006#32 = .ok .demodStep ∧
  decode 0x00000007#32 = .ok .demodReset ∧ decode 0x00000008#32 = .ok .crc16 ∧
  decode 0x00000709#32 = .ok (.demodTrial 7#8) ∧
  decode 0x00000010#32 = .error .reservedBits ∧ decode 0x0000000A#32 = .error .reservedOpcode ∧
  decode 0x00000101#32 = .error .unusedImmediate ∧ decode 0x00000809#32 = .error .offsetAbove7

/-- Tier 3. Every well-formed command is what the decoder reads from its word. -/
def Obligations.DecodeOfEncodeIsTheCommand : Prop := ∀ i : Instr, i.wf = true → decode (encode i) = .ok i

/-- Tier 2. Every legal word has one meaning: the command read from it is well formed and its word is that word. -/
def Obligations.EncodeOfDecodeIsTheWord : Prop := ∀ (w : Word) (i : Instr), decode w = .ok i → i.wf = true ∧ encode i = w

/-- Tier 2. The words that decode to a command are those that meet the five conditions of 30_encoding.md R113, and
equally those that a row of its table matches; the row is the command's own, and no two rows match the same word. -/
def Obligations.LegalWordsAreTheTableRows : Prop :=
  (∀ w : Word, (∃ i, decode w = .ok i) ↔ LegalWord w) ∧
  (∀ (w : Word) (i : Instr), decode w = .ok i →
    ∃ row ∈ opcodeRows, row.mnemonic = i.mnemonic ∧ w &&& row.mask = row.matchBits) ∧
  (∀ (w : Word) (row : OpcodeRow), row ∈ opcodeRows → w &&& row.mask = row.matchBits → ∃ i, decode w = .ok i) ∧
  (∀ (w : Word) (row row' : OpcodeRow), row ∈ opcodeRows → row' ∈ opcodeRows →
    w &&& row.mask = row.matchBits → w &&& row'.mask = row'.matchBits → row = row')

/-- Tier 2. The assembler gives the word of the command with its operands, and none for an operand out of range; a raw
word stands for itself, and every other line that assembles gives a legal word (30_encoding.md R117). -/
def Obligations.AssemblerNeverWraps : Prop :=
  (assemble .encodeFrame = some 1#32 ∧ assemble .decodeFrame = some 2#32 ∧ assemble .demodulate = some 4#32 ∧
    assemble .discriminate = some 5#32 ∧ assemble .demodStep = some 6#32 ∧ assemble .demodReset = some 7#32 ∧
    assemble .crc16 = some 8#32) ∧
  (∀ nb ne : Nat, nb < 256 → ne < 256 → ∃ w, assemble (.modulate nb ne) = some w ∧ w.toNat = ne * 65536 + nb * 256 + 3) ∧
  (∀ nb ne : Nat, 256 ≤ nb ∨ 256 ≤ ne → assemble (.modulate nb ne) = none) ∧
  (∀ o : Nat, o < 8 → ∃ w, assemble (.demodTrial o) = some w ∧ w.toNat = o * 256 + 9) ∧
  (∀ o : Nat, 8 ≤ o → assemble (.demodTrial o) = none) ∧
  (∀ v : Word, assemble (.rawWord v) = some v) ∧
  (∀ (l : AsmLine) (w : Word), assemble l = some w → (∀ v, l ≠ .rawWord v) → ∃ i, decode w = .ok i)

/-! ### The step -/

/-- Tier 1. On the engine's turn, a pending word that decodes to a command is performed: the step is `exec` of the
command, and in any build (00_scope.md R12) it is the command's rule in that build. With no command pending the turn
changes nothing (60_exceptions.md R266). That the schedule says whose turn it is is the model's choice
(notes/assumptions/2.md). -/
def Obligations.EngineTurnRunsTheDecodedCommand : Prop :=
  (∀ (s : State) (rest : List Event) (w : Word) (i : Instr), EngineNext s rest → s.latch = some w →
    s.disturbed = false → decode w = .ok i → step s = exec i { s with schedule := rest }) ∧
  (∀ (s : State) (rest : List Event), EngineNext s rest → s.latch = none → step s = .next { s with schedule := rest }) ∧
  (∀ (c : Config) (s : State) (rest : List Event) (w : Word) (i : Instr), EngineNext s rest → s.latch = some w →
    s.disturbed = false → decode w = .ok i → nextStep c s = .next (perform c i { s with schedule := rest })) ∧
  (∀ (c : Config) (s : State) (rest : List Event), EngineNext s rest → s.latch = none →
    nextStep c s = .next { s with schedule := rest })

/-- Tier 1. An illegal word completes with `ILLEGAL_COMMAND`, code 4, and changes nothing else (30_encoding.md R114). That
the schedule says whose turn it is is the model's choice (notes/assumptions/2.md), and so is that an illegal word which a
host violation disturbed ends likewise (notes/assumptions/5.md). -/
def Obligations.IllegalWordEndsWithIllegalCommand : Prop :=
  ∀ (s : State) (rest : List Event) (w : Word), EngineNext s rest → s.latch = some w →
    (∀ row ∈ opcodeRows, w &&& row.mask ≠ row.matchBits) →
    step s = .next { ended s .illegalCommand s.regs with schedule := rest } ∧ ErrCode.illegalCommand.code = 4#4

/-- Tier 1. No state stops the block, in any build: every step answers a next state (93_implementation_defined.md section
1). That the model has no fault is its reading of that sentence (notes/assumptions/11.md). -/
def Obligations.EveryStepAnswersANextState : Prop :=
  (∀ s : State, ∃ t, step s = .next t) ∧ ∀ (c : Config) (s : State), ∃ t, nextStep c s = .next t

/-- Tier 1. The invariant holds after reset, in any build. Its clause on `disturbed`, and the form of a memory, are the
model's choices (notes/assumptions/5.md, 13.md). -/
def Obligations.InvariantHoldsAtReset : Prop := State.reset.Inv ref ∧ ∀ c : Config, (State.resetOf c).Inv c

/-- Tier 3. Every step keeps the invariant, from every state that has it, and so does every step of a legal build
(00_scope.md R12). Its clause on `disturbed`, and the form of a memory, are the model's choices (notes/assumptions/5.md,
13.md). -/
def Obligations.EveryStepKeepsTheInvariant : Prop :=
  (∀ s t : State, s.Inv ref → step s = .next t → t.Inv ref) ∧
  ∀ (c : Config) (s t : State), c.legal = true → s.Inv c → nextStep c s = .next t → t.Inv c

/-- Tier 2. After a step the violation mark is set exactly when it was set before, or the step was a host protocol
violation, or it performed a command that read an unwritten byte (60_exceptions.md R272; 10_state.md R61). The premise
`Inv` rules out a disturbed command without the mark (notes/assumptions/5.md). That a soft reset which aborts a command
with an unwritten input byte leaves the mark alone is the model's reading (notes/assumptions/8.md). -/
def Obligations.MarkIsSetByViolationsAlone : Prop :=
  ∀ s t : State, s.Inv ref → step s = .next t →
    (t.mark = true ↔ s.mark = true ∨ (∃ h rest, HostNext s h rest ∧ Violates h s) ∨
      (∃ rest w i, EngineNext s rest ∧ s.latch = some w ∧ decode w = .ok i ∧ ReadsUnwritten i s))

/-- Tier 2. `DONE`, `OVR` and `BUSY` change on their own events alone. In a step that is no host protocol violation,
`DONE` rises at a completion and falls at an acknowledgement, an acceptance or a reset (10_state.md R35); `OVR` rises
at a write to `CMD` while busy and stays until it is cleared by writing 1 or by a reset (60_exceptions.md R269); `BUSY`
rises at an acceptance and falls at a completion or a reset (10_state.md R60). That the schedule gives the events is
the model's choice (notes/assumptions/2.md). -/
def Obligations.DoneOvrAndBusyFollowTheirEvents : Prop :=
  ∀ s t : State, step s = .next t → (∀ h rest, HostNext s h rest → ¬ Violates h s) →
    let completes := ∃ rest, EngineNext s rest ∧ s.latch ≠ none
    let accepts := ∃ w rest, HostNext s (.regWrite 0x0C 32 w) rest ∧ s.latch = none
    let overruns := ∃ w rest, HostNext s (.regWrite 0x0C 32 w) rest ∧ s.latch ≠ none
    let resets := (∃ rest, s.schedule = .powerOn :: rest) ∨
      ∃ v rest, HostNext s (.regWrite 0x04 32 v) rest ∧ v.getLsbD 1 = true
    let acks := fun k => ∃ v rest, HostNext s (.regWrite 0x08 32 v) rest ∧ v.getLsbD k = true
    (t.regs.done = true ↔ completes ∨ (s.regs.done = true ∧ ¬ resets ∧ ¬ accepts ∧ ¬ acks 1)) ∧
    (t.regs.ovr = true ↔ overruns ∨ (s.regs.ovr = true ∧ ¬ resets ∧ ¬ acks 2)) ∧
    (t.busy = true ↔ accepts ∨ (s.busy = true ∧ ¬ resets ∧ ¬ completes))

/-- Tier 2. Under weak fairness a pending command ends: within one step more than the schedule is long, the latch is
empty (70_reset_and_hazards.md R300). That an exhausted schedule leaves the turn to the engine is the model's choice
(notes/assumptions/2.md). -/
def Obligations.PendingCommandEnds : Prop :=
  ∀ s : State, s.latch ≠ none →
    ∃ k ≤ s.schedule.length + 1, ∃ t : State, Host.Core.run core k s = .next t ∧ t.latch = none

/-- Tier 2. Every command completes: `DONE` is 1 and `BUSY` is 0, `irq` is `IRQ_EN`, and `CMD`, `OVR` and `IRQ_EN` are
as before (60_exceptions.md R266, R267). That a command which reads an unwritten byte runs on draws is the model's
choice (notes/assumptions/6.md). -/
def Obligations.EveryCommandCompletes : Prop :=
  ∀ (i : Instr) (s : State), ∃ t, exec i s = .next t ∧ t.regs.done = true ∧ t.busy = false ∧ t.latch = none ∧
    t.irq = s.regs.irqEn ∧ t.regs.irqEn = s.regs.irqEn ∧ t.regs.ovr = s.regs.ovr ∧ t.regs.cmd = s.regs.cmd ∧
    t.schedule = s.schedule ∧ t.reads = s.reads

/-! ### The host's accesses -/

/-- Tier 1. A write to `CMD` while no command is pending accepts the word, legal or not (60_exceptions.md R265):
`BUSY` is 1, `DONE` and `ERR` are 0, `OVR` is unchanged. -/
def Obligations.CmdWriteIsAccepted : Prop :=
  ∀ (s : State) (w : Word) (rest : List Event), HostNext s (.regWrite 0x0C 32 w) rest → s.latch = none →
    ∃ t, step s = .next t ∧
      t = { s with
        schedule := rest
        regs := { s.regs with cmd := w, done := false, err := .ok }
        latch := some w
        disturbed := false } ∧
      t.regValue .status = (if s.regs.ovr then 0x5#32 else 0x1#32) ∧ t.irq = false

/-- Tier 1. A write to `CMD` while a command is pending is dropped and sets `OVR`, and nothing else changes
(60_exceptions.md R269). -/
def Obligations.CmdWriteWhileBusyIsDropped : Prop :=
  ∀ (s : State) (w : Word) (rest : List Event), HostNext s (.regWrite 0x0C 32 w) rest → s.latch ≠ none →
    step s = .next { s with schedule := rest, regs := { s.regs with ovr := true } }

/-- Tier 2. While a command is pending, a host write to any register but `CTRL`, `STATUS` and `CMD` is ignored
(60_exceptions.md R270; 10_state.md R32). -/
def Obligations.OtherWritesWhileBusyAreIgnored : Prop :=
  ∀ (s : State) (off : Nat) (v : Word) (rest : List Event), HostNext s (.regWrite off 32 v) rest → s.latch ≠ none →
    off % 4 = 0 → off < 0x100 → off ≠ 0x04 → off ≠ 0x08 → off ≠ 0x0C → step s = .next { s with schedule := rest }

/-- Tier 2. With no command pending, a host write to a register other than `CTRL`, `STATUS` and `CMD` stores the
implemented bits, and is ignored by a read-only register; every other register, and all else, is unchanged. A write at an
offset that holds no register, 0x50..0xFC, is ignored (10_state.md R32). -/
def Obligations.RegisterWriteStoresImplementedBits : Prop :=
  (∀ (s : State) (r : Reg) (v : Word) (rest : List Event), HostNext s (.regWrite r.offset 32 v) rest → s.latch = none →
    r ≠ .ctrl → r ≠ .status → r ≠ .cmd →
    ∃ t, step s = .next t ∧
      (∀ r', t.regValue r' =
        if r' = r then (match writableBits r with | some bits => v &&& bits | none => s.regValue r)
        else s.regValue r') ∧
      t = { s with schedule := rest, regs := t.regs }) ∧
  (∀ (s : State) (off : Nat) (v : Word) (rest : List Event), HostNext s (.regWrite off 32 v) rest → s.latch = none →
    off % 4 = 0 → 0x50 ≤ off → off < 0x100 → step s = .next { s with schedule := rest })

/-- Tier 2. A host read of an aligned word returns the register's value, and 0 at the offsets that hold none; it
changes nothing in the block (20_memory.md R92; 10_state.md R32, R33). That the value joins `reads` is the model's
choice (notes/assumptions/4.md). -/
def Obligations.RegisterReadHasNoSideEffect : Prop :=
  ∀ (s : State) (off : Nat) (rest : List Event), HostNext s (.regRead off 32) rest → off % 4 = 0 → off < 0x100 →
    ∃ v, step s = .next { s with schedule := rest, reads := v :: s.reads } ∧
      (∀ r : Reg, r.offset = off → v = s.regValue r) ∧ (0x50 ≤ off → v = 0#32) ∧ (off = 0 → v = 0x4146534B#32)

/-- Tier 2. A host write of `v` to `STATUS`, at any time, clears `DONE` if `v[1]` and `OVR` if `v[2]`, and changes
nothing else (10_state.md R35); clearing `DONE` lowers `irq` (60_exceptions.md R268). -/
def Obligations.StatusWriteClearsOnes : Prop :=
  ∀ (s : State) (v : Word) (rest : List Event), HostNext s (.regWrite 0x08 32 v) rest →
    ∃ t, step s = .next t ∧ t.regValue .status = s.regValue .status &&& ~~~(v &&& 0x6#32) ∧
      t = { s with schedule := rest, regs := { s.regs with done := t.regs.done, ovr := t.regs.ovr } } ∧
      (v.getLsbD 1 = true → t.irq = false)

/-- Tier 1. A host write to `CTRL` without `SRST`, at any time, sets `IRQ_EN` to bit 0 and changes nothing else, and
`irq` is then `DONE & IRQ_EN` (10_state.md R34; 60_exceptions.md R267). -/
def Obligations.CtrlWriteSetsInterruptEnable : Prop :=
  ∀ (s : State) (v : Word) (rest : List Event), HostNext s (.regWrite 0x04 32 v) rest → v.getLsbD 1 = false →
    ∃ t, step s = .next t ∧ t = { s with schedule := rest, regs := { s.regs with irqEn := v.getLsbD 0 } } ∧
      t.regValue .ctrl = v &&& 1#32 ∧ t.irq = (s.regs.done && v.getLsbD 0)

/-- Tier 2. A soft reset, at any time, gives every register its reset value, empties the latch and lowers `irq`; of the
memories, only the bytes that the aborted command would have written on `OK` change, and they become unwritten, in every
build (70_reset_and_hazards.md R291). The range of a command that reads an unwritten byte is the model's choice
(notes/assumptions/8.md). -/
def Obligations.SoftResetForgetsTheAbortedOutput : Prop :=
  (∀ (s : State) (v : Word) (rest : List Event), HostNext s (.regWrite 0x04 32 v) rest → v.getLsbD 1 = true →
    ∃ t, step s = .next t ∧ (∀ r, t.regValue r = resetValue r) ∧ t.latch = none ∧ t.irq = false ∧ t.mark = s.mark ∧
      t.schedule = rest ∧ t.reads = s.reads ∧
      (s.latch = none → t.oct = s.oct ∧ t.smp = s.smp) ∧
      (∀ w e, s.latch = some w → decode w = .error e → t.oct = s.oct ∧ t.smp = s.smp) ∧
      (∀ w i u, s.latch = some w → decode w = .ok i → s.disturbed = false → exec i s = .next u →
        ∀ sp x, (t.mem sp).read x =
          if u.regs.err = .ok ∧ outputSpace i = some sp ∧ s.regs.dstAddr.toNat ≤ x ∧
            x < s.regs.dstAddr.toNat + storedCount ref i s then none else (s.mem sp).read x)) ∧
  (∀ (c : Config) (s : State) (v w : Word) (i : Instr) (rest : List Event), HostNext s (.regWrite 0x04 32 v) rest →
    v.getLsbD 1 = true → s.latch = some w → decode w = .ok i → s.disturbed = false →
    ∃ t, nextStep c s = .next t ∧ ∀ sp x, (t.mem sp).read x =
      if (perform c i s).regs.err = .ok ∧ outputSpace i = some sp ∧ s.regs.dstAddr.toNat ≤ x ∧
        x < s.regs.dstAddr.toNat + storedCount c i s then none else (s.mem sp).read x)

/-- Tier 1. A power-on reset gives every register its reset value, empties the latch, lowers `irq` and leaves every byte
of both memories unwritten (70_reset_and_hazards.md R290). That it keeps the mark follows from 10_state.md R61, "No step
clears it", and is the model's choice (notes/assumptions/13.md). -/
def Obligations.PowerOnResetClearsTheBlock : Prop :=
  ∀ (s : State) (rest : List Event), s.schedule = .powerOn :: rest →
    ∃ t, step s = .next t ∧ (∀ r, t.regValue r = resetValue r) ∧ t.latch = none ∧ t.irq = false ∧
      (∀ sp x, (t.mem sp).read x = none) ∧ t.mark = s.mark ∧ t.schedule = rest

/-- Tier 2. With no command pending, a host write of a byte sets it and marks it written, and leaves every other byte
of both memories; a host read returns the byte if it is written, and otherwise a draw, whatever it is, and leaves the
memories (20_memory.md R85, R95). That reads are logged and draws counted is the model's choice
(notes/assumptions/3.md, 4.md). -/
def Obligations.HostMemoryAccessesWhileIdle : Prop :=
  (∀ (s : State) (sp : Space) (a : Nat) (v : Byte) (rest : List Event), HostNext s (.memWrite sp a v) rest →
    s.latch = none → a < bytesIn sp →
    ∃ t, step s = .next t ∧ (t.mem sp).read a = some v ∧
      (∀ sp' x, sp' ≠ sp ∨ x ≠ a → (t.mem sp').read x = (s.mem sp').read x) ∧
      t = { s with schedule := rest, oct := t.oct, smp := t.smp }) ∧
  (∀ (s : State) (sp : Space) (a : Nat) (rest : List Event), HostNext s (.memRead sp a) rest →
    s.latch = none → a < bytesIn sp →
    (∀ v, (s.mem sp).read a = some v →
      step s = .next { s with schedule := rest, reads := v.setWidth 32 :: s.reads }) ∧
    ((s.mem sp).read a = none → ∃ v : Byte,
      step s = .next { s with schedule := rest, reads := v.setWidth 32 :: s.reads, draws := s.draws + 1 }))

/-! ### Rules over all commands -/

/-- Tier 2. A command whose input range passes the end of its memory ends with `RANGE_ERROR` and writes nothing but
`STATUS`, whatever else is wrong with it (60_exceptions.md R262, R264; 20_memory.md R89). -/
def Obligations.InputOutOfRangeIsRangeError : Prop :=
  ∀ (i : Instr) (s : State) (sp : Space) (a n : Nat), i.wf = true → inputRange i s.regs = some (sp, a, n) →
    bytesIn sp < a + n → exec i s = .next (ended s .rangeError s.regs)

/-- Tier 2. A command that ends with an error other than `INVALID_CHECKSUM` writes nothing but `STATUS`: no byte, no
result register, no `DM_*` register (60_exceptions.md R263, R271). The mark and the draws are the model's own. That a
command which reads an unwritten byte runs on draws is the model's choice (notes/assumptions/6.md). -/
def Obligations.FailingCommandWritesOnlyStatus : Prop :=
  ∀ (i : Instr) (s t : State), exec i s = .next t → t.regs.err ≠ .ok → t.regs.err ≠ .invalidChecksum →
    t = { ended s t.regs.err s.regs with mark := t.mark, draws := t.draws }

/-- Tier 2. A legal command ends with `OK` or with one of the errors that the table of 60_exceptions.md R262 gives it.
That a command which reads an unwritten byte runs on draws is the model's choice (notes/assumptions/6.md). -/
def Obligations.ErrorsAreThoseOfTheTable : Prop :=
  ∀ (i : Instr) (s t : State), i.wf = true → exec i s = .next t → t.regs.err = .ok ∨ t.regs.err ∈ allowedErrors i

/-- Tier 2. A command reads no register but those that 30_encoding.md R116 lists for it: two states that agree on them,
on the memories and on the free values give the same code, the same memories and the same results. That a command which
reads an unwritten byte runs on draws is the model's choice (notes/assumptions/6.md). -/
def Obligations.CommandsReadOnlyTheirOperands : Prop :=
  ∀ (i : Instr) (s s' t : State), s'.oct = s.oct → s'.smp = s.smp → s'.draws = s.draws →
    AgreeOnOperands i s.regs s'.regs → exec i s = .next t →
    ∃ t', exec i s' = .next t' ∧ t'.regs.err = t.regs.err ∧ t'.oct = t.oct ∧ t'.smp = t.smp ∧ t'.draws = t.draws ∧
      (t.regs.err = .ok ∨ t.regs.err = .invalidChecksum → SameResults i t.regs t'.regs)

/-- Tier 2. The frame of the commands that store nothing: every byte of both memories reads as before, and no register
changes but `STATUS` and the command's own results (30_encoding.md R116; 20_memory.md R90). -/
def Obligations.RegisterCommandsFrame : Prop :=
  ∀ (i : Instr) (s t : State), outputSpace i = none → exec i s = .next t →
    (∀ sp x, (t.mem sp).read x = (s.mem sp).read x) ∧ t.schedule = s.schedule ∧ t.reads = s.reads ∧
    (match i with
      | .decodeFrame => t.regs = { s.regs with
          done := t.regs.done, err := t.regs.err, callLo := t.regs.callLo, callHi := t.regs.callHi
          frameCfg := t.regs.frameCfg, ctrlPid := t.regs.ctrlPid, crc := t.regs.crc, payloadOff := t.regs.payloadOff
          payloadLen := t.regs.payloadLen, resultLen := t.regs.resultLen, resultAux := t.regs.resultAux }
      | .demodStep => t.regs = { s.regs with
          done := t.regs.done, err := t.regs.err, dmState := t.regs.dmState, dmBitidx := t.regs.dmBitidx
          dmStart := t.regs.dmStart, dmEvent := t.regs.dmEvent, resultAux := t.regs.resultAux }
      | .demodReset => t.regs = { s.regs with
          done := t.regs.done, err := t.regs.err, dmState := t.regs.dmState, dmBitidx := t.regs.dmBitidx
          dmStart := t.regs.dmStart, dmEvent := t.regs.dmEvent }
      | _ => t.regs = { s.regs with done := t.regs.done, err := t.regs.err, resultAux := t.regs.resultAux })

/-- Tier 2. The frame of the storing commands: on `OK` every byte outside the stored ones reads as before, and after an
error every byte does; the other memory never changes; no register changes but `STATUS`, `RESULT_LEN` and `RESULT_AUX`
(30_encoding.md R116; 20_memory.md R90). That a command which reads an unwritten byte runs on draws is the model's
choice (notes/assumptions/6.md). -/
def Obligations.StoringCommandsFrame : Prop :=
  ∀ (i : Instr) (s t : State) (sp : Space), outputSpace i = some sp → exec i s = .next t →
    (t.regs.err = .ok → SameOutside (s.mem sp) (t.mem sp) s.regs.dstAddr.toNat (storedCount ref i s)) ∧
    (t.regs.err ≠ .ok → ∀ x, (t.mem sp).read x = (s.mem sp).read x) ∧
    (∀ sp', sp' ≠ sp → ∀ x, (t.mem sp').read x = (s.mem sp').read x) ∧
    t.schedule = s.schedule ∧ t.reads = s.reads ∧
    t.regs = { s.regs with
      done := t.regs.done, err := t.regs.err, resultLen := t.regs.resultLen, resultAux := t.regs.resultAux }

/-! ### The frame codec -/

/-- Tier 2. `ENCODE_FRAME` builds the frame of 45_frame_codec.md R220 to R224 and R229 at `DST_ADDR`, for a payload of
any bytes and any length, also none. -/
def Obligations.EncodeFrameBuildsTheFrame : Prop :=
  ∀ (s : State) (p : List Byte), InputAt s .oct p → callLength s.regs ≤ 6 →
    s.regs.dstAddr.toNat + (18 + p.length) ≤ 4096 →
    (p = [] ∨ s.regs.dstAddr.toNat + 18 + p.length ≤ s.regs.srcAddr.toNat ∨
      s.regs.srcAddr.toNat + p.length ≤ s.regs.dstAddr.toNat) →
    ∃ m : Memory,
      Holds m s.regs.dstAddr.toNat (encodedBody s.regs p ++
        [(crc16 (encodedBody s.regs p)).extractLsb' 0 8, (crc16 (encodedBody s.regs p)).extractLsb' 8 8]) ∧
      SameOutside s.oct m s.regs.dstAddr.toNat (18 + p.length) ∧
      exec .encodeFrame s = .next { ended s .ok { s.regs with
        resultLen := BitVec.ofNat 32 (18 + p.length)
        resultAux := 0#16 ++ crc16 (encodedBody s.regs p) } with oct := m }

/-- Tier 2. `ENCODE_FRAME` makes the four checks of 45_frame_codec.md R226 in their order, for every content of the
memory. That a command which reads an unwritten byte runs on draws is the model's choice (notes/assumptions/6.md). -/
def Obligations.EncodeFrameChecksInOrder : Prop :=
  ∀ s : State, ∃ t, exec .encodeFrame s = .next t ∧
    t.regs.err =
      (let a := s.regs.srcAddr.toNat
       let n := s.regs.srcLen.toNat
       let d := s.regs.dstAddr.toNat
       if 4096 < a + n then .rangeError
       else if 6 < callLength s.regs then .formatError
       else if 4096 < d + (18 + n) then .rangeError
       else if 0 < n ∧ a < d + 18 + n ∧ d < a + n then .rangeError
       else .ok)

/-- Tier 2. `DECODE_FRAME` of a frame that passes the format checks writes every result register as 45_frame_codec.md
R231 to R238 say, and ends with `OK` or, on a CRC mismatch, with `INVALID_CHECKSUM`. -/
def Obligations.DecodeFrameReadsTheFields : Prop :=
  ∀ (s : State) (f : List Byte) (t m : Nat), InputAt s .oct f → IsTerminator f t → t + 5 ≤ f.length → IsTrimmed f m →
    let F := fun i => f.getD i 0#8
    let rx : BitVec 16 := F (f.length - 1) ++ F (f.length - 2)
    let computed := crc16 (f.take (f.length - 2))
    exec .decodeFrame s = .next (ended s (if computed = rx then .ok else .invalidChecksum) { s.regs with
      callLo     := (F 10 >>> 1) ++ (F 9 >>> 1) ++ (F 8 >>> 1) ++ (F 7 >>> 1)
      callHi     := 0#16 ++ (F 12 >>> 1) ++ (F 11 >>> 1)
      frameCfg   := 0#20 ++ BitVec.ofNat 4 m ++ 0#4 ++ (F 13).extractLsb' 1 4
      ctrlPid    := 0#16 ++ F (t + 2) ++ F (t + 1)
      crc        := rx ++ computed
      payloadOff := BitVec.ofNat 32 (s.regs.srcAddr.toNat + t + 3)
      payloadLen := BitVec.ofNat 32 (f.length - t - 5)
      resultLen  := BitVec.ofNat 32 (f.length - t - 5)
      resultAux  := BitVec.ofNat 32 (t + 1) })

/-- Tier 2. `DECODE_FRAME` ends with `FORMAT_ERROR`, nothing but `STATUS` written, on each of the three causes of
45_frame_codec.md R230. -/
def Obligations.DecodeFrameRejectsBadFormats : Prop :=
  ∀ (s : State) (f : List Byte), InputAt s .oct f →
    (f.length < 14 ∨ (∀ i, 13 ≤ i → i < f.length → (f.getD i 0#8).getLsbD 0 = false) ∨
      (∃ t, IsTerminator f t ∧ f.length < t + 5)) →
    exec .decodeFrame s = .next (ended s .formatError s.regs)

/-- Tier 3. The frame round trip of 45_frame_codec.md R240: `DECODE_FRAME` of an `ENCODE_FRAME` output gives the
callsign, the SSID and the payload back. -/
def Obligations.FrameRoundTrip : Prop :=
  ∀ (s : State) (p : List Byte), InputAt s .oct p → callLength s.regs ≤ 6 →
    s.regs.dstAddr.toNat + (18 + p.length) ≤ 4096 →
    (p = [] ∨ s.regs.dstAddr.toNat + 18 + p.length ≤ s.regs.srcAddr.toNat ∨
      s.regs.srcAddr.toNat + p.length ≤ s.regs.dstAddr.toNat) →
    (∀ k < callLength s.regs, (char s.regs k).toNat < 0x80) →
    (0 < callLength s.regs → char s.regs (callLength s.regs - 1) ≠ 0x20#8) →
    (s.regs.frameCfg.extractLsb' 0 8).toNat < 16 →
    ∃ t u : State, exec .encodeFrame s = .next t ∧
      exec .decodeFrame { t with regs := { t.regs with srcAddr := s.regs.dstAddr, srcLen := t.regs.resultLen } } =
        .next u ∧
      u.regs.err = .ok ∧ callLength u.regs = callLength s.regs ∧
      (∀ k < callLength s.regs, char u.regs k = char s.regs k) ∧
      u.regs.frameCfg.extractLsb' 0 8 = s.regs.frameCfg.extractLsb' 0 8 ∧
      u.regs.payloadLen.toNat = p.length ∧ Holds u.oct u.regs.payloadOff.toNat p

/-- Tier 1. `CRC16` of a readable range writes `RESULT_AUX` and ends with `OK` (45_frame_codec.md R239). -/
def Obligations.CrcCommandGivesTheCrc : Prop :=
  ∀ (s : State) (bs : List Byte), InputAt s .oct bs →
    exec .crc16 s = .next (ended s .ok { s.regs with resultAux := 0#16 ++ crc16 bs })

/-- Tier 2. The byte-wise CRC is the bit-serial CRC with the reflected polynomial 0x8408, seed 0xFFFF, complemented
(45_frame_codec.md R225). -/
def Obligations.CrcIsTheReflectedSerialCrc : Prop :=
  ∀ bs : List Byte, crc16 bs = ~~~(bs.foldl serialUpdate 0xFFFF#16)

/-- Tier 2. The CRC of any octets with their trailer, low byte first, is the constant 0x0F47 (45_frame_codec.md
R239). -/
def Obligations.CrcOfAFrameIsTheResidue : Prop :=
  ∀ bs : List Byte, crc16 (bs ++ [(crc16 bs).extractLsb' 0 8, (crc16 bs).extractLsb' 8 8]) = 0x0F47#16

/-! ### The modulator -/

/-- Tier 2. `MODULATE` sends eight samples for each line bit, the pattern of the bit's tone, from `DST_ADDR` on, the
tone starting LOW and toggling at each 0 (41_modulator.md R133, R134, R139, R142, R143). If the samples pass the end of
`SMP` it ends with `RANGE_ERROR` and writes nothing but `STATUS` (R142). -/
def Obligations.ModulateSendsThePatterns : Prop :=
  ∀ (s : State) (nb ne : Byte) (octets : List Byte), InputAt s .oct octets →
    let bits := lineBits ref octets nb.toNat ne.toNat
    (s.regs.dstAddr.toNat + 8 * bits.length ≤ 65536 →
      ∃ m : Memory,
        (∀ j < bits.length, Holds m (s.regs.dstAddr.toNat + 8 * j) (bitPattern (toneAfter (bits.take (j + 1))))) ∧
        SameOutside s.smp m s.regs.dstAddr.toNat (8 * bits.length) ∧
        exec (.modulate nb ne) s = .next { ended s .ok { s.regs with
          resultLen := BitVec.ofNat 32 (8 * bits.length)
          resultAux := BitVec.ofNat 32 bits.length } with smp := m }) ∧
    (65536 < s.regs.dstAddr.toNat + 8 * bits.length →
      exec (.modulate nb ne) s = .next (ended s .rangeError s.regs))

/-- Tier 2. The line bits of the reference build: an idle byte's eight 0 bits, a flag's bits for each begin marker, the
stuffed data, a flag's bits for each end marker (41_modulator.md R130, R131); their number is that of R140. -/
def Obligations.LineBitsAreMarkersAroundStuffedData : Prop :=
  ∀ (octets : List Byte) (nb ne : Nat), ∃ stuffed : List Bool,
    let flag := [false, true, true, true, true, true, true, false]
    lineBits ref octets nb ne =
      List.replicate 8 false ++ (List.replicate nb flag).flatten ++ stuffed ++ (List.replicate ne flag).flatten ∧
    destuff 0 stuffed = some (octets.flatMap (fun b => (List.range 8).map (fun k => b.getLsbD k))) ∧
    8 * octets.length ≤ stuffed.length ∧ stuffed.length ≤ 8 * octets.length + 8 * octets.length / 5 ∧
    (lineBits ref octets nb ne).length = 8 * (1 + nb + ne) + stuffed.length

/-- Tier 2. At any bit position, a flag's pattern occurs in the line bits only as a marker (41_modulator.md R143). -/
def Obligations.FlagsOccurOnlyAsMarkers : Prop :=
  ∀ (octets : List Byte) (nb ne p : Nat),
    ((lineBits ref octets nb ne).drop p).take 8 = [false, true, true, true, true, true, true, false] →
    (∃ k < nb, p = 8 + 8 * k) ∨
    (∃ k < ne, p + 8 * (ne - k) = (lineBits ref octets nb ne).length)

/-- Tier 2. In every legal configuration, every sample of a modulation lies in `128 - AMP .. 128 + AMP`, inside 1..255,
and every phase indexes the waveform ROM inside its table; in the reference configuration the samples lie in 32..224
(41_modulator.md R138). -/
def Obligations.SamplesStayInsideTheAmplitude : Prop :=
  (∀ (c : Config) (tone : Tone) (bits : List Bool), c.legal = true →
    (synthesize c tone 0 bits).length = 8 * bits.length ∧
    (∀ b ∈ synthesize c tone 0 bits, 128 - c.amp ≤ b.toNat ∧ b.toNat ≤ 128 + c.amp ∧ 1 ≤ b.toNat ∧ b.toNat ≤ 255) ∧
    (∀ phase < 2 ^ c.phaseBits, phase / 2 ^ (c.phaseBits - c.tableBits) < c.wave.length)) ∧
  (∀ (tone : Tone) (bits : List Bool), ∀ b ∈ synthesize ref tone 0 bits, 32 ≤ b.toNat ∧ b.toNat ≤ 224)

/-! ### The discriminator and the demodulator -/

/-- Tier 2. `DISCRIMINATE` writes the score of the window at `SRC_ADDR`, and nothing else but `STATUS`
(42_discriminator.md R162, R163, R166). -/
def Obligations.DiscriminateWritesTheScore : Prop :=
  ∀ (s : State) (w : List Byte), WindowAt s w →
    exec .discriminate s = .next (ended s .ok { s.regs with resultAux := BitVec.ofInt 32 (score w) })

/-- Tier 2. The ranges of 42_discriminator.md R164: the tables' absolute sums, the centred samples, the correlation
sums, the powers, and a score of at most 52,428,800 in magnitude, so that `RESULT_AUX` holds it exactly; and the centring
does not change a correlation sum (R161). -/
def Obligations.ScoreIsExact : Prop :=
  ((ref.cl.map Int.natAbs).sum = 40 ∧ (ref.sl.map Int.natAbs).sum = 40 ∧ (ref.ch.map Int.natAbs).sum = 32 ∧
    (ref.sh.map Int.natAbs).sum = 32) ∧
  (∀ b : Byte, (centred b).natAbs ≤ 128) ∧
  ∀ w : List Byte, w.length = 8 →
    (∀ table ∈ [ref.cl, ref.sl], -5120 ≤ correlate table w ∧ correlate table w ≤ 5120) ∧
    (∀ table ∈ [ref.ch, ref.sh], -4096 ≤ correlate table w ∧ correlate table w ≤ 4096) ∧
    (0 ≤ powerLow ref w ∧ powerLow ref w ≤ 52428800) ∧ (0 ≤ powerHigh ref w ∧ powerHigh ref w ≤ 33554432) ∧
    (-52428800 ≤ disc ref w ∧ disc ref w ≤ 52428800) ∧ (scoreWord (disc ref w)).toInt = disc ref w ∧
    ∀ table ∈ [ref.cl, ref.sl, ref.ch, ref.sh],
      correlate table w = (List.zipWith (fun (b : Byte) (k : Int) => (b.toNat : Int) * k) w table).sum

/-- Tier 2. `DEMOD_STEP` when the flag test fires (43_demodulator.md R180): `SREG`, `RUN` and `ESC` are cleared, the
frame is entered, `DM_START` takes the bit index, the event is `FLAG`. -/
def Obligations.DemodStepOnAFlag : Prop :=
  ∀ (s : State) (w : List Byte), WindowAt s w → FlagFires s.regs w →
    exec .demodStep s = .next (ended s .ok { s.regs with
      dmState   := dmStateOf 0#8 0#4 0#4 true (toneBitOf w)
      dmBitidx  := s.regs.dmBitidx + 1#32
      dmStart   := s.regs.dmBitidx
      dmEvent   := dmEventOf 1#2 0#8 (decodedBit s.regs w) (toneBitOf w)
      resultAux := BitVec.ofInt 32 (score w) })

/-- Tier 2. `DEMOD_STEP` on a stuffed bit (43_demodulator.md R181): the shift is undone, `DM_START` advances, `RUN` is
cleared, the escape window of six steps opens, the event is `SKIP`. -/
def Obligations.DemodStepOnAStuffedBit : Prop :=
  ∀ (s : State) (w : List Byte), WindowAt s w → ¬ FlagFires s.regs w → inFrameOf s.regs = true →
    decodedBit s.regs w = false → runOf s.regs = 5#4 →
    exec .demodStep s = .next (ended s .ok { s.regs with
      dmState   := dmStateOf (shifted s.regs w <<< 1) 6#4 0#4 true (toneBitOf w)
      dmBitidx  := s.regs.dmBitidx + 1#32
      dmStart   := s.regs.dmStart + 1#32
      dmEvent   := dmEventOf 2#2 0#8 false (toneBitOf w)
      resultAux := BitVec.ofInt 32 (score w) })

/-- Tier 2. `DEMOD_STEP` on a data bit in a frame (43_demodulator.md R182, R183): the run is tracked, and every eighth
bit of the frame emits the byte and clears `SREG`. -/
def Obligations.DemodStepOnADataBit : Prop :=
  ∀ (s : State) (w : List Byte), WindowAt s w → ¬ FlagFires s.regs w → inFrameOf s.regs = true →
    ¬ (decodedBit s.regs w = false ∧ runOf s.regs = 5#4) →
    let bit := decodedBit s.regs w
    let whole := decide ((s.regs.dmBitidx - s.regs.dmStart).toNat % 8 = 0)
    exec .demodStep s = .next (ended s .ok { s.regs with
      dmState   := dmStateOf (if whole then 0#8 else shifted s.regs w) (countedDown (escOf s.regs))
        (tracked (runOf s.regs) bit) true (toneBitOf w)
      dmBitidx  := s.regs.dmBitidx + 1#32
      dmEvent   := dmEventOf (if whole then 3#2 else 0#2) (if whole then shifted s.regs w else 0#8) bit (toneBitOf w)
      resultAux := BitVec.ofInt 32 (score w) })

/-- Tier 2. `DEMOD_STEP` outside a frame, when the flag test does not fire: the bit is shifted in, the escape counter
counts down, nothing is emitted (43_demodulator.md R185). -/
def Obligations.DemodStepOutsideAFrame : Prop :=
  ∀ (s : State) (w : List Byte), WindowAt s w → ¬ FlagFires s.regs w → inFrameOf s.regs = false →
    exec .demodStep s = .next (ended s .ok { s.regs with
      dmState   := dmStateOf (shifted s.regs w) (countedDown (escOf s.regs)) (runOf s.regs) false (toneBitOf w)
      dmBitidx  := s.regs.dmBitidx + 1#32
      dmEvent   := dmEventOf 0#2 0#8 (decodedBit s.regs w) (toneBitOf w)
      resultAux := BitVec.ofInt 32 (score w) })

/-- Tier 1. `DEMOD_RESET`, word 0x00000007, clears the `DM_*` registers and ends with `OK`, in every state
(43_demodulator.md R187). -/
def Obligations.DemodResetClearsTheDemodulator : Prop :=
  decode 0x00000007#32 = .ok .demodReset ∧
  ∀ s : State, exec .demodReset s = .next (ended s .ok { s.regs with
    dmState := 0#32, dmBitidx := 0#32, dmStart := 0#32, dmEvent := 0#32 })

/-! ### The phase search -/

/-- Tier 2. `DEMOD_TRIAL o` writes the frame its trial finds, or ends with `NOT_FOUND`, or with `RANGE_ERROR` if the
frame does not fit (44_phase_search.md R206). -/
def Obligations.DemodTrialDeliversItsFrame : Prop :=
  ∀ (s : State) (o : Byte) (buf : List Byte), o.toNat < 8 → InputAt s .smp buf →
    (∀ acc, trial ref buf o.toNat = some acc → s.regs.dstAddr.toNat + acc.length ≤ 4096 →
      ∃ m : Memory, Holds m s.regs.dstAddr.toNat acc ∧ SameOutside s.oct m s.regs.dstAddr.toNat acc.length ∧
        exec (.demodTrial o) s = .next { ended s .ok { s.regs with
          resultLen := BitVec.ofNat 32 acc.length, resultAux := BitVec.ofNat 32 o.toNat } with oct := m }) ∧
    (∀ acc, trial ref buf o.toNat = some acc → 4096 < s.regs.dstAddr.toNat + acc.length →
      exec (.demodTrial o) s = .next (ended s .rangeError s.regs)) ∧
    (trial ref buf o.toNat = none → exec (.demodTrial o) s = .next (ended s .notFound s.regs))

/-- Tier 2. `DEMODULATE` writes the frame of the least offset whose trial finds one, ends with `RANGE_ERROR` if that
frame does not fit, without trying a higher offset, and with `NOT_FOUND` if no trial finds one (44_phase_search.md R205,
R207). -/
def Obligations.DemodulateTakesTheLowestOffset : Prop :=
  ∀ (s : State) (buf : List Byte), InputAt s .smp buf →
    (∀ (o : Nat) (acc : List Byte), o < 8 → trial ref buf o = some acc → (∀ o' < o, trial ref buf o' = none) →
      (s.regs.dstAddr.toNat + acc.length ≤ 4096 →
        ∃ m : Memory, Holds m s.regs.dstAddr.toNat acc ∧ SameOutside s.oct m s.regs.dstAddr.toNat acc.length ∧
          exec .demodulate s = .next { ended s .ok { s.regs with
            resultLen := BitVec.ofNat 32 acc.length, resultAux := BitVec.ofNat 32 o } with oct := m }) ∧
      (4096 < s.regs.dstAddr.toNat + acc.length → exec .demodulate s = .next (ended s .rangeError s.regs))) ∧
    ((∀ o < 8, trial ref buf o = none) → exec .demodulate s = .next (ended s .notFound s.regs))

/-- Tier 2. A trial returns the bytes between two consecutive flags, at least 16 of them, the first such span; and it
returns one whenever there is one (44_phase_search.md R201, R203). -/
def Obligations.TrialReturnsTheFirstLongSpan : Prop :=
  ∀ (c : Config) (buf : List Byte) (o : Nat),
    let evs := eventsOf c (demodInit c) (windows (buf.drop o))
    (∀ acc, trial c buf o = some acc →
      ∃ before span rest, evs = before ++ .flag :: span ++ .flag :: rest ∧ .flag ∉ span ∧ bytesOf span = acc ∧
        16 ≤ acc.length ∧
        (∀ b' s' r', before ++ [.flag] = b' ++ .flag :: s' ++ .flag :: r' → .flag ∉ s' → (bytesOf s').length < 16)) ∧
    (trial c buf o = none →
      ∀ b' s' r', evs = b' ++ .flag :: s' ++ .flag :: r' → .flag ∉ s' → (bytesOf s').length < 16)

/-- Tier 2. A frame that a trial finds has at least 16 bytes, and at most one for each 64 samples from the offset on, so
at most 1024 from a buffer that fits `SMP` (44_phase_search.md R204). -/
def Obligations.FoundFrameLengthBounds : Prop :=
  ∀ (c : Config) (buf : List Byte) (o : Nat) (acc : List Byte), trial c buf o = some acc →
    16 ≤ acc.length ∧ acc.length ≤ (buf.length - o) / 8 / 8 ∧ (buf.length - o) / 8 / 8 ≤ buf.length / 64 ∧
    (buf.length ≤ 65536 → acc.length ≤ 1024)

/-- Tier 2. A trial reads complete windows only: samples after the last complete window change nothing
(44_phase_search.md R200). -/
def Obligations.TrialIgnoresAPartialWindow : Prop :=
  ∀ (c : Config) (buf tail : List Byte) (o : Nat), o ≤ buf.length → (buf.length - o) % 8 + tail.length < 8 →
    trial c (buf ++ tail) o = trial c buf o

/-- Tier 3. The modem round trip of 44_phase_search.md R208: for every octet frame of at least 16 octets and marker
counts of at least 1, `DEMODULATE` on the output of `MODULATE` gives the frame back, at offset 0. -/
def Obligations.ModemRoundTrip : Prop :=
  ∀ (s : State) (nb ne : Byte) (f : List Byte) (d : Word), InputAt s .oct f → 16 ≤ f.length →
    1 ≤ nb.toNat → 1 ≤ ne.toNat →
    s.regs.dstAddr.toNat + 8 * (lineBits ref f nb.toNat ne.toNat).length ≤ 65536 → d.toNat + f.length ≤ 4096 →
    ∃ t u : State, exec (.modulate nb ne) s = .next t ∧
      exec .demodulate { t with
        regs := { t.regs with srcAddr := s.regs.dstAddr, srcLen := t.regs.resultLen, dstAddr := d } } = .next u ∧
      u.regs.err = .ok ∧ u.regs.resultLen.toNat = f.length ∧ u.regs.resultAux = 0#32 ∧ Holds u.oct d.toNat f

/-- Tier 3. The first fact of 44_phase_search.md R209: when 1 to 7 samples are cut off the start of a modulation with
marker counts of at least 1, the trial at the aligned offset recovers the frame. -/
def Obligations.AlignedTrialSurvivesTruncation : Prop :=
  ∀ (f : List Byte) (nb ne k : Nat), 16 ≤ f.length → 1 ≤ nb → 1 ≤ ne → 1 ≤ k → k ≤ 7 →
    trial ref ((synthesize ref .low 0 (lineBits ref f nb ne)).drop k) (8 - k) = some f

/-! ### The platform -/

/-- Tier 2. On a platform whose windows do not overlap, a read or a write at an address inside a window reaches that
window's byte or register, and one at an address outside all three reaches nothing (20_memory.md R81 to R83, R85, R99).
That an access to a memory wider than 8 bits is one of the byte at its address, a write taking the low byte, is the
model's choice (notes/assumptions/10.md). -/
def Obligations.PlatformWindowsReachTheirSpaces : Prop :=
  ∀ (p : Platform) (bits : Nat) (v : Word), p.legal ref = true →
    (∀ off < 0x100, p.read ref (p.regBase + off) bits = some (.regRead off bits) ∧
      p.write ref (p.regBase + off) bits v = some (.regWrite off bits v)) ∧
    (∀ a < 4096, p.read ref (p.octBase + a) bits = some (.memRead .oct a) ∧
      p.write ref (p.octBase + a) bits v = some (.memWrite .oct a (v.extractLsb' 0 8))) ∧
    (∀ a < 65536, p.read ref (p.smpBase + a) bits = some (.memRead .smp a) ∧
      p.write ref (p.smpBase + a) bits v = some (.memWrite .smp a (v.extractLsb' 0 8))) ∧
    (∀ addr, (addr < p.regBase ∨ p.regBase + 0x100 ≤ addr) → (addr < p.octBase ∨ p.octBase + 4096 ≤ addr) →
      (addr < p.smpBase ∨ p.smpBase + 65536 ≤ addr) →
      p.read ref addr bits = none ∧ p.write ref addr bits v = none)

/-! ### Other builds -/

/-- Tier 2. That `exec`, `step` and the reset state are those of the reference build is the model's choice
(notes/assumptions/1.md). In every build (00_scope.md R12) the registers reset to their values, `DM_STATE` to
`zext_32(INIT_TONE)`, also by `DEMOD_RESET` (10_state.md R32; 70_reset_and_hazards.md R290; 43_demodulator.md R187); a
power-on keeps the mark (10_state.md R61; notes/assumptions/13.md); an input range that passes the end of the build's own
memory is a `RANGE_ERROR` (20_memory.md R89); and a host byte write lands inside that memory. That one outside it is no
step of the block is the model's form of R85 (notes/assumptions/10.md). -/
def Obligations.ResetAndSizesFollowTheBuild : Prop :=
  ((∀ (i : Instr) (s : State), exec i s = .next (perform ref i s)) ∧ (∀ s : State, step s = nextStep ref s) ∧
    State.reset = State.resetOf ref) ∧
  ∀ c : Config,
    (∀ r, (State.resetOf c).regValue r = resetValueIn c r) ∧
    (∀ (s : State) (rest : List Event), s.schedule = .powerOn :: rest →
      ∃ t, nextStep c s = .next t ∧ (∀ r, t.regValue r = resetValueIn c r) ∧ t.latch = none ∧ t.irq = false ∧
        (∀ sp x, (t.mem sp).read x = none) ∧ t.mark = s.mark ∧ t.schedule = rest) ∧
    (∀ s : State, perform c .demodReset s = ended s .ok { s.regs with
      dmState := resetValueIn c .dmState, dmBitidx := 0#32, dmStart := 0#32, dmEvent := 0#32 }) ∧
    (∀ (i : Instr) (s : State) (sp : Space) (a n : Nat), i.wf = true → inputRange i s.regs = some (sp, a, n) →
      bytesInBuild c sp < a + n → perform c i s = ended s .rangeError s.regs) ∧
    (∀ (s : State) (sp : Space) (a : Nat) (v : Byte) (rest : List Event), HostNext s (.memWrite sp a v) rest →
      s.latch = none → ∃ t, nextStep c s = .next t ∧ (a < bytesInBuild c sp → (t.mem sp).read a = some v) ∧
        (bytesInBuild c sp ≤ a → t = { s with schedule := rest }))

/-- Tier 2. `ENCODE_FRAME`, `DISCRIMINATE` and `DEMOD_STEP` take a build's own parameters (00_scope.md R12): the frame
has its `DEST_ID`, `DEST_SSID_PRE`, `SRC_SSID_BASE`, `CONTROL_UI` and `PID_NO_L3` (45_frame_codec.md R221 to R224), the
score its coefficient tables (42_discriminator.md R162), a stuffed bit its `ESC_LEN` (43_demodulator.md R181), a run its
`RUN_MAX` (R182). -/
def Obligations.EncoderAndDemodulatorFollowTheBuild : Prop :=
  ∀ c : Config, c.legal = true →
    (∀ (s : State) (p : List Byte), p.length = s.regs.srcLen.toNat → s.regs.srcAddr.toNat + p.length ≤ c.octSize →
      Holds s.oct s.regs.srcAddr.toNat p → callLength s.regs ≤ 6 →
      s.regs.dstAddr.toNat + (18 + p.length) ≤ c.octSize →
      (p = [] ∨ s.regs.dstAddr.toNat + 18 + p.length ≤ s.regs.srcAddr.toNat ∨
        s.regs.srcAddr.toNat + p.length ≤ s.regs.dstAddr.toNat) →
      ∃ m : Memory,
        Holds m s.regs.dstAddr.toNat (encodedBodyIn c s.regs p ++
          [(crc16 (encodedBodyIn c s.regs p)).extractLsb' 0 8, (crc16 (encodedBodyIn c s.regs p)).extractLsb' 8 8]) ∧
        SameOutside s.oct m s.regs.dstAddr.toNat (18 + p.length) ∧
        perform c .encodeFrame s = { ended s .ok { s.regs with
          resultLen := BitVec.ofNat 32 (18 + p.length)
          resultAux := 0#16 ++ crc16 (encodedBodyIn c s.regs p) } with oct := m }) ∧
    (∀ (s : State) (w : List Byte), w.length = 8 → s.regs.srcAddr.toNat + 8 ≤ c.smpSize →
      Holds s.smp s.regs.srcAddr.toNat w →
      perform c .discriminate s = ended s .ok { s.regs with resultAux := BitVec.ofInt 32 (scoreIn c w) } ∧
      (¬ (escOf s.regs = 0#4 ∧ shiftedIn c s.regs w = 0x7E#8) → inFrameOf s.regs = true →
        (bitIn c s.regs w = false → runOf s.regs = 5#4 →
          perform c .demodStep s = ended s .ok { s.regs with
            dmState   := dmStateOf (shiftedIn c s.regs w <<< 1) (BitVec.ofNat 4 c.escLen) 0#4 true
              (decide (0 < scoreIn c w))
            dmBitidx  := s.regs.dmBitidx + 1#32
            dmStart   := s.regs.dmStart + 1#32
            dmEvent   := dmEventOf 2#2 0#8 false (decide (0 < scoreIn c w))
            resultAux := BitVec.ofInt 32 (scoreIn c w) }) ∧
        (bitIn c s.regs w = true →
          runOf (perform c .demodStep s).regs = BitVec.ofNat 4 (min ((runOf s.regs).toNat + 1) c.runMax))))

/-- Tier 2. `MODULATE` takes a build's own parameters (00_scope.md R12): `PRESYNC_IDLE` idle bytes come first
(41_modulator.md R131), and sample `k` is 128 plus the entry of `WAVE` at the phase that the increments of the tones
before it give, from `INIT_TONE` on (R133 to R137). If the samples pass the end of the build's `SMP` it ends with
`RANGE_ERROR` (R142). The value of `RESULT_LEN` for 2^32 samples, which it cannot hold, is free, the model's choice
(notes/assumptions/15.md). -/
def Obligations.ModulatorFollowsTheBuild : Prop :=
  ∀ c : Config, c.legal = true →
    (∀ (octets : List Byte) (nb ne : Nat),
      lineBits c octets nb ne = List.replicate (8 * c.presyncIdle) false ++ (lineBits ref octets nb ne).drop 8) ∧
    (∀ (s : State) (nb ne : Byte) (octets : List Byte), octets.length = s.regs.srcLen.toNat →
      s.regs.srcAddr.toNat + octets.length ≤ c.octSize → Holds s.oct s.regs.srcAddr.toNat octets →
      let bits := lineBits c octets nb.toNat ne.toNat
      (s.regs.dstAddr.toNat + 8 * bits.length ≤ c.smpSize →
        ∃ (m : Memory) (len : Word) (d : Nat),
          (8 * bits.length < 2 ^ 32 → len = BitVec.ofNat 32 (8 * bits.length) ∧ d = s.draws) ∧
          Holds m s.regs.dstAddr.toNat ((List.range (8 * bits.length)).map (sampleIn c bits)) ∧
          SameOutside s.smp m s.regs.dstAddr.toNat (8 * bits.length) ∧
          perform c (.modulate nb ne) s = { ended s .ok { s.regs with
            resultLen := len
            resultAux := BitVec.ofNat 32 bits.length } with smp := m, draws := d }) ∧
      (c.smpSize < s.regs.dstAddr.toNat + 8 * bits.length →
        perform c (.modulate nb ne) s = ended s .rangeError s.regs))
end

