-- ==== Sys2Proof/Laws/Memory.lean ====
section
/-! SUPPORT. The laws of a memory: a read after a write, what a write leaves alone, and that every memory operation keeps
the form `Memory.wf` and stays inside the space. -/

namespace Sys2Proof.Machine

@[simp] theorem Memory.read_nil (a : Nat) : Memory.read [] a = none := rfl

theorem Memory.read_append (m m' : Memory) (a : Nat) :
    Memory.read (m ++ m') a = (Memory.read m a).or (Memory.read m' a) := by
  simp only [Memory.read, List.find?_append]
  cases m.find? (fun x => x.1 == a) <;> rfl

theorem Memory.read_filter (m : Memory) (p : Nat → Bool) (a : Nat) :
    Memory.read (m.filter (fun x => p x.1)) a = if p a then Memory.read m a else none := by
  induction m with
  | nil => simp
  | cons x m ih =>
    by_cases hx : x.1 = a
    · subst hx
      by_cases hp : p x.1
      · simp [Memory.read, hp]
      · simpa [hp] using ih
    · by_cases hp : p x.1
      · have e : ∀ l : Memory, Memory.read (x :: l) a = Memory.read l a := by
          intro l; simp [Memory.read, hx]
        simp only [List.filter_cons, hp, if_true, e, ih]
      · have e : ∀ l : Memory, Memory.read (x :: l) a = Memory.read l a := by
          intro l; simp [Memory.read, hx]
        simp only [List.filter_cons, hp, e]
        simpa using ih

/-- The cells of a byte list, read one by one. -/
theorem read_cellsFrom (vs : List Byte) : ∀ (a x : Nat),
    Memory.read (cellsFrom a vs) x = if a ≤ x then vs[x - a]? else none := by
  induction vs with
  | nil => intro a x; simp [cellsFrom]
  | cons v vs ih =>
    intro a x
    by_cases h : a = x
    · subst h; simp [cellsFrom, Memory.read]
    · have e : Memory.read (cellsFrom a (v :: vs)) x = Memory.read (cellsFrom (a + 1) vs) x := by
        simp [cellsFrom, Memory.read, h]
      rw [e, ih]
      by_cases h1 : a + 1 ≤ x
      · have h2 : x - a = (x - (a + 1)) + 1 := by omega
        have h3 : a ≤ x := by omega
        simp [h1, h2, h3]
      · have h2 : ¬ a ≤ x := by omega
        simp [h1, h2]

/-- A read of a memory after a range was written: the written byte inside the range, the old byte outside it. -/
theorem Memory.read_writeRange (m : Memory) (a : Nat) (vs : List Byte) (x : Nat) :
    (m.writeRange a vs).read x = if a ≤ x ∧ x < a + vs.length then vs[x - a]? else m.read x := by
  have h1 := Memory.read_filter m (fun k => decide (k < a)) x
  have h2 := Memory.read_filter m (fun k => decide (a + vs.length ≤ k)) x
  simp only [decide_eq_true_eq] at h1 h2
  rw [Memory.writeRange, Memory.read_append, Memory.read_append, h1, h2, read_cellsFrom]
  by_cases ha : a ≤ x
  · by_cases hb : x < a + vs.length
    · have : (vs[x - a]?).isSome := by simp; omega
      have hc : ¬ x < a := by omega
      have hd : ¬ a + vs.length ≤ x := by omega
      obtain ⟨v, hv⟩ := Option.isSome_iff_exists.mp this
      simp [ha, hb, hc, hv]
    · have hv : vs[x - a]? = none := by simp; omega
      have hc : ¬ x < a := by omega
      have hd : a + vs.length ≤ x := by omega
      simp [ha, hb, hc, hd, hv]
  · have hc : x < a := by omega
    have hd : ¬ a + vs.length ≤ x := by omega
    simp [ha, hc, hd]

theorem Memory.read_writeRange_inside (m : Memory) (a : Nat) (vs : List Byte) (i : Nat) (h : i < vs.length) :
    (m.writeRange a vs).read (a + i) = some vs[i] := by
  have h1 : a ≤ a + i ∧ a + i < a + vs.length := by omega
  rw [Memory.read_writeRange, if_pos h1, Nat.add_sub_cancel_left, List.getElem?_eq_getElem h]

theorem Memory.read_writeRange_outside (m : Memory) (a : Nat) (vs : List Byte) (x : Nat)
    (h : x < a ∨ a + vs.length ≤ x) : (m.writeRange a vs).read x = m.read x := by
  have h1 : ¬ (a ≤ x ∧ x < a + vs.length) := by omega
  rw [Memory.read_writeRange, if_neg h1]

theorem Memory.read_write (m : Memory) (a x : Nat) (v : Byte) :
    (m.write a v).read x = if x = a then some v else m.read x := by
  rw [Memory.write, Memory.read_writeRange]
  by_cases h : x = a
  · subst h; simp
  · have : ¬ (a ≤ x ∧ x < a + [v].length) := by simp; omega
    rw [if_neg this, if_neg h]

/-- A read of a memory after a range became unwritten. -/
theorem Memory.read_forget (m : Memory) (a n x : Nat) :
    (m.forget a n).read x = if a ≤ x ∧ x < a + n then none else m.read x := by
  have h1 := Memory.read_filter m (fun k => k < a || a + n ≤ k) x
  rw [Memory.forget, h1]
  by_cases h : a ≤ x ∧ x < a + n
  · have : (decide (x < a) || decide (a + n ≤ x)) = false := by simp; omega
    rw [if_neg (by simp [this]), if_pos h]
  · have : (decide (x < a) || decide (a + n ≤ x)) = true := by simp; omega
    rw [if_pos this, if_neg h]

theorem mem_cellsFrom (vs : List Byte) : ∀ (a : Nat) (x : Host.Cell),
    x ∈ cellsFrom a vs → a ≤ x.1 ∧ x.1 < a + vs.length := by
  induction vs with
  | nil => intro a x h; simp [cellsFrom] at h
  | cons v vs ih =>
    intro a x h
    simp only [cellsFrom, List.mem_cons] at h
    rcases h with h | h
    · subst h; simp
    · have := ih (a + 1) x h
      simp only [List.length_cons]; omega

theorem wf_cellsFrom (vs : List Byte) : ∀ a, Memory.wf (cellsFrom a vs) := by
  induction vs with
  | nil => intro a; simp [cellsFrom]
  | cons v vs ih =>
    intro a
    rw [cellsFrom, Memory.wf, List.pairwise_cons]
    refine ⟨fun x hx => ?_, ih (a + 1)⟩
    have := mem_cellsFrom vs (a + 1) x hx
    simp only; omega

/-- A range write keeps the form. -/
theorem Memory.wf_writeRange {m : Memory} (h : m.wf) (a : Nat) (vs : List Byte) : (m.writeRange a vs).wf := by
  rw [Memory.writeRange, Memory.wf, List.pairwise_append, List.pairwise_append]
  refine ⟨⟨h.filter _, wf_cellsFrom vs a, ?_⟩, h.filter _, ?_⟩
  · intro x hx y hy
    have := mem_cellsFrom vs a y hy
    simp only [List.mem_filter, decide_eq_true_eq] at hx
    omega
  · intro x hx y hy
    simp only [List.mem_append, List.mem_filter, decide_eq_true_eq] at hx hy
    rcases hx with hx | hx
    · omega
    · have := mem_cellsFrom vs a x hx; omega

/-- A byte write keeps the form. -/
theorem Memory.wf_write {m : Memory} (h : m.wf) (a : Nat) (v : Byte) : (m.write a v).wf := Memory.wf_writeRange h a [v]

/-- Forgetting a range keeps the form. -/
theorem Memory.wf_forget {m : Memory} (h : m.wf) (a n : Nat) : (m.forget a n).wf := List.Pairwise.filter _ h

/-- A range write inside the space leaves every address inside it. -/
theorem Memory.below_writeRange {m : Memory} {size : Nat} (h : m.below size) (a : Nat) (vs : List Byte)
    (hr : a + vs.length ≤ size) : (m.writeRange a vs).below size := by
  intro x hx
  simp only [Memory.writeRange, List.mem_append, List.mem_filter] at hx
  rcases hx with (hx | hx) | hx
  · exact h x hx.1
  · have := mem_cellsFrom vs a x hx; omega
  · exact h x hx.1

theorem Memory.below_forget {m : Memory} {size : Nat} (h : m.below size) (a n : Nat) : (m.forget a n).below size :=
  fun x hx => h x (List.mem_filter.mp hx).1

/-- Two memories in the form that read alike are equal. -/
theorem Memory.wf_ext {m m' : Memory} (h : m.wf) (h' : m'.wf) (hr : ∀ x, m.read x = m'.read x) : m = m' := by
  induction m generalizing m' with
  | nil =>
    cases m' with
    | nil => rfl
    | cons y m' => have := hr y.1; simp [Memory.read] at this
  | cons x m ih =>
    cases m' with
    | nil => have := hr x.1; simp [Memory.read] at this
    | cons y m' =>
      rw [Memory.wf, List.pairwise_cons] at h h'
      have key : ∀ {l : Memory} {z : Host.Cell} {k : Nat}, (∀ w ∈ l, z.1 < w.1) → k ≤ z.1 → Memory.read l k = none := by
        intro l z k hl hk
        simp only [Memory.read, Option.map_eq_none_iff, List.find?_eq_none, beq_iff_eq]
        intro w hw e; have := hl w hw; omega
      have e1 : x.1 = y.1 := by
        rcases Nat.lt_trichotomy x.1 y.1 with hlt | heq | hgt
        · have h1 := hr x.1
          have h2 := key h'.1 (Nat.le_of_lt hlt)
          simp only [Memory.read] at h1 h2
          simp [show ¬ y.1 = x.1 by omega, h2] at h1
        · exact heq
        · have h1 := hr y.1
          have h2 := key h.1 (Nat.le_of_lt hgt)
          simp only [Memory.read] at h1 h2
          simp [show ¬ x.1 = y.1 by omega, h2] at h1
      have e2 : x.2 = y.2 := by
        have := hr x.1
        simpa [Memory.read, e1] using this
      have e3 : x = y := Prod.ext e1 e2
      subst e3
      congr 1
      refine ih h.2 h'.2 (fun k => ?_)
      by_cases hk : k = x.1
      · rw [key h.1 (le_of_eq hk), key h'.1 (le_of_eq hk)]
      · have := hr k
        simpa [Memory.read, List.find?_cons, show ¬ x.1 = k from fun e => hk e.symm] using this

/-! ### Ranges and `MemRead` -/

@[simp] theorem Memory.length_range (m : Memory) (a n : Nat) : (m.range a n).length = n := by simp [Memory.range]

@[simp] theorem length_fillDraws (cells : List (Option Byte)) : ∀ d, (fillDraws d cells).length = cells.length := by
  induction cells with
  | nil => intro d; rfl
  | cons x cells ih => intro d; cases x <;> simp [fillDraws, ih]

@[simp] theorem memRead_length (s : State) (sp : Space) (a n : Nat) : (memRead s sp a n).1.length = n := by
  simp [memRead]

theorem fillDraws_map_some (bs : List Byte) : ∀ d, fillDraws d (bs.map some) = bs := by
  induction bs with
  | nil => intro d; rfl
  | cons b bs ih => intro d; simp [fillDraws, ih]

/-- The range holds the bytes `bs`, each written. -/
theorem Memory.range_eq (m : Memory) (a : Nat) (bs : List Byte)
    (h : ∀ i (hi : i < bs.length), m.read (a + i) = some bs[i]) : m.range a bs.length = bs.map some := by
  apply List.ext_getElem (by simp)
  intro i h1 h2
  simp only [Memory.range, List.getElem_map, List.getElem_range]
  exact h i (by simpa using h2)

/-- `MemRead` of a range whose bytes are all written gives them and changes nothing. -/
theorem memRead_written (s : State) (sp : Space) (a : Nat) (bs : List Byte)
    (h : ∀ i (hi : i < bs.length), (s.mem sp).read (a + i) = some bs[i]) : memRead s sp a bs.length = (bs, s) := by
  have hr := Memory.range_eq (s.mem sp) a bs h
  simp [memRead, hr, fillDraws_map_some]

/-- Everything `MemRead` can do to the state: nothing, or, when a byte of the range is unwritten, set the mark and use up
draws. -/
theorem memRead_cases (s : State) (sp : Space) (a n : Nat) :
    ((∀ i < n, ((s.mem sp).read (a + i)).isSome) ∧ (memRead s sp a n).2 = s) ∨
    ((∃ i < n, (s.mem sp).read (a + i) = none) ∧
      (memRead s sp a n).2 = { s with mark := true, draws := s.draws + n }) := by
  by_cases h : ((s.mem sp).range a n).all Option.isSome
  · refine .inl ⟨fun i hi => ?_, by simp [memRead, h]⟩
    rw [List.all_eq_true] at h
    exact h _ (List.mem_map.mpr ⟨i, List.mem_range.mpr hi, rfl⟩)
  · refine .inr ⟨?_, by simp [memRead, h]⟩
    simp only [Memory.range, List.all_map, List.all_eq_true, List.mem_range, not_forall] at h
    obtain ⟨i, hi, hn⟩ := h
    exact ⟨i, hi, by simpa using hn⟩

end Sys2Proof.Machine
end

