-- ==== Sys2Proof/Laws/State.lean ====
section
/-! SUPPORT. One lemma for each part of the state and each named update, so that no proof unfolds a record update. -/

namespace Sys2Proof.Machine

@[simp] theorem complete_regs (e : ErrCode) (s : State) : (complete e s).regs = { s.regs with done := true, err := e } := rfl
@[simp] theorem complete_oct (e : ErrCode) (s : State) : (complete e s).oct = s.oct := rfl
@[simp] theorem complete_smp (e : ErrCode) (s : State) : (complete e s).smp = s.smp := rfl
@[simp] theorem complete_latch (e : ErrCode) (s : State) : (complete e s).latch = none := rfl
@[simp] theorem complete_mark (e : ErrCode) (s : State) : (complete e s).mark = s.mark := rfl
@[simp] theorem complete_disturbed (e : ErrCode) (s : State) : (complete e s).disturbed = false := rfl
@[simp] theorem complete_draws (e : ErrCode) (s : State) : (complete e s).draws = s.draws := rfl
@[simp] theorem complete_schedule (e : ErrCode) (s : State) : (complete e s).schedule = s.schedule := rfl
@[simp] theorem complete_reads (e : ErrCode) (s : State) : (complete e s).reads = s.reads := rfl

@[simp] theorem finish_regs (s : State) : (finish s).regs = { s.regs with done := true, err := .ok } := rfl
@[simp] theorem finish_oct (s : State) : (finish s).oct = s.oct := rfl
@[simp] theorem finish_smp (s : State) : (finish s).smp = s.smp := rfl
@[simp] theorem finish_latch (s : State) : (finish s).latch = none := rfl
@[simp] theorem finish_mark (s : State) : (finish s).mark = s.mark := rfl
@[simp] theorem finish_disturbed (s : State) : (finish s).disturbed = false := rfl
@[simp] theorem finish_draws (s : State) : (finish s).draws = s.draws := rfl
@[simp] theorem finish_schedule (s : State) : (finish s).schedule = s.schedule := rfl
@[simp] theorem finish_reads (s : State) : (finish s).reads = s.reads := rfl

@[simp] theorem raise_regs (e : ErrCode) (s : State) : (raise e s).regs = { s.regs with done := true, err := e } := rfl
@[simp] theorem raise_oct (e : ErrCode) (s : State) : (raise e s).oct = s.oct := rfl
@[simp] theorem raise_smp (e : ErrCode) (s : State) : (raise e s).smp = s.smp := rfl
@[simp] theorem raise_latch (e : ErrCode) (s : State) : (raise e s).latch = none := rfl
@[simp] theorem raise_mark (e : ErrCode) (s : State) : (raise e s).mark = s.mark := rfl
@[simp] theorem raise_disturbed (e : ErrCode) (s : State) : (raise e s).disturbed = false := rfl
@[simp] theorem raise_draws (e : ErrCode) (s : State) : (raise e s).draws = s.draws := rfl
@[simp] theorem raise_schedule (e : ErrCode) (s : State) : (raise e s).schedule = s.schedule := rfl
@[simp] theorem raise_reads (e : ErrCode) (s : State) : (raise e s).reads = s.reads := rfl

@[simp] theorem accept_regs (w : Word) (s : State) : (accept w s).regs = { s.regs with cmd := w, done := false, err := .ok } := rfl
@[simp] theorem accept_oct (w : Word) (s : State) : (accept w s).oct = s.oct := rfl
@[simp] theorem accept_smp (w : Word) (s : State) : (accept w s).smp = s.smp := rfl
@[simp] theorem accept_latch (w : Word) (s : State) : (accept w s).latch = some w := rfl
@[simp] theorem accept_mark (w : Word) (s : State) : (accept w s).mark = s.mark := rfl
@[simp] theorem accept_disturbed (w : Word) (s : State) : (accept w s).disturbed = false := rfl
@[simp] theorem accept_draws (w : Word) (s : State) : (accept w s).draws = s.draws := rfl
@[simp] theorem accept_schedule (w : Word) (s : State) : (accept w s).schedule = s.schedule := rfl
@[simp] theorem accept_reads (w : Word) (s : State) : (accept w s).reads = s.reads := rfl

@[simp] theorem resetOf_regs (c : Config) : (State.resetOf c).regs = Regs.reset c := rfl
@[simp] theorem resetOf_oct (c : Config) : (State.resetOf c).oct = [] := rfl
@[simp] theorem resetOf_smp (c : Config) : (State.resetOf c).smp = [] := rfl
@[simp] theorem resetOf_latch (c : Config) : (State.resetOf c).latch = none := rfl
@[simp] theorem resetOf_mark (c : Config) : (State.resetOf c).mark = false := rfl
@[simp] theorem resetOf_disturbed (c : Config) : (State.resetOf c).disturbed = false := rfl
@[simp] theorem resetOf_draws (c : Config) : (State.resetOf c).draws = 0 := rfl
@[simp] theorem resetOf_schedule (c : Config) : (State.resetOf c).schedule = [] := rfl
@[simp] theorem resetOf_reads (c : Config) : (State.resetOf c).reads = [] := rfl

@[simp] theorem reset_eq_resetOf : State.reset = State.resetOf Config.reference := rfl

theorem storeLength_of_lt {n : Nat} (h : n < 2 ^ 32) (s : State) :
    storeLength n s = { s with regs := { s.regs with resultLen := BitVec.ofNat 32 n } } := if_pos h

/-- Everything `storeLength` can do: the count, or for one that `RESULT_LEN` cannot hold a free value and one draw. -/
theorem storeLength_cases (n : Nat) (s : State) :
    (n < 2 ^ 32 ∧ storeLength n s = { s with regs := { s.regs with resultLen := BitVec.ofNat 32 n } }) ∨
    (2 ^ 32 ≤ n ∧ storeLength n s =
      { s with regs := { s.regs with resultLen := Config.freeWord s.draws }, draws := s.draws + 1 }) := by
  by_cases h : n < 2 ^ 32
  · exact .inl ⟨h, if_pos h⟩
  · exact .inr ⟨Nat.le_of_not_lt h, if_neg h⟩

theorem storeLength_frame (n : Nat) (s : State) : ∃ v d,
    storeLength n s = { s with regs := { s.regs with resultLen := v }, draws := d } := by
  rcases storeLength_cases n s with ⟨_, h⟩ | ⟨_, h⟩ <;> exact ⟨_, _, h⟩

@[simp] theorem storeLength_oct (n : Nat) (s : State) : (storeLength n s).oct = s.oct := by
  unfold storeLength; split <;> rfl
@[simp] theorem storeLength_smp (n : Nat) (s : State) : (storeLength n s).smp = s.smp := by
  unfold storeLength; split <;> rfl
@[simp] theorem storeLength_latch (n : Nat) (s : State) : (storeLength n s).latch = s.latch := by
  unfold storeLength; split <;> rfl
@[simp] theorem storeLength_mark (n : Nat) (s : State) : (storeLength n s).mark = s.mark := by
  unfold storeLength; split <;> rfl
@[simp] theorem storeLength_disturbed (n : Nat) (s : State) : (storeLength n s).disturbed = s.disturbed := by
  unfold storeLength; split <;> rfl
@[simp] theorem storeLength_schedule (n : Nat) (s : State) : (storeLength n s).schedule = s.schedule := by
  unfold storeLength; split <;> rfl
@[simp] theorem storeLength_reads (n : Nat) (s : State) : (storeLength n s).reads = s.reads := by
  unfold storeLength; split <;> rfl

@[simp] theorem powerOnReset_regs (c : Config) (s : State) : (powerOnReset c s).regs = Regs.reset c := rfl
@[simp] theorem powerOnReset_oct (c : Config) (s : State) : (powerOnReset c s).oct = [] := rfl
@[simp] theorem powerOnReset_smp (c : Config) (s : State) : (powerOnReset c s).smp = [] := rfl
@[simp] theorem powerOnReset_latch (c : Config) (s : State) : (powerOnReset c s).latch = none := rfl
@[simp] theorem powerOnReset_mark (c : Config) (s : State) : (powerOnReset c s).mark = s.mark := rfl
@[simp] theorem powerOnReset_disturbed (c : Config) (s : State) : (powerOnReset c s).disturbed = false := rfl
@[simp] theorem powerOnReset_draws (c : Config) (s : State) : (powerOnReset c s).draws = s.draws := rfl
@[simp] theorem powerOnReset_schedule (c : Config) (s : State) : (powerOnReset c s).schedule = s.schedule := rfl
@[simp] theorem powerOnReset_reads (c : Config) (s : State) : (powerOnReset c s).reads = s.reads := rfl

@[simp] theorem answer_regs (v : Word) (s : State) : (answer v s).regs = s.regs := rfl
@[simp] theorem answer_oct (v : Word) (s : State) : (answer v s).oct = s.oct := rfl
@[simp] theorem answer_smp (v : Word) (s : State) : (answer v s).smp = s.smp := rfl
@[simp] theorem answer_latch (v : Word) (s : State) : (answer v s).latch = s.latch := rfl
@[simp] theorem answer_mark (v : Word) (s : State) : (answer v s).mark = s.mark := rfl
@[simp] theorem answer_disturbed (v : Word) (s : State) : (answer v s).disturbed = s.disturbed := rfl
@[simp] theorem answer_draws (v : Word) (s : State) : (answer v s).draws = s.draws := rfl
@[simp] theorem answer_schedule (v : Word) (s : State) : (answer v s).schedule = s.schedule := rfl
@[simp] theorem answer_reads (v : Word) (s : State) : (answer v s).reads = v :: s.reads := rfl

@[simp] theorem busyAccess_regs (s : State) : (busyAccess s).regs = s.regs := rfl
@[simp] theorem busyAccess_oct (s : State) : (busyAccess s).oct = s.oct := rfl
@[simp] theorem busyAccess_smp (s : State) : (busyAccess s).smp = s.smp := rfl
@[simp] theorem busyAccess_latch (s : State) : (busyAccess s).latch = s.latch := rfl
@[simp] theorem busyAccess_mark (s : State) : (busyAccess s).mark = true := rfl
@[simp] theorem busyAccess_disturbed (s : State) : (busyAccess s).disturbed = true := rfl
@[simp] theorem busyAccess_draws (s : State) : (busyAccess s).draws = s.draws + 1 := rfl
@[simp] theorem busyAccess_schedule (s : State) : (busyAccess s).schedule = s.schedule := rfl
@[simp] theorem busyAccess_reads (s : State) : (busyAccess s).reads = s.reads := rfl

@[simp] theorem irregularAccess_regs (s : State) : (irregularAccess s).regs = freeRegs s.draws := rfl
@[simp] theorem irregularAccess_oct (s : State) : (irregularAccess s).oct = s.oct := rfl
@[simp] theorem irregularAccess_smp (s : State) : (irregularAccess s).smp = s.smp := rfl
@[simp] theorem irregularAccess_latch (s : State) : (irregularAccess s).latch = freeLatch (s.draws + 21) s.latch := rfl
@[simp] theorem irregularAccess_mark (s : State) : (irregularAccess s).mark = true := rfl
@[simp] theorem irregularAccess_disturbed (s : State) : (irregularAccess s).disturbed = true := rfl
@[simp] theorem irregularAccess_draws (s : State) : (irregularAccess s).draws = s.draws + irregularDraws := rfl
@[simp] theorem irregularAccess_schedule (s : State) : (irregularAccess s).schedule = s.schedule := rfl
@[simp] theorem irregularAccess_reads (s : State) : (irregularAccess s).reads = s.reads := rfl

@[simp] theorem placeCommand_regs (w : Word) (s : State) : (placeCommand w s).regs = { s.regs with cmd := w, done := false, err := .ok } := rfl
@[simp] theorem placeCommand_oct (w : Word) (s : State) : (placeCommand w s).oct = s.oct := rfl
@[simp] theorem placeCommand_smp (w : Word) (s : State) : (placeCommand w s).smp = s.smp := rfl
@[simp] theorem placeCommand_latch (w : Word) (s : State) : (placeCommand w s).latch = some w := rfl
@[simp] theorem placeCommand_mark (w : Word) (s : State) : (placeCommand w s).mark = s.mark := rfl
@[simp] theorem placeCommand_disturbed (w : Word) (s : State) : (placeCommand w s).disturbed = false := rfl
@[simp] theorem placeCommand_draws (w : Word) (s : State) : (placeCommand w s).draws = s.draws := rfl
@[simp] theorem placeCommand_schedule (w : Word) (s : State) : (placeCommand w s).schedule = .engine :: s.schedule := rfl
@[simp] theorem placeCommand_reads (w : Word) (s : State) : (placeCommand w s).reads = s.reads := rfl

@[simp] theorem setMem_regs (s : State) (sp : Space) (m : Memory) : (s.setMem sp m).regs = s.regs := by cases sp <;> rfl
@[simp] theorem setMem_latch (s : State) (sp : Space) (m : Memory) : (s.setMem sp m).latch = s.latch := by cases sp <;> rfl
@[simp] theorem setMem_mark (s : State) (sp : Space) (m : Memory) : (s.setMem sp m).mark = s.mark := by cases sp <;> rfl
@[simp] theorem setMem_disturbed (s : State) (sp : Space) (m : Memory) : (s.setMem sp m).disturbed = s.disturbed := by cases sp <;> rfl
@[simp] theorem setMem_draws (s : State) (sp : Space) (m : Memory) : (s.setMem sp m).draws = s.draws := by cases sp <;> rfl
@[simp] theorem setMem_schedule (s : State) (sp : Space) (m : Memory) : (s.setMem sp m).schedule = s.schedule := by cases sp <;> rfl
@[simp] theorem setMem_reads (s : State) (sp : Space) (m : Memory) : (s.setMem sp m).reads = s.reads := by cases sp <;> rfl

@[simp] theorem memWrite_regs (s : State) (sp : Space) (a : Nat) (vs : List Byte) : (memWrite s sp a vs).regs = s.regs := by cases sp <;> rfl
@[simp] theorem memWrite_latch (s : State) (sp : Space) (a : Nat) (vs : List Byte) : (memWrite s sp a vs).latch = s.latch := by cases sp <;> rfl
@[simp] theorem memWrite_mark (s : State) (sp : Space) (a : Nat) (vs : List Byte) : (memWrite s sp a vs).mark = s.mark := by cases sp <;> rfl
@[simp] theorem memWrite_disturbed (s : State) (sp : Space) (a : Nat) (vs : List Byte) : (memWrite s sp a vs).disturbed = s.disturbed := by cases sp <;> rfl
@[simp] theorem memWrite_draws (s : State) (sp : Space) (a : Nat) (vs : List Byte) : (memWrite s sp a vs).draws = s.draws := by cases sp <;> rfl
@[simp] theorem memWrite_schedule (s : State) (sp : Space) (a : Nat) (vs : List Byte) : (memWrite s sp a vs).schedule = s.schedule := by cases sp <;> rfl
@[simp] theorem memWrite_reads (s : State) (sp : Space) (a : Nat) (vs : List Byte) : (memWrite s sp a vs).reads = s.reads := by cases sp <;> rfl

@[simp] theorem forgetRange_regs (s : State) (sp : Space) (a n : Nat) : (forgetRange s sp a n).regs = s.regs := by cases sp <;> rfl
@[simp] theorem forgetRange_latch (s : State) (sp : Space) (a n : Nat) : (forgetRange s sp a n).latch = s.latch := by cases sp <;> rfl
@[simp] theorem forgetRange_mark (s : State) (sp : Space) (a n : Nat) : (forgetRange s sp a n).mark = s.mark := by cases sp <;> rfl
@[simp] theorem forgetRange_disturbed (s : State) (sp : Space) (a n : Nat) : (forgetRange s sp a n).disturbed = s.disturbed := by cases sp <;> rfl
@[simp] theorem forgetRange_draws (s : State) (sp : Space) (a n : Nat) : (forgetRange s sp a n).draws = s.draws := by cases sp <;> rfl
@[simp] theorem forgetRange_schedule (s : State) (sp : Space) (a n : Nat) : (forgetRange s sp a n).schedule = s.schedule := by cases sp <;> rfl
@[simp] theorem forgetRange_reads (s : State) (sp : Space) (a n : Nat) : (forgetRange s sp a n).reads = s.reads := by cases sp <;> rfl

@[simp] theorem mem_oct (s : State) : s.mem .oct = s.oct := rfl
@[simp] theorem mem_smp (s : State) : s.mem .smp = s.smp := rfl

@[simp] theorem setMem_oct_oct (s : State) (m : Memory) : (s.setMem .oct m).oct = m := rfl
@[simp] theorem setMem_oct_smp (s : State) (m : Memory) : (s.setMem .oct m).smp = s.smp := rfl
@[simp] theorem setMem_smp_oct (s : State) (m : Memory) : (s.setMem .smp m).oct = s.oct := rfl
@[simp] theorem setMem_smp_smp (s : State) (m : Memory) : (s.setMem .smp m).smp = m := rfl

@[simp] theorem memWrite_oct_oct (s : State) (a : Nat) (vs : List Byte) :
    (memWrite s .oct a vs).oct = s.oct.writeRange a vs := rfl
@[simp] theorem memWrite_oct_smp (s : State) (a : Nat) (vs : List Byte) : (memWrite s .oct a vs).smp = s.smp := rfl
@[simp] theorem memWrite_smp_oct (s : State) (a : Nat) (vs : List Byte) : (memWrite s .smp a vs).oct = s.oct := rfl
@[simp] theorem memWrite_smp_smp (s : State) (a : Nat) (vs : List Byte) :
    (memWrite s .smp a vs).smp = s.smp.writeRange a vs := rfl

@[simp] theorem forgetRange_oct_oct (s : State) (a n : Nat) : (forgetRange s .oct a n).oct = s.oct.forget a n := rfl
@[simp] theorem forgetRange_oct_smp (s : State) (a n : Nat) : (forgetRange s .oct a n).smp = s.smp := rfl
@[simp] theorem forgetRange_smp_oct (s : State) (a n : Nat) : (forgetRange s .smp a n).oct = s.oct := rfl
@[simp] theorem forgetRange_smp_smp (s : State) (a n : Nat) : (forgetRange s .smp a n).smp = s.smp.forget a n := rfl

/-- What `MemRead` leaves alone: all but the mark and the draws. -/
@[simp] theorem memRead_regs (s : State) (sp : Space) (a n : Nat) : (memRead s sp a n).2.regs = s.regs := by
  rcases memRead_cases s sp a n with ⟨_, h⟩ | ⟨_, h⟩ <;> rw [h]
@[simp] theorem memRead_oct (s : State) (sp : Space) (a n : Nat) : (memRead s sp a n).2.oct = s.oct := by
  rcases memRead_cases s sp a n with ⟨_, h⟩ | ⟨_, h⟩ <;> rw [h]
@[simp] theorem memRead_smp (s : State) (sp : Space) (a n : Nat) : (memRead s sp a n).2.smp = s.smp := by
  rcases memRead_cases s sp a n with ⟨_, h⟩ | ⟨_, h⟩ <;> rw [h]
@[simp] theorem memRead_latch (s : State) (sp : Space) (a n : Nat) : (memRead s sp a n).2.latch = s.latch := by
  rcases memRead_cases s sp a n with ⟨_, h⟩ | ⟨_, h⟩ <;> rw [h]
@[simp] theorem memRead_disturbed (s : State) (sp : Space) (a n : Nat) :
    (memRead s sp a n).2.disturbed = s.disturbed := by
  rcases memRead_cases s sp a n with ⟨_, h⟩ | ⟨_, h⟩ <;> rw [h]
@[simp] theorem memRead_schedule (s : State) (sp : Space) (a n : Nat) :
    (memRead s sp a n).2.schedule = s.schedule := by
  rcases memRead_cases s sp a n with ⟨_, h⟩ | ⟨_, h⟩ <;> rw [h]
@[simp] theorem memRead_reads (s : State) (sp : Space) (a n : Nat) : (memRead s sp a n).2.reads = s.reads := by
  rcases memRead_cases s sp a n with ⟨_, h⟩ | ⟨_, h⟩ <;> rw [h]

@[simp] theorem busy_none {s : State} (h : s.latch = none) : s.busy = false := by simp [State.busy, h]
@[simp] theorem busy_some {s : State} {w : Word} (h : s.latch = some w) : s.busy = true := by simp [State.busy, h]

end Sys2Proof.Machine
end

