-- ==== Sys2Proof/Laws/Ops.lean ====
section
/-! SUPPORT. One lemma for each shared operation, saying everything it can do: ranges, lengths, each command's cases,
the engine's turn, the host's accesses, the step. Proofs cite these instead of unfolding the definitions. -/

namespace Sys2Proof.Machine

/-! ### Ranges of the reference build -/

@[simp] theorem spaceSize_oct : spaceSize Config.reference .oct = 4096 := rfl
@[simp] theorem spaceSize_smp : spaceSize Config.reference .smp = 65536 := rfl

@[simp] theorem inRange_iff (c : Config) (sp : Space) (a : Word) (n : Nat) :
    inRange c sp a n = true ↔ a.toNat + n ≤ spaceSize c sp := by
  simp [inRange]

@[simp] theorem inRange_false_iff (c : Config) (sp : Space) (a : Word) (n : Nat) :
    inRange c sp a n = false ↔ spaceSize c sp < a.toNat + n := by
  simp [inRange]

/-! ### Lengths -/

@[simp] theorem toneSamples_length (c : Config) (tone : Tone) : ∀ k phase, (toneSamples c tone k phase).1.length = k := by
  intro k
  induction k with
  | zero => intro _; rfl
  | succ k ih => intro _; simp [toneSamples, ih]

@[simp] theorem synthesize_length (c : Config) (bits : List Bool) :
    ∀ tone phase, (synthesize c tone phase bits).length = spb * bits.length := by
  induction bits with
  | nil => intro _ _; rfl
  | cons b bits ih => intro _ _; simp [synthesize, ih, spb]; omega

@[simp] theorem byteBits_length (b : Byte) : (byteBits b).length = 8 := by simp [byteBits]

@[simp] theorem markerBits_length (b : Byte) (k : Nat) : (markerBits b k).length = 8 * k := by
  induction k with
  | zero => rfl
  | succ k ih => simp [markerBits, ih]; omega

@[simp] theorem paddedCall_length (chars : List Byte) (len : Nat) : (paddedCall chars len).length = 6 := by
  simp [paddedCall]

theorem addressOctets_length (c : Config) (chars : List Byte) (len : Nat) (ssid : Byte) (h : c.destId.length = 6) :
    (addressOctets c chars len ssid).length = 14 := by
  simp [addressOctets, h]

@[simp] theorem shiftAddress_length (as : List Byte) : (shiftAddress as).length = as.length := by
  simp [shiftAddress]; omega

@[simp] theorem withCrc_length (f : List Byte) : (withCrc f).length = f.length + 2 := by simp [withCrc]

theorem frameBody_length (c : Config) (chars : List Byte) (len : Nat) (ssid : Byte) (p : List Byte)
    (h : c.destId.length = 6) : (frameBody c chars len ssid p).length = 16 + p.length := by
  simp [frameBody, addressOctets_length c chars len ssid h]; omega

/-! ### The commands -/

/-- A `MemRead`, its bytes and its state named. -/
theorem memRead_pair (s : State) (sp : Space) (a n : Nat) :
    ∃ bs s1, memRead s sp a n = (bs, s1) ∧ s1.regs = s.regs ∧ bs.length = n :=
  ⟨(memRead s sp a n).1, (memRead s sp a n).2, by simp only [Prod.mk.eta], by simp, by simp⟩

/-- Everything `CRC16` can do. -/
theorem crcCommand_cases (c : Config) (s : State) :
    (spaceSize c .oct < s.regs.srcAddr.toNat + s.regs.srcLen.toNat ∧ crcCommand c s = raise .rangeError s) ∨
    (∃ bs s1, s.regs.srcAddr.toNat + s.regs.srcLen.toNat ≤ spaceSize c .oct ∧
      memRead s .oct s.regs.srcAddr.toNat s.regs.srcLen.toNat = (bs, s1) ∧
      crcCommand c s = finish { s1 with regs := { s1.regs with resultAux := (crc16 bs).setWidth 32 } }) := by
  by_cases h : s.regs.srcAddr.toNat + s.regs.srcLen.toNat ≤ spaceSize c .oct
  · obtain ⟨bs, s1, hm, hr, _⟩ := memRead_pair s .oct s.regs.srcAddr.toNat s.regs.srcLen.toNat
    exact .inr ⟨bs, s1, h, hm, by simp [crcCommand, inRange, h, hm]⟩
  · exact .inl ⟨by omega, by simp [crcCommand, inRange, h]⟩

/-- Everything `DISCRIMINATE` can do. -/
theorem discriminate_cases (c : Config) (s : State) :
    (spaceSize c .smp < s.regs.srcAddr.toNat + spb ∧ discriminate c s = raise .rangeError s) ∨
    (∃ w s1, s.regs.srcAddr.toNat + spb ≤ spaceSize c .smp ∧ memRead s .smp s.regs.srcAddr.toNat spb = (w, s1) ∧
      discriminate c s = finish { s1 with regs := { s1.regs with resultAux := scoreWord (disc c w) } }) := by
  by_cases h : s.regs.srcAddr.toNat + spb ≤ spaceSize c .smp
  · obtain ⟨bs, s1, hm, hr, _⟩ := memRead_pair s .smp s.regs.srcAddr.toNat spb
    exact .inr ⟨bs, s1, h, hm, by simp [discriminate, inRange, h, hm]⟩
  · exact .inl ⟨by omega, by simp [discriminate, inRange, h]⟩

/-- Everything `DEMOD_STEP` can do. -/
theorem demodStep_cases (c : Config) (s : State) :
    (spaceSize c .smp < s.regs.srcAddr.toNat + spb ∧ demodStep c s = raise .rangeError s) ∨
    (∃ w s1, s.regs.srcAddr.toNat + spb ≤ spaceSize c .smp ∧ memRead s .smp s.regs.srcAddr.toNat spb = (w, s1) ∧
      demodStep c s = finish { s1 with
        regs := { storeDemod (dstep c s.regs.demod w) s1.regs with resultAux := scoreWord (disc c w) } }) := by
  by_cases h : s.regs.srcAddr.toNat + spb ≤ spaceSize c .smp
  · obtain ⟨bs, s1, hm, hr, _⟩ := memRead_pair s .smp s.regs.srcAddr.toNat spb
    exact .inr ⟨bs, s1, h, hm, by simp [demodStep, inRange, h, hm]⟩
  · exact .inl ⟨by omega, by simp [demodStep, inRange, h]⟩

/-- Everything `MODULATE` can do. -/
theorem modulate_cases (c : Config) (nb ne : Byte) (s : State) :
    (spaceSize c .oct < s.regs.srcAddr.toNat + s.regs.srcLen.toNat ∧ modulate c nb ne s = raise .rangeError s) ∨
    (∃ octets s1, s.regs.srcAddr.toNat + s.regs.srcLen.toNat ≤ spaceSize c .oct ∧
      memRead s .oct s.regs.srcAddr.toNat s.regs.srcLen.toNat = (octets, s1) ∧
      ((spaceSize c .smp < s.regs.dstAddr.toNat + spb * (lineBits c octets nb.toNat ne.toNat).length ∧
          modulate c nb ne s = raise .rangeError s1) ∨
        (s.regs.dstAddr.toNat + spb * (lineBits c octets nb.toNat ne.toNat).length ≤ spaceSize c .smp ∧
          ∃ v d, (spb * (lineBits c octets nb.toNat ne.toNat).length < 2 ^ 32 →
              v = BitVec.ofNat 32 (spb * (lineBits c octets nb.toNat ne.toNat).length) ∧ d = s1.draws) ∧
            modulate c nb ne s =
              finish { memWrite s1 .smp s.regs.dstAddr.toNat
                  (synthesize c c.initTone 0 (lineBits c octets nb.toNat ne.toNat)) with
                regs := { s.regs with
                  resultLen := v
                  resultAux := BitVec.ofNat 32 (lineBits c octets nb.toNat ne.toNat).length }
                draws := d }))) := by
  by_cases h : s.regs.srcAddr.toNat + s.regs.srcLen.toNat ≤ spaceSize c .oct
  · obtain ⟨bs, s1, hm, hr, _⟩ := memRead_pair s .oct s.regs.srcAddr.toNat s.regs.srcLen.toNat
    refine .inr ⟨bs, s1, h, hm, ?_⟩
    by_cases h2 : s.regs.dstAddr.toNat + spb * (lineBits c bs nb.toNat ne.toNat).length ≤ spaceSize c .smp
    · refine .inr ⟨h2, ?_⟩
      rcases storeLength_cases (spb * (lineBits c bs nb.toNat ne.toNat).length) (memWrite s1 .smp s.regs.dstAddr.toNat
        (synthesize c c.initTone 0 (lineBits c bs nb.toNat ne.toNat))) with ⟨_, hs⟩ | ⟨hn, hs⟩
      · exact ⟨_, s1.draws, fun _ => ⟨rfl, rfl⟩, by simp [modulate, inRange, h, h2, hm, hs, hr]⟩
      · exact ⟨Config.freeWord s1.draws, s1.draws + 1, fun hc => absurd hc (Nat.not_lt.mpr hn),
          by simp [modulate, inRange, h, h2, hm, hs, hr]⟩
    · exact .inl ⟨by omega, by simp [modulate, inRange, h, h2, hm]⟩
  · exact .inl ⟨by omega, by simp [modulate, inRange, h]⟩

/-- Everything the end of a search can do. -/
theorem deliverFrame_cases (c : Config) (o : Nat) (acc : List Byte) (s : State) :
    (spaceSize c .oct < s.regs.dstAddr.toNat + acc.length ∧ deliverFrame c o acc s = raise .rangeError s) ∨
    (s.regs.dstAddr.toNat + acc.length ≤ spaceSize c .oct ∧
      deliverFrame c o acc s = finish { memWrite s .oct s.regs.dstAddr.toNat acc with
        regs := { s.regs with resultLen := BitVec.ofNat 32 acc.length, resultAux := BitVec.ofNat 32 o } }) := by
  by_cases h : s.regs.dstAddr.toNat + acc.length ≤ spaceSize c .oct
  · exact .inr ⟨h, by simp [deliverFrame, inRange, h]⟩
  · exact .inl ⟨by omega, by simp [deliverFrame, inRange, h]⟩

/-- Everything `DEMOD_TRIAL` can do. -/
theorem demodTrial_cases (c : Config) (o : Byte) (s : State) :
    (spb ≤ o.toNat ∧ demodTrial c o s = raise .illegalCommand s) ∨
    (o.toNat < spb ∧ spaceSize c .smp < s.regs.srcAddr.toNat + s.regs.srcLen.toNat ∧
      demodTrial c o s = raise .rangeError s) ∨
    (∃ buf s1, o.toNat < spb ∧ s.regs.srcAddr.toNat + s.regs.srcLen.toNat ≤ spaceSize c .smp ∧
      memRead s .smp s.regs.srcAddr.toNat s.regs.srcLen.toNat = (buf, s1) ∧
      ((trial c buf o.toNat = none ∧ demodTrial c o s = raise .notFound s1) ∨
        (∃ acc, trial c buf o.toNat = some acc ∧ demodTrial c o s = deliverFrame c o.toNat acc s1))) := by
  by_cases ho : spb ≤ o.toNat
  · exact .inl ⟨ho, by simp [demodTrial, ho]⟩
  · by_cases h : s.regs.srcAddr.toNat + s.regs.srcLen.toNat ≤ spaceSize c .smp
    · obtain ⟨bs, s1, hm, hr, _⟩ := memRead_pair s .smp s.regs.srcAddr.toNat s.regs.srcLen.toNat
      refine .inr (.inr ⟨bs, s1, by omega, h, hm, ?_⟩)
      cases ht : trial c bs o.toNat with
      | none => exact .inl ⟨rfl, by simp [demodTrial, inRange, h, ho, ht, hm]⟩
      | some acc => exact .inr ⟨acc, rfl, by simp [demodTrial, inRange, h, ho, ht, hm]⟩
    · exact .inr (.inl ⟨by omega, by omega, by simp [demodTrial, inRange, h, ho]⟩)

/-- Everything `DEMODULATE` can do. -/
theorem demodulate_cases (c : Config) (s : State) :
    (spaceSize c .smp < s.regs.srcAddr.toNat + s.regs.srcLen.toNat ∧ demodulate c s = raise .rangeError s) ∨
    (∃ buf s1, s.regs.srcAddr.toNat + s.regs.srcLen.toNat ≤ spaceSize c .smp ∧
      memRead s .smp s.regs.srcAddr.toNat s.regs.srcLen.toNat = (buf, s1) ∧
      ((search c buf = none ∧ demodulate c s = raise .notFound s1) ∨
        (∃ o acc, search c buf = some (o, acc) ∧ demodulate c s = deliverFrame c o acc s1))) := by
  by_cases h : s.regs.srcAddr.toNat + s.regs.srcLen.toNat ≤ spaceSize c .smp
  · obtain ⟨bs, s1, hm, hr, _⟩ := memRead_pair s .smp s.regs.srcAddr.toNat s.regs.srcLen.toNat
    refine .inr ⟨bs, s1, h, hm, ?_⟩
    cases ht : search c bs with
    | none => exact .inl ⟨rfl, by simp [demodulate, inRange, h, ht, hm]⟩
    | some r => exact .inr ⟨r.1, r.2, rfl, by simp [demodulate, inRange, h, ht, hm]⟩
  · exact .inl ⟨by omega, by simp [demodulate, inRange, h]⟩

/-- Everything `DECODE_FRAME` can do. -/
theorem decodeFrame_cases (c : Config) (s : State) :
    (spaceSize c .oct < s.regs.srcAddr.toNat + s.regs.srcLen.toNat ∧ decodeFrame c s = raise .rangeError s) ∨
    (∃ f s1, s.regs.srcAddr.toNat + s.regs.srcLen.toNat ≤ spaceSize c .oct ∧
      memRead s .oct s.regs.srcAddr.toNat s.regs.srcLen.toNat = (f, s1) ∧
      ((frameTerminator f = none ∧ decodeFrame c s = raise .formatError s1) ∨
        (∃ t, frameTerminator f = some t ∧
          decodeFrame c s = complete (if computedCrc f = receivedCrc f then .ok else .invalidChecksum)
            { s1 with regs := decodeResults s.regs.srcAddr.toNat f t s1.regs }))) := by
  by_cases h : s.regs.srcAddr.toNat + s.regs.srcLen.toNat ≤ spaceSize c .oct
  · obtain ⟨bs, s1, hm, hr, _⟩ := memRead_pair s .oct s.regs.srcAddr.toNat s.regs.srcLen.toNat
    refine .inr ⟨bs, s1, h, hm, ?_⟩
    cases ht : frameTerminator bs with
    | none => exact .inl ⟨rfl, by simp [decodeFrame, inRange, h, ht, hm]⟩
    | some t =>
      refine .inr ⟨t, rfl, ?_⟩
      simp only [decodeFrame, inRange, h, ht, hm, decide_true, Bool.not_true, Bool.false_eq_true, if_false]
      split <;> rfl
  · exact .inl ⟨by omega, by simp [decodeFrame, inRange, h]⟩

/-- The bytes that `ENCODE_FRAME` builds for the payload `p` (45_frame_codec.md R228). -/
def builtBody (c : Config) (g : Regs) (p : List Byte) : List Byte := frameBody c g.callChars g.callLen g.ssid p

/-- Everything `ENCODE_FRAME` can do. -/
theorem encodeFrame_cases (c : Config) (s : State) :
    (spaceSize c .oct < s.regs.srcAddr.toNat + s.regs.srcLen.toNat ∧ encodeFrame c s = raise .rangeError s) ∨
    (∃ p s1, s.regs.srcAddr.toNat + s.regs.srcLen.toNat ≤ spaceSize c .oct ∧
      memRead s .oct s.regs.srcAddr.toNat s.regs.srcLen.toNat = (p, s1) ∧
      ((6 < s.regs.callLen ∧ encodeFrame c s = raise .formatError s1) ∨
        (s.regs.callLen ≤ 6 ∧
          (spaceSize c .oct < s.regs.dstAddr.toNat + (18 + s.regs.srcLen.toNat) ∨
            encodeOverlaps s.regs.srcAddr.toNat s.regs.srcLen.toNat s.regs.dstAddr.toNat = true) ∧
          encodeFrame c s = raise .rangeError s1) ∨
        (s.regs.callLen ≤ 6 ∧ s.regs.dstAddr.toNat + (18 + s.regs.srcLen.toNat) ≤ spaceSize c .oct ∧
          encodeOverlaps s.regs.srcAddr.toNat s.regs.srcLen.toNat s.regs.dstAddr.toNat = false ∧
          encodeFrame c s =
            finish { memWrite s1 .oct s.regs.dstAddr.toNat (withCrc (builtBody c s.regs p)) with
              regs := { s.regs with
                resultLen := BitVec.ofNat 32 (18 + s.regs.srcLen.toNat)
                resultAux := (crc16 (builtBody c s.regs p)).setWidth 32 } }))) := by
  by_cases h : s.regs.srcAddr.toNat + s.regs.srcLen.toNat ≤ spaceSize c .oct
  · obtain ⟨bs, s1, hm, hr, _⟩ := memRead_pair s .oct s.regs.srcAddr.toNat s.regs.srcLen.toNat
    refine .inr ⟨bs, s1, h, hm, ?_⟩
    by_cases h1 : 6 < s.regs.callLen
    · exact .inl ⟨h1, by simp [encodeFrame, inRange, h, h1, hm]⟩
    · by_cases h2 : s.regs.dstAddr.toNat + (18 + s.regs.srcLen.toNat) ≤ spaceSize c .oct
      · cases h3 : encodeOverlaps s.regs.srcAddr.toNat s.regs.srcLen.toNat s.regs.dstAddr.toNat with
        | false => exact .inr (.inr ⟨by omega, h2, rfl, by simp [encodeFrame, inRange, h, h1, h2, h3, hm, hr, builtBody]⟩)
        | true => exact .inr (.inl ⟨by omega, .inr rfl, by simp [encodeFrame, inRange, h, h1, h2, h3, hm]⟩)
      · exact .inr (.inl ⟨by omega, .inl (by omega), by simp [encodeFrame, inRange, h, h1, h2, hm]⟩)
  · exact .inl ⟨by omega, by simp [encodeFrame, inRange, h]⟩

/-! ### The engine, the host, the step -/

/-- A command's meaning is its rule in the reference build (00_scope.md R12). -/
theorem exec_eq_perform (i : Instr) (s : State) : exec i s = .next (perform Config.reference i s) := by
  cases i <;> rfl

/-- The host's machine is that of the reference build (00_scope.md R12). -/
theorem buildCore_reference : buildCore Config.reference = core := rfl

/-- Everything the engine's turn can do, in any build. -/
theorem engineTurn_cases (c : Config) (s : State) :
    (s.latch = none ∧ engineTurn c s = .next s) ∨
    (∃ w e, s.latch = some w ∧ decode w = .error e ∧ engineTurn c s = .next (raise .illegalCommand s)) ∨
    (∃ w i, s.latch = some w ∧ decode w = .ok i ∧ s.disturbed = true ∧
      engineTurn c s = .next (completeUnconstrained c i s)) ∨
    (∃ w i, s.latch = some w ∧ decode w = .ok i ∧ s.disturbed = false ∧ engineTurn c s = .next (perform c i s)) := by
  cases hl : s.latch with
  | none => exact .inl ⟨rfl, by simp [engineTurn, hl]⟩
  | some w =>
    cases hd : decode w with
    | error e => exact .inr (.inl ⟨w, e, rfl, hd, by simp [engineTurn, hl, hd]⟩)
    | ok i =>
      cases hb : s.disturbed with
      | true => exact .inr (.inr (.inl ⟨w, i, rfl, hd, rfl, by simp [engineTurn, hl, hd, hb]⟩))
      | false => exact .inr (.inr (.inr ⟨w, i, rfl, hd, rfl, by simp [engineTurn, hl, hd, hb]⟩))

/-- Everything a step of a build can do. -/
theorem nextStep_cases (c : Config) (s : State) :
    (s.schedule = [] ∧ nextStep c s = engineTurn c s) ∨
    (∃ h rest, s.schedule = .host h :: rest ∧ nextStep c s = .next (hostAccess c h { s with schedule := rest })) ∨
    (∃ rest, s.schedule = .engine :: rest ∧ nextStep c s = engineTurn c { s with schedule := rest }) ∨
    (∃ rest, s.schedule = .powerOn :: rest ∧ nextStep c s = .next (powerOnReset c { s with schedule := rest })) := by
  cases hs : s.schedule with
  | nil => exact .inl ⟨rfl, by simp [nextStep, hs]⟩
  | cons e rest =>
    cases e with
    | host h => exact .inr (.inl ⟨h, rest, rfl, by simp [nextStep, hs, takeEvent]⟩)
    | engine => exact .inr (.inr (.inl ⟨rest, rfl, by simp [nextStep, hs, takeEvent]⟩))
    | powerOn => exact .inr (.inr (.inr ⟨rest, rfl, by simp [nextStep, hs, takeEvent]⟩))

/-- Everything a step of the reference build can do. -/
theorem step_cases (s : State) :
    (s.schedule = [] ∧ step s = engineTurn Config.reference s) ∨
    (∃ h rest, s.schedule = .host h :: rest ∧
      step s = .next (hostAccess Config.reference h { s with schedule := rest })) ∨
    (∃ rest, s.schedule = .engine :: rest ∧ step s = engineTurn Config.reference { s with schedule := rest }) ∨
    (∃ rest, s.schedule = .powerOn :: rest ∧
      step s = .next (powerOnReset Config.reference { s with schedule := rest })) := nextStep_cases Config.reference s

/-- A `MemRead` neither reads nor changes the schedule. -/
theorem memRead_withSchedule (s : State) (r : List Event) (sp : Space) (a n : Nat) :
    memRead { s with schedule := r } sp a n =
      ((memRead s sp a n).1, { (memRead s sp a n).2 with schedule := r }) := by
  have h : ({ s with schedule := r } : State).mem sp = s.mem sp := by cases sp <;> rfl
  simp only [memRead, h]
  cases ((s.mem sp).range a n).all Option.isSome <;> rfl

/-- A command neither reads nor changes the schedule (20_memory.md R92). -/
theorem perform_withSchedule (c : Config) (i : Instr) (s : State) (r : List Event) :
    perform c i { s with schedule := r } = { perform c i s with schedule := r } := by
  have hm := memRead_withSchedule s r
  cases i with
  | modulate nb ne =>
    simp only [perform, modulate, hm, storeLength]
    repeat' split
    all_goals rfl
  | demodulate =>
    simp only [perform, demodulate, hm, deliverFrame]
    repeat' split
    all_goals rfl
  | demodTrial o =>
    simp only [perform, demodTrial, hm, deliverFrame]
    repeat' split
    all_goals rfl
  | encodeFrame =>
    simp only [perform, encodeFrame, hm]
    repeat' split
    all_goals rfl
  | decodeFrame =>
    simp only [perform, decodeFrame, hm]
    repeat' split
    all_goals rfl
  | crc16 => simp only [perform, crcCommand, hm]; split <;> rfl
  | discriminate => simp only [perform, discriminate, hm]; split <;> rfl
  | demodStep => simp only [perform, demodStep, hm]; split <;> rfl
  | demodReset => rfl

/-- Everything a host write to `CMD` can do (60_exceptions.md R265, R269). -/
theorem writeCmd_cases (v : Word) (s : State) :
    (s.latch = none ∧ writeCmd v s = accept v s) ∨
    (s.latch ≠ none ∧ writeCmd v s = { s with regs := { s.regs with ovr := true } }) := by
  cases h : s.latch with
  | none => exact .inl ⟨rfl, by simp [writeCmd, State.busy, h]⟩
  | some w => exact .inr ⟨by simp, by simp [writeCmd, State.busy, h]⟩

/-- Everything a host read of a memory can do (20_memory.md R85, R95, R96). -/
theorem hostMemRead_cases (sp : Space) (a : Nat) (s : State) :
    (s.latch ≠ none ∧ hostMemRead sp a s = answer ((Config.freeByte s.draws).setWidth 32) (busyAccess s)) ∨
    (∃ v, s.latch = none ∧ (s.mem sp).read a = some v ∧ hostMemRead sp a s = answer (v.setWidth 32) s) ∨
    (s.latch = none ∧ (s.mem sp).read a = none ∧
      hostMemRead sp a s = answer ((Config.freeByte s.draws).setWidth 32) { s with draws := s.draws + 1 }) := by
  cases h : s.latch with
  | some w => exact .inl ⟨by simp, by simp [hostMemRead, State.busy, h]⟩
  | none =>
    cases hr : (s.mem sp).read a with
    | some v => exact .inr (.inl ⟨v, rfl, rfl, by simp [hostMemRead, State.busy, h, hr]⟩)
    | none => exact .inr (.inr ⟨rfl, rfl, by simp [hostMemRead, State.busy, h, hr]⟩)

/-- Everything a host write of a memory can do (20_memory.md R85, R95, R96). -/
theorem hostMemWrite_cases (sp : Space) (a : Nat) (v : Byte) (s : State) :
    (s.latch = none ∧ hostMemWrite sp a v s = memWrite s sp a [v]) ∨
    (s.latch ≠ none ∧ (hostMemWrite sp a v s = memWrite (busyAccess s) sp a [v] ∨
      hostMemWrite sp a v s = busyAccess s)) := by
  cases h : s.latch with
  | none => exact .inl ⟨rfl, by simp [hostMemWrite, State.busy, h]⟩
  | some w =>
    refine .inr ⟨by simp, ?_⟩
    cases hf : freeBit s.draws with
    | true => exact .inl (by simp [hostMemWrite, State.busy, h, hf])
    | false => exact .inr (by simp [hostMemWrite, State.busy, h, hf])

/-- The register at a register's own offset (10_state.md R32). -/
@[simp] theorem regAt_offset (r : Reg) : regAt r.offset = some r := by cases r <;> rfl

theorem offset_of_regAt {off : Nat} {r : Reg} (h : regAt off = some r) : r.offset = off := by
  simpa using List.find?_some h

theorem regularAccess_iff (off bits : Nat) : regularAccess off bits = true ↔ bits = 32 ∧ off % 4 = 0 := by
  simp [regularAccess]

/-- Everything a host read in the register window can do (20_memory.md R85, R88). -/
theorem hostRegRead_cases (off bits : Nat) (s : State) :
    (bits = 32 ∧ off % 4 = 0 ∧ hostRegRead off bits s = answer (s.regRead off) s) ∨
    ((bits ≠ 32 ∨ off % 4 ≠ 0) ∧
      hostRegRead off bits s = answer (Config.freeWord (s.draws + 31)) (irregularAccess s)) := by
  cases h : regularAccess off bits with
  | true =>
    obtain ⟨h1, h2⟩ := (regularAccess_iff off bits).mp h
    exact .inl ⟨h1, h2, by simp [hostRegRead, h]⟩
  | false =>
    refine .inr ⟨?_, by simp [hostRegRead, h]⟩
    by_contra hc
    have : regularAccess off bits = true := (regularAccess_iff off bits).mpr (by omega)
    simp [h] at this

/-- Everything a host write in the register window can do (20_memory.md R85, R88; 10_state.md R32). -/
theorem hostRegWrite_cases (c : Config) (off bits : Nat) (v : Word) (s : State) :
    (∃ r, bits = 32 ∧ off % 4 = 0 ∧ regAt off = some r ∧ hostRegWrite c off bits v s = writeReg c r v s) ∨
    (bits = 32 ∧ off % 4 = 0 ∧ regAt off = none ∧ hostRegWrite c off bits v s = s) ∨
    ((bits ≠ 32 ∨ off % 4 ≠ 0) ∧ hostRegWrite c off bits v s = irregularAccess s) := by
  cases h : regularAccess off bits with
  | true =>
    obtain ⟨h1, h2⟩ := (regularAccess_iff off bits).mp h
    cases hr : regAt off with
    | some r => exact .inl ⟨r, h1, h2, rfl, by simp [hostRegWrite, h, hr]⟩
    | none => exact .inr (.inl ⟨h1, h2, rfl, by simp [hostRegWrite, h, hr]⟩)
  | false =>
    refine .inr (.inr ⟨?_, by simp [hostRegWrite, h]⟩)
    by_contra hc
    have : regularAccess off bits = true := (regularAccess_iff off bits).mpr (by omega)
    simp [h] at this

/-- Everything a host access can do: one outside its window is no step of the block (20_memory.md R85, R99). -/
theorem hostAccess_cases (c : Config) (h : HostAccess) (s : State) :
    (hostAccess c h s = s ∧ (∀ off bits, h = .regRead off bits → 0x100 ≤ off) ∧
      (∀ off bits v, h = .regWrite off bits v → 0x100 ≤ off) ∧ (∀ sp a, h = .memRead sp a → spaceSize c sp ≤ a) ∧
      (∀ sp a v, h = .memWrite sp a v → spaceSize c sp ≤ a)) ∨
    (∃ off bits, h = .regRead off bits ∧ off < 0x100 ∧ hostAccess c h s = hostRegRead off bits s) ∨
    (∃ off bits v, h = .regWrite off bits v ∧ off < 0x100 ∧ hostAccess c h s = hostRegWrite c off bits v s) ∨
    (∃ sp a, h = .memRead sp a ∧ a < spaceSize c sp ∧ hostAccess c h s = hostMemRead sp a s) ∨
    (∃ sp a v, h = .memWrite sp a v ∧ a < spaceSize c sp ∧ hostAccess c h s = hostMemWrite sp a v s) := by
  cases h with
  | regRead off bits =>
    by_cases ho : off < 0x100
    · exact .inr (.inl ⟨off, bits, rfl, ho, by simp [hostAccess, regWindow, ho]⟩)
    · exact .inl ⟨by simp [hostAccess, regWindow, ho], by simp_all⟩
  | regWrite off bits v =>
    by_cases ho : off < 0x100
    · exact .inr (.inr (.inl ⟨off, bits, v, rfl, ho, by simp [hostAccess, regWindow, ho]⟩))
    · exact .inl ⟨by simp [hostAccess, regWindow, ho], by simp_all⟩
  | memRead sp a =>
    by_cases ho : a < spaceSize c sp
    · exact .inr (.inr (.inr (.inl ⟨sp, a, rfl, ho, by simp [hostAccess, ho]⟩)))
    · exact .inl ⟨by simp [hostAccess, ho], by simp_all⟩
  | memWrite sp a v =>
    by_cases ho : a < spaceSize c sp
    · exact .inr (.inr (.inr (.inr ⟨sp, a, v, rfl, ho, by simp [hostAccess, ho]⟩)))
    · exact .inl ⟨by simp [hostAccess, ho], by simp_all⟩

/-- Inside the window the access is the register's. -/
theorem hostAccess_regRead (c : Config) (off bits : Nat) (s : State) (h : off < 0x100) :
    hostAccess c (.regRead off bits) s = hostRegRead off bits s := by simp [hostAccess, regWindow, h]

theorem hostAccess_regWrite (c : Config) (off bits : Nat) (v : Word) (s : State) (h : off < 0x100) :
    hostAccess c (.regWrite off bits v) s = hostRegWrite c off bits v s := by simp [hostAccess, regWindow, h]

/-- An aligned word write to a register is the register's own write (10_state.md R32). -/
theorem hostAccess_register (c : Config) (r : Reg) (v : Word) (s : State) :
    hostAccess c (.regWrite r.offset 32 v) s = writeReg c r v s := by
  have h1 : r.offset < 0x100 := by cases r <;> decide
  have h2 : r.offset % 4 = 0 := by cases r <;> decide
  simp [hostAccess_regWrite c _ _ _ _ h1, hostRegWrite, regularAccess, h2]

/-- What a soft reset reads of an output range: unwritten inside it if the command would have ended with `OK`, and as
before elsewhere, in the other space, and after an error (70_reset_and_hazards.md R291). -/
theorem forgetOutput_read (sp : Space) (n : Nat) (s t : State) (sp' : Space) (x : Nat) :
    ((forgetOutput sp n s t).mem sp').read x =
      if t.regs.err = .ok ∧ sp' = sp ∧ s.regs.dstAddr.toNat ≤ x ∧ x < s.regs.dstAddr.toNat + n then none
      else (s.mem sp').read x := by
  unfold forgetOutput
  by_cases he : t.regs.err = .ok
  · cases sp <;> cases sp' <;> simp [he, forgetRange, State.setMem, State.mem, Memory.read_forget]
  · simp [he, State.mem]

/-- What aborting or bounding an output leaves alone: all but the memories and the draws. -/
theorem forgetBound_frame (c : Config) (i : Instr) (s : State) :
    (forgetBound c i s).regs = s.regs ∧ (forgetBound c i s).latch = s.latch ∧ (forgetBound c i s).mark = s.mark ∧
    (forgetBound c i s).disturbed = s.disturbed ∧ (forgetBound c i s).draws = s.draws ∧
    (forgetBound c i s).schedule = s.schedule ∧ (forgetBound c i s).reads = s.reads := by
  cases i <;> simp [forgetBound]

theorem forgetOutput_frame (sp : Space) (n : Nat) (s t : State) :
    (forgetOutput sp n s t).regs = s.regs ∧ (forgetOutput sp n s t).latch = s.latch ∧
    (forgetOutput sp n s t).mark = s.mark ∧ (forgetOutput sp n s t).disturbed = s.disturbed ∧
    (forgetOutput sp n s t).draws = t.draws ∧ (forgetOutput sp n s t).schedule = s.schedule ∧
    (forgetOutput sp n s t).reads = s.reads := by
  unfold forgetOutput
  simp only []
  split <;> simp

theorem abortPending_frame (c : Config) (s : State) :
    (abortPending c s).mark = s.mark ∧ (abortPending c s).schedule = s.schedule ∧
    (abortPending c s).reads = s.reads := by
  unfold abortPending
  split
  · exact ⟨rfl, rfl, rfl⟩
  · split
    · exact ⟨rfl, rfl, rfl⟩
    · rename_i i _
      split
      · have h := forgetBound_frame c i s; exact ⟨h.2.2.1, h.2.2.2.2.2⟩
      · cases i <;>
          first
          | exact ⟨rfl, rfl, rfl⟩
          | exact ⟨(forgetOutput_frame _ _ _ _).2.2.1, (forgetOutput_frame _ _ _ _).2.2.2.2.2⟩

/-- A host access leaves the schedule alone. -/
theorem hostAccess_schedule (c : Config) (h : HostAccess) (s : State) : (hostAccess c h s).schedule = s.schedule := by
  cases h with
  | regRead off bits =>
    simp only [hostAccess, hostRegRead]
    split
    · split <;> simp
    · rfl
  | regWrite off bits v =>
    simp only [hostAccess, hostRegWrite]
    split
    · split
      · split
        · rename_i r _
          cases r <;> simp only [writeReg, writeCtrl, writeCmd] <;>
            split <;> first | rfl | exact (abortPending_frame c s).2.1
        · rfl
      · rfl
    · rfl
  | memRead sp a =>
    simp only [hostAccess]
    split
    · rcases hostMemRead_cases sp a s with ⟨_, h⟩ | ⟨v, _, _, h⟩ | ⟨_, _, h⟩ <;> rw [h] <;> rfl
    · rfl
  | memWrite sp a v =>
    simp only [hostAccess]
    split
    · rcases hostMemWrite_cases sp a v s with ⟨_, h⟩ | ⟨_, h | h⟩ <;> rw [h] <;> simp
    · rfl

end Sys2Proof.Machine
end

