-- ==== Sys2Proof/Laws/PerInstr.lean ====
section
/-! SUPPORT. Families of statements about every command as syntax, one lemma for each constructor. -/

namespace Sys2Proof.Laws.EncodedFields

/-- The opcode of a command (30_encoding.md R111). -/
def opcode : Instr → BitVec 4
  | .encodeFrame  => 1#4
  | .decodeFrame  => 2#4
  | .modulate _ _ => 3#4
  | .demodulate   => 4#4
  | .discriminate => 5#4
  | .demodStep    => 6#4
  | .demodReset   => 7#4
  | .crc16        => 8#4
  | .demodTrial _ => 9#4

/-- The immediates of a command (30_encoding.md R112). -/
def immediates : Instr → Byte × Byte
  | .modulate nb ne => (nb, ne)
  | .demodTrial o   => (o, 0#8)
  | .encodeFrame    => (0#8, 0#8)
  | .decodeFrame    => (0#8, 0#8)
  | .demodulate     => (0#8, 0#8)
  | .discriminate   => (0#8, 0#8)
  | .demodStep      => (0#8, 0#8)
  | .demodReset     => (0#8, 0#8)
  | .crc16          => (0#8, 0#8)

/-- The word of a command holds its opcode and its immediates in their fields, and 0 in the reserved ones
(30_encoding.md R110). -/
def Statement (i : Instr) : Prop :=
  opField (encode i) = opcode i ∧ reservedLow (encode i) = 0#4 ∧ reservedHigh (encode i) = 0#8 ∧
    immA (encode i) = (immediates i).1 ∧ immB (encode i) = (immediates i).2

theorem encodeFrame : Statement .encodeFrame := by unfold Statement; decide

theorem decodeFrame : Statement .decodeFrame := by unfold Statement; decide

theorem modulate (nb ne : Byte) : Statement (.modulate nb ne) := by
  simp only [Statement, opField, reservedLow, reservedHigh, immA, immB, encode, opcode, immediates]
  refine ⟨?_, ?_, ?_, ?_, ?_⟩ <;> ext i hi <;> simp <;> interval_cases i <;> simp

theorem demodulate : Statement .demodulate := by unfold Statement; decide

theorem discriminate : Statement .discriminate := by unfold Statement; decide

theorem demodStep : Statement .demodStep := by unfold Statement; decide

theorem demodReset : Statement .demodReset := by unfold Statement; decide

theorem crc16 : Statement .crc16 := by unfold Statement; decide

theorem demodTrial (o : Byte) : Statement (.demodTrial o) := by
  simp only [Statement, opField, reservedLow, reservedHigh, immA, immB, encode, opcode, immediates]
  refine ⟨?_, ?_, ?_, ?_, ?_⟩ <;> ext i hi <;> simp <;> interval_cases i <;> simp

end Sys2Proof.Laws.EncodedFields
end

