-- ==== Sys2Proof/Tests/Slice0.lean ====
section
/-! SUPPORT. Tests: words written out from the encodings of 30_encoding.md, single commands against the vectors of
95_test_vectors.md, and for each obligation with hypotheses a witness that meets them (`test_wit_…`). -/

open Sys2Proof Sys2Proof.Machine Sys2Proof.Claims

namespace Sys2Proof.Tests

/-! ### Helpers -/

/-- The registers after reset. -/
def regs0 : Regs := Regs.reset Config.reference

/-- The state after reset with other registers. -/
def withRegs (g : Regs) : State := { State.reset with regs := g }

/-- The state after reset with the bytes `bs` in `OCT` from `a` on, and `SRC_ADDR`, `SRC_LEN`, `DST_ADDR` set. -/
def octAt (a : Nat) (bs : List Byte) (d : Word) : State :=
  { State.reset with
    oct := cellsFrom a bs
    regs := { regs0 with srcAddr := BitVec.ofNat 32 a, srcLen := BitVec.ofNat 32 bs.length, dstAddr := d } }

/-- The state after reset with the samples `bs` in `SMP` from `a` on, and `SRC_ADDR`, `SRC_LEN`, `DST_ADDR` set. -/
def smpAt (a : Nat) (bs : List Byte) (d : Word) : State :=
  { State.reset with
    smp := cellsFrom a bs
    regs := { regs0 with srcAddr := BitVec.ofNat 32 a, srcLen := BitVec.ofNat 32 bs.length, dstAddr := d } }

/-- The state after reset with the registers `g` and the window `w` at `SMP[0]`. -/
def smpRegs (g : Regs) (w : List Byte) : State := { State.reset with smp := cellsFrom 0 w, regs := g }

/-- The state after reset with `w` in the latch. -/
def pendingOn (w : Word) : State := { State.reset with latch := some w }

/-- The state after reset with the host access `h` next. -/
def hostNext (h : HostAccess) : State := { State.reset with schedule := [.host h] }

/-- The state after reset with `w` in the latch and the host access `h` next. -/
def busyNext (w : Word) (h : HostAccess) : State := { State.reset with latch := some w, schedule := [.host h] }

/-- A part of the next state. -/
def after {α : Type} (p : State → α) (r : Host.Outcome State Fault Refusal) : Option α :=
  match r with
  | .next s    => some (p s)
  | .fault _   => none
  | .refused _ => none

/-- Bytes of a memory as a list. -/
def bytes (m : Memory) : List Byte := m.map (·.2)

/-- Bytes from numbers. -/
def ofNats (l : List Nat) : List Byte := l.map (BitVec.ofNat 8)

/-- "PIRATE", SSID 1 in the callsign registers (95_test_vectors.md P1). -/
def pirateCall (g : Regs) : Regs := { g with callLo := 0x41524950#32, callHi := 0x4554#32, frameCfg := 0x601#32 }

/-- ">HELLO". -/
def hello : List Byte := ofNats [0x3E, 0x48, 0x45, 0x4C, 0x4C, 0x4F]

/-- The PIRATE frame (V-ENC-4). -/
def pirateFrame : List Byte :=
  ofNats [0x82, 0xA0, 0xB4, 0x60, 0x60, 0x62, 0xE0, 0xA0, 0x92, 0xA4, 0x82, 0xA8]
    ++ ofNats [0x8A, 0x63, 0x03, 0xF0, 0x3E, 0x48, 0x45, 0x4C, 0x4C, 0x4F, 0x94, 0x93]

/-- The pattern of a LOW bit and of a HIGH bit (41_modulator.md R143). -/
def lowBit : List Byte := ofNats [128, 196, 224, 196, 128, 60, 32, 60]

/-- The pattern of a HIGH bit (41_modulator.md R143). -/
def highBit : List Byte := ofNats [128, 224, 128, 32, 128, 224, 128, 32]

/-- The 16 bytes `01 02 .. 10` (V-PS-7). -/
def shortest : List Byte := ofNats [1, 2, 3, 4, 5, 6, 7, 8, 9, 10, 11, 12, 13, 14, 15, 16]

/-- Their modulation with one marker on each side (V-PS-7). -/
def shortestSamples : List Byte := synthesize Config.reference .low 0 (lineBits Config.reference shortest 1 1)

/-- A state that holds `ENCODE_FRAME`'s operands for ">HELLO" at 0x100, output at 0x200 (P1). -/
def encodeState : State :=
  { State.reset with
    oct := cellsFrom 0x100 hello
    regs := { pirateCall regs0 with srcAddr := 0x100#32, srcLen := 6#32, dstAddr := 0x200#32 } }

/-! ### Well-formedness and decoding -/

/-- 30_encoding.md R112: the offset is 0..7. -/
theorem test_wf_trial : (Instr.demodTrial 8#8).wf = false ∧ (Instr.demodTrial 0xFF#8).wf = false ∧
    (Instr.demodTrial 7#8).wf = true := by decide

/-- 30_encoding.md R112: the marker counts take every value. -/
theorem test_wf_modulate : (Instr.modulate 0xFF#8 0xFF#8).wf = true := by decide

/-- 30_encoding.md R113: one word of each command, bit by bit. -/
theorem test_decode_words :
    decode 0b00000000000000000000000000000001#32 = .ok .encodeFrame ∧
    decode 0b00000000000000000000000000000010#32 = .ok .decodeFrame ∧
    decode 0b00000000000000010000001000000011#32 = .ok (.modulate 2#8 1#8) ∧
    decode 0b00000000000000000000000000000100#32 = .ok .demodulate ∧
    decode 0b00000000000000000000000000000101#32 = .ok .discriminate ∧
    decode 0b00000000000000000000000000000110#32 = .ok .demodStep ∧
    decode 0b00000000000000000000000000000111#32 = .ok .demodReset ∧
    decode 0b00000000000000000000000000001000#32 = .ok .crc16 ∧
    decode 0b00000000000000000000011100001001#32 = .ok (.demodTrial 7#8) := by decide

/-- V-ENCW-1 to 7 and 9: illegal words. -/
theorem test_decode_illegal :
    decode 0x00000010#32 = .error .reservedBits ∧ decode 0x00000000#32 = .error .reservedOpcode ∧
    decode 0x0000000F#32 = .error .reservedOpcode ∧ decode 0x00000101#32 = .error .unusedImmediate ∧
    decode 0x01000003#32 = .error .reservedBits ∧ decode 0x00000013#32 = .error .reservedBits ∧
    decode 0x00000809#32 = .error .offsetAbove7 ∧ decode 0x00010009#32 = .error .unusedImmediate ∧
    decode 0xFFFF0003#32 = .error .reservedBits := by decide

/-- V-ENCW-10: `MODULATE 255, 255`. -/
theorem test_encode_modulate : encode (.modulate 255#8 255#8) = 0x00FFFF03#32 ∧
    decodeTableWord 32 0x00FFFF03 = some (.modulate 255#8 255#8) := by decide

/-- V-REG-1, and the register map's offsets (10_state.md R32). -/
theorem test_reg_map : regOrder.map Reg.offset = (List.range 20).map (4 * ·) ∧ State.reset.regValue .id = 0x4146534B#32 ∧
    State.reset.regRead 0x50 = 0#32 := by decide

/-! ### The commands -/

/-- V-CRC-5. -/
theorem test_crc_check_value : crc16 (ofNats [0x31, 0x32, 0x33, 0x34, 0x35, 0x36, 0x37, 0x38, 0x39]) = 0x906E#16 := by
  decide

/-- V-CRC-9: the residue; nothing but `STATUS` and `RESULT_AUX` changes. -/
theorem test_crc_residue : after (fun t => (t.regs.resultAux, t.regs.resultLen, t.status, t.mark))
    (exec .crc16 (octAt 0 pirateFrame 0#32)) = some (0x0F47#32, 0#32, 2#32, false) := by decide +kernel

/-- V-ENC-4. -/
theorem test_encode_pirate : after (fun t => ((bytes t.oct).drop 6, t.regs.resultLen, t.regs.resultAux, t.status))
    (exec .encodeFrame encodeState) = some (pirateFrame, 24#32, 0x9394#32, 2#32) := by decide +kernel

/-- V-ENC-8: `FORMAT_ERROR` wins over the output range. -/
theorem test_encode_priority : after (fun t => t.status) (exec .encodeFrame { State.reset with
      oct := cellsFrom 0 [0#8]
      regs := { regs0 with frameCfg := 0x700#32, srcLen := 1#32, dstAddr := 0xFFFFFFFF#32 } }) = some 0x102#32 := by
  decide

/-- V-DEC-1. -/
theorem test_decode_pirate :
    after (fun t => (t.regs.callLo, t.regs.callHi, t.regs.frameCfg, t.regs.ctrlPid, t.regs.crc))
      (exec .decodeFrame (octAt 0x100 pirateFrame 0#32)) =
    some (0x41524950#32, 0x4554#32, 0x601#32, 0xF003#32, 0x93949394#32) := by decide +kernel

/-- V-DEC-2: a bad trailer, every result written. -/
theorem test_decode_bad_crc :
    after (fun t => (t.status, t.regs.crc, t.regs.payloadOff, t.regs.payloadLen, t.regs.resultAux))
      (exec .decodeFrame (octAt 0x100 (pirateFrame.take 23 ++ [0x92#8]) 0#32)) =
    some (0x302#32, 0x92949394#32, 0x110#32, 6#32, 14#32) := by decide +kernel

/-- V-MOD-12: a stuffed bit in the data, none in the markers. -/
theorem test_modulate_bits : lineBits Config.reference [0x7E#8] 1 1 =
    [false, false, false, false, false, false, false, false, false, true, true, true, true, true, true, false] ++
    [false, true, true, true, true, true, false, true, false, false, true, true, true, true, true, true, false] := by
  decide

/-- V-MOD-3: the tones `HLHLHLHL LLLLL H HHH`, eight samples each. -/
theorem test_modulate_samples : after (fun t => (bytes t.smp, t.regs.resultLen, t.regs.resultAux))
    (exec (.modulate 0#8 0#8) (octAt 0 [0xFF#8] 0#32)) =
    some (highBit ++ lowBit ++ highBit ++ lowBit ++ highBit ++ lowBit ++ highBit ++ lowBit ++
      lowBit ++ lowBit ++ lowBit ++ lowBit ++ lowBit ++ highBit ++ highBit ++ highBit ++ highBit, 136#32, 17#32) := by
  decide

/-- V-DISC-11. -/
theorem test_disc_negative : after (fun t => (t.regs.resultAux, t.status))
    (exec .discriminate (smpAt 65528 (ofNats [255, 255, 255, 255, 0, 0, 0, 0]) 0#32)) = some (0xFE339E30#32, 2#32) := by
  decide

/-- V-DISC-14: a window that straddles a tone change. -/
theorem test_disc_straddle : disc Config.reference (ofNats [128, 60, 32, 60, 128, 224, 128, 32]) = -887040 := by decide

/-- V-STEP-2, j = 24: a byte inside an escape window. -/
theorem test_step_byte :
    after (fun t => (t.regs.dmState, t.regs.dmBitidx, t.regs.dmStart, t.regs.dmEvent, t.regs.resultAux))
      (exec .demodStep (smpRegs { regs0 with dmState := 0x00FE0423#32, dmBitidx := 24#32, dmStart := 16#32 } highBit)) =
    some (0x00000333#32, 25#32, 16#32, 0x0003FF03#32, 0x00900000#32) := by decide

/-- V-STEP-2, j = 21: a stuffed bit. -/
theorem test_step_skip :
    after (fun t => (t.regs.dmState, t.regs.dmBitidx, t.regs.dmStart, t.regs.dmEvent))
      (exec .demodStep (smpRegs { regs0 with dmState := 0x00F80052#32, dmBitidx := 21#32, dmStart := 15#32 } highBit)) =
    some (0x00F80603#32, 22#32, 16#32, 0x00020002#32) := by decide

/-- V-STEP-1. -/
theorem test_demod_reset :
    after (fun t => (t.regs.dmState, t.regs.dmBitidx, t.regs.dmStart, t.regs.dmEvent, t.status))
      (exec .demodReset (withRegs { regs0 with dmState := 0x00FF0FF3#32, dmBitidx := 9#32, dmStart := 8#32 })) =
    some (0#32, 0#32, 0#32, 0#32, 2#32) := by decide

/-- V-PS-7: the trial at offset 0 finds the 16 bytes; it is also the witness of the statements about a trial that finds
a frame. -/
theorem test_trial_finds : trial Config.reference shortestSamples 0 = some shortest := by decide +kernel

/-- V-PS-9: no window, no frame. -/
theorem test_trial_empty : after (fun t => t.status) (exec (.demodTrial 7#8) (smpAt 0 lowBit 0#32)) = some 0x202#32 ∧
    after (fun t => t.status) (exec .demodulate (smpAt 0 [] 0#32)) = some 0x202#32 := by decide

/-! ### The host, the engine, the resets -/

/-- V-REG-3 and V-STEP-5: reserved bits are not stored. -/
theorem test_reg_masks :
    after (fun t => t.regs.frameCfg) (step (hostNext (.regWrite 0x2C 32 0xFFFFFFFF#32))) = some 0xFFF#32 ∧
    after (fun t => t.regs.dmState) (step (hostNext (.regWrite 0x40 32 0xFFFFFFFF#32))) = some 0x00FF0FF3#32 := by decide

/-- V-REG-6: an overrun. -/
theorem test_overrun : after (fun t => (t.status, t.regs.cmd, t.latch))
    (step (busyNext 1#32 (.regWrite 0x0C 32 2#32))) = some (5#32, 0#32, some 1#32) := by decide

/-- P3: the word 0x10 completes with `ILLEGAL_COMMAND`. -/
theorem test_illegal_completes : after (fun t => (t.status, t.regs.cmd)) (step (State.reset.withFetchWord 32 0x10)) =
    some (0x402#32, 0x10#32) := by decide

/-- The step after `withFetchWord` performs the command (`MODULATE 0, 0`, V-MOD-1). -/
theorem test_fetch_runs : after (fun t => (t.regs.resultLen, t.regs.cmd, t.schedule))
    (step (State.reset.withFetchWord 32 0x3)) = some (64#32, 3#32, []) := by decide

/-- V-RST-2: a soft reset while `MODULATE 0, 0` is pending makes its 64 samples unwritten, and no other. -/
theorem test_soft_reset : after (fun t => (t.smp, t.latch, t.regs == regs0))
    (step { busyNext 3#32 (.regWrite 4 32 2#32) with smp := cellsFrom 63 [1#8, 2#8] }) =
    some ([(64, 2#8)], none, true) := by decide

/-- 20_memory.md R96: an access to memory while busy sets the mark. -/
theorem test_busy_access_marks : after (fun t => t.mark) (step (busyNext 1#32 (.memWrite .oct 0 1#8))) = some true := by
  unfold step busyNext
  rcases hostMemWrite_cases .oct 0 1#8 { State.reset with latch := some 1#32 } with ⟨h, _⟩ | ⟨_, h | h⟩
  · exact absurd h (by decide)
  all_goals exact congrArg (fun x : State => some x.mark) h

/-! ### Witnesses of the obligations' hypotheses -/

/-- The bytes written by `cellsFrom` are held. -/
theorem holds_cellsFrom (a : Nat) (bs : List Byte) : Holds (cellsFrom a bs) a bs := by
  intro i h
  rw [read_cellsFrom]
  simp [h]

theorem test_wit_DecodeOfEncode : (Instr.demodTrial 7#8).wf = true ∧ (Instr.modulate 255#8 0#8).wf = true := by decide

theorem test_wit_EncodeOfDecode : decode 0x00000709#32 = .ok (.demodTrial 7#8) := by decide

theorem test_wit_LegalWords :
    (⟨"MODULATE", 0x00000003#32, 0xFF0000FF#32⟩ : OpcodeRow) ∈ opcodeRows ∧
    0x00FF0003#32 &&& 0xFF0000FF#32 = 0x00000003#32 ∧ decode 0x00FF0003#32 = .ok (.modulate 0#8 0xFF#8) := by decide

theorem test_wit_Assembler : (∀ v, AsmLine.crc16 ≠ .rawWord v) ∧ assemble (.modulate 255 255) = some 0x00FFFF03#32 ∧ assemble (.modulate 256 0) = none ∧
    assemble (.demodTrial 7) = some 0x00000709#32 ∧ assemble (.demodTrial 8) = none :=
  ⟨fun _ => nofun, by decide⟩

theorem test_wit_EngineTurn :
    let s := State.reset.withFetchWord 32 0x5
    EngineNext s [] ∧ s.latch = some 5#32 ∧ s.disturbed = false ∧ decode 5#32 = .ok .discriminate ∧
    EngineNext (pendingOn 5#32) [] ∧ EngineNext State.reset [] ∧ State.reset.latch = none := by decide

theorem test_wit_IllegalWord : EngineNext (pendingOn 0x10#32) [] ∧ (pendingOn 0x10#32).latch = some 0x10#32 ∧
    ∀ row ∈ opcodeRows, 0x10#32 &&& row.mask ≠ row.matchBits := by decide

theorem test_wit_KeepsInvariant : (octAt 4095 [1#8] 0#32).Inv ref ∧
    step (octAt 4095 [1#8] 0#32) = .next (octAt 4095 [1#8] 0#32) := by
  refine ⟨⟨by decide, by decide, ?_, ?_, by decide, by decide, by decide, by decide, by decide, ?_, by decide⟩, rfl⟩
  · intro x hx
    simp only [octAt, cellsFrom, List.mem_singleton] at hx
    subst hx
    decide
  · intro x hx
    cases hx
  · intro _ h
    exact absurd h (by decide)

/-- A pending command right after acceptance meets the invariant. -/
theorem pending_inv (w : Word) (es : List Event) : ({ State.reset with latch := some w, schedule := es } : State).Inv ref :=
  have h : regs0.callHi &&& ~~~callHiMask = 0#32 ∧ regs0.frameCfg &&& ~~~frameCfgMask = 0#32 ∧
      regs0.ctrlPid &&& ~~~ctrlPidMask = 0#32 ∧ regs0.dmState &&& ~~~dmStateMask = 0#32 ∧
      regs0.dmEvent &&& ~~~dmEventMask = 0#32 := by decide
  ⟨.nil, .nil, fun _ h => (List.not_mem_nil h).elim, fun _ h => (List.not_mem_nil h).elim, h.1, h.2.1, h.2.2.1, h.2.2.2.1,
   h.2.2.2.2, fun _ _ => ⟨rfl, rfl⟩, fun h => absurd h (by decide : ¬ State.reset.disturbed = true)⟩

theorem test_wit_Mark : ∀ h ∈ [HostAccess.regRead 0xFD 32, .regWrite 0 8 0#32, .memRead .oct 4095, .memWrite .smp 65535 0#8],
    HostNext (busyNext 1#32 h) h [] ∧ (busyNext 1#32 h).Inv ref ∧ Violates h (busyNext 1#32 h) := by
  intro h hh
  refine ⟨rfl, pending_inv _ _, ?_⟩
  simp only [List.mem_cons, List.not_mem_nil, or_false] at hh
  rcases hh with rfl | rfl | rfl | rfl <;> decide

theorem test_wit_StatusEvents : (∃ t, step (busyNext 1#32 (.regWrite 0x0C 32 2#32)) = .next t) ∧
    ∀ h rest, HostNext (busyNext 1#32 (.regWrite 0x0C 32 2#32)) h rest → ¬ Violates h (busyNext 1#32 (.regWrite 0x0C 32 2#32)) := by
  refine ⟨⟨_, rfl⟩, fun h rest hn => ?_⟩
  have e : HostAccess.regWrite 0x0C 32 2#32 = h := by simpa [HostNext, busyNext] using (List.cons.inj hn).1
  subst e
  decide

theorem test_wit_MarkUnwritten : EngineNext (pendingOn 5#32) [] ∧ (pendingOn 5#32).Inv ref ∧
    ReadsUnwritten .discriminate (pendingOn 5#32) ∧ ∃ t, step (pendingOn 5#32) = .next t :=
  ⟨.inr ⟨rfl, rfl⟩, pending_inv _ _, ⟨.smp, 0, 8, rfl, by decide, 7, by decide, by decide, rfl⟩, _, rfl⟩

theorem test_wit_Pending : (busyNext 1#32 (.regRead 8 32)).latch ≠ none := by decide

theorem test_wit_CmdAccepted :
    let s := hostNext (.regWrite 0x0C 32 0x10#32)
    HostNext s (.regWrite 0x0C 32 0x10#32) [] ∧ s.latch = none := by decide

theorem test_wit_CmdDropped :
    let s := busyNext 1#32 (.regWrite 0x0C 32 2#32)
    HostNext s (.regWrite 0x0C 32 2#32) [] ∧ s.latch ≠ none := by decide

theorem test_wit_OtherWrites : ∀ off ∈ [0x00, 0x10, 0x4C, 0x50, 0xFC],
    let s := busyNext 1#32 (.regWrite off 32 5#32)
    HostNext s (.regWrite off 32 5#32) [] ∧ s.latch ≠ none ∧ off % 4 = 0 ∧ off < 0x100 ∧ off ≠ 0x04 ∧ off ≠ 0x08 ∧
      off ≠ 0x0C := by decide

theorem test_wit_RegisterWrite : ∀ r ∈ [Reg.id, Reg.srcAddr, Reg.callHi, Reg.resultLen, Reg.dmEvent],
    let s := hostNext (.regWrite r.offset 32 0xFFFFFFFF#32)
    HostNext s (.regWrite r.offset 32 0xFFFFFFFF#32) [] ∧ s.latch = none ∧ r ≠ .ctrl ∧ r ≠ .status ∧ r ≠ .cmd := by
  decide

theorem test_wit_UnmappedWrite : ∀ off ∈ [0x50, 0xFC],
    let s := hostNext (.regWrite off 32 0xFFFFFFFF#32)
    HostNext s (.regWrite off 32 0xFFFFFFFF#32) [] ∧ s.latch = none ∧ off % 4 = 0 ∧ 0x50 ≤ off ∧ off < 0x100 := by decide

theorem test_wit_RegisterRead : ∀ off ∈ [0x00, 0x4C, 0x50, 0xFC],
    HostNext (hostNext (.regRead off 32)) (.regRead off 32) [] ∧ off % 4 = 0 ∧ off < 0x100 := by decide

theorem test_wit_StatusWrite : HostNext (hostNext (.regWrite 0x08 32 6#32)) (.regWrite 0x08 32 6#32) [] ∧
    (6#32 : Word).getLsbD 1 = true := by decide

theorem test_wit_CtrlWrite : HostNext (hostNext (.regWrite 0x04 32 0xFFFFFFFD#32)) (.regWrite 0x04 32 0xFFFFFFFD#32) [] ∧
    (0xFFFFFFFD#32 : Word).getLsbD 1 = false := by decide

theorem test_wit_SoftReset :
    let a := HostAccess.regWrite 0x04 32 3#32
    HostNext (hostNext a) a [] ∧ (3#32 : Word).getLsbD 1 = true ∧ (hostNext a).latch = none ∧
    HostNext (busyNext 0x10#32 a) a [] ∧ decode 0x10#32 = .error .reservedBits ∧
    HostNext (busyNext 3#32 a) a [] ∧ decode 3#32 = .ok (.modulate 0#8 0#8) ∧ (busyNext 3#32 a).disturbed = false ∧
    after (fun u => u.regs.err) (exec (.modulate 0#8 0#8) (busyNext 3#32 a)) = some .ok := by decide

theorem test_wit_PowerOn : ({ State.reset with schedule := [.powerOn] } : State).schedule = .powerOn :: [] := rfl

theorem test_wit_HostMemory :
    HostNext (hostNext (.memWrite .oct 4095 1#8)) (.memWrite .oct 4095 1#8) [] ∧ 4095 < bytesIn .oct ∧
    HostNext (hostNext (.memRead .smp 65535)) (.memRead .smp 65535) [] ∧ 65535 < bytesIn .smp ∧
    (hostNext (.memRead .smp 65535)).latch = none ∧ ((hostNext (.memRead .smp 65535)).mem .smp).read 65535 = none ∧
    ((octAt 4095 [1#8] 0#32).mem .oct).read 4095 = some 1#8 := by decide

theorem test_wit_InputOutOfRange : (Instr.discriminate).wf = true ∧
    inputRange .discriminate { regs0 with srcAddr := 65529#32 } = some (.smp, 65529, 8) ∧ bytesIn .smp < 65529 + 8 := by
  decide

theorem test_wit_Failing : ∃ t, exec .discriminate (withRegs { regs0 with srcAddr := 65529#32 }) = .next t ∧
    t.regs.err ≠ .ok ∧ t.regs.err ≠ .invalidChecksum := ⟨_, rfl, by decide, by decide⟩

theorem test_wit_Operands :
    let s' := withRegs { regs0 with dstAddr := 9#32, callLo := 7#32 }
    s'.oct = State.reset.oct ∧ s'.smp = State.reset.smp ∧ s'.draws = State.reset.draws ∧
    AgreeOnOperands .crc16 State.reset.regs s'.regs ∧ ∃ t, exec .crc16 State.reset = .next t ∧ t.regs.err = .ok :=
  ⟨rfl, rfl, rfl, ⟨rfl, rfl⟩, _, rfl, by decide⟩

theorem test_wit_Errors : (Instr.demodTrial 7#8).wf = true ∧ ∃ t, exec (.demodTrial 7#8) State.reset = .next t :=
  ⟨by decide, _, rfl⟩

theorem test_wit_RegisterFrame : outputSpace .demodStep = none ∧
    ∃ t, exec .demodStep (smpRegs regs0 highBit) = .next t := ⟨rfl, _, rfl⟩

theorem test_wit_StoringFrame : outputSpace .encodeFrame = some .oct ∧
    ∃ t, exec .encodeFrame encodeState = .next t ∧ t.regs.err = .ok := ⟨rfl, _, rfl, by decide⟩

theorem test_wit_EncodeFrame : InputAt encodeState .oct hello ∧ callLength encodeState.regs ≤ 6 ∧
    encodeState.regs.dstAddr.toNat + (18 + hello.length) ≤ 4096 ∧
    encodeState.regs.srcAddr.toNat + hello.length ≤ encodeState.regs.dstAddr.toNat :=
  ⟨⟨by decide, by decide, holds_cellsFrom 0x100 hello⟩, by decide, by decide, by decide⟩

theorem test_wit_EncodeEmpty : InputAt (octAt 4096 [] 4078#32) .oct [] ∧
    (octAt 4096 [] 4078#32).regs.dstAddr.toNat + 18 ≤ 4096 :=
  ⟨⟨by decide, by decide, holds_cellsFrom 4096 []⟩, by decide⟩

theorem test_wit_DecodeFrame : InputAt (octAt 0x100 pirateFrame 0#32) .oct pirateFrame ∧ IsTerminator pirateFrame 13 ∧
    13 + 5 ≤ pirateFrame.length ∧ IsTrimmed pirateFrame 6 :=
  ⟨⟨by decide, by decide, holds_cellsFrom 0x100 pirateFrame⟩,
   ⟨by decide, by decide, by decide, fun i h1 h2 => absurd h1 (by omega)⟩, by decide,
   ⟨by decide, fun k h1 h2 => absurd h1 (by omega), fun _ => by decide⟩⟩

theorem test_wit_BadFormats :
    InputAt (octAt 0 (pirateFrame.take 13) 0#32) .oct (pirateFrame.take 13) ∧ (pirateFrame.take 13).length < 14 ∧
    InputAt (octAt 0 (List.replicate 14 0x40#8) 0#32) .oct (List.replicate 14 0x40#8) ∧
    (∀ i, 13 ≤ i → i < 14 → ((List.replicate 14 0x40#8).getD i 0#8).getLsbD 0 = false) ∧
    InputAt (octAt 0 (pirateFrame.take 17) 0#32) .oct (pirateFrame.take 17) ∧ IsTerminator (pirateFrame.take 17) 13 ∧
    (pirateFrame.take 17).length < 13 + 5 := by
  refine ⟨⟨by decide, by decide, holds_cellsFrom 0 _⟩, by decide, ⟨by decide, by decide, holds_cellsFrom 0 _⟩, ?_,
    ⟨by decide, by decide, holds_cellsFrom 0 _⟩, ⟨by decide, by decide, by decide, ?_⟩, by decide⟩
  · intro i h1 h2
    have h : i = 13 := by omega
    subst h
    decide
  · intro i h1 h2
    exact absurd h1 (by omega)

theorem test_wit_FrameRoundTrip : InputAt encodeState .oct hello ∧ callLength encodeState.regs ≤ 6 ∧
    encodeState.regs.dstAddr.toNat + (18 + hello.length) ≤ 4096 ∧
    encodeState.regs.srcAddr.toNat + hello.length ≤ encodeState.regs.dstAddr.toNat ∧
    (∀ k < callLength encodeState.regs, (char encodeState.regs k).toNat < 0x80) ∧
    char encodeState.regs (callLength encodeState.regs - 1) ≠ 0x20#8 ∧
    (encodeState.regs.frameCfg.extractLsb' 0 8).toNat < 16 :=
  ⟨test_wit_EncodeFrame.1, by decide, by decide, by decide, by decide, by decide, by decide⟩

theorem test_wit_Crc : InputAt (octAt 4072 pirateFrame 0#32) .oct pirateFrame :=
  ⟨by decide, by decide, holds_cellsFrom 4072 pirateFrame⟩

theorem test_wit_Modulate : InputAt (octAt 0 [0xFF#8] 65400#32) .oct [0xFF#8] ∧
    (octAt 0 [0xFF#8] 65400#32).regs.dstAddr.toNat + 8 * (lineBits ref [0xFF#8] 0 0).length ≤ 65536 :=
  ⟨⟨by decide, by decide, holds_cellsFrom 0 _⟩, by decide⟩

/-- One sample past the end of `SMP`: 72 samples of 9 line bits at 65465. -/
theorem test_wit_ModulateRange : InputAt (octAt 0 [0xFF#8] 65465#32) .oct [0xFF#8] ∧
    65536 < (octAt 0 [0xFF#8] 65465#32).regs.dstAddr.toNat + 8 * (lineBits ref [0xFF#8] 0 0).length :=
  ⟨⟨by decide, by decide, holds_cellsFrom 0 _⟩, by decide⟩

/-- A count that `RESULT_LEN` holds is stored; for 2^32 a draw is used up. -/
theorem test_storeLength : (storeLength (2 ^ 32 - 1) State.reset).regs.resultLen = 0xFFFFFFFF#32 ∧
    (storeLength (2 ^ 32) State.reset).draws = 1 := by decide

theorem test_wit_FlagsOccur :
    ((lineBits ref [0x7E#8] 1 1).drop 8).take 8 = [false, true, true, true, true, true, true, false] ∧
    ((lineBits ref [0x7E#8] 1 1).drop 25).take 8 = [false, true, true, true, true, true, true, false] ∧
    25 + 8 * (1 - 0) = (lineBits ref [0x7E#8] 1 1).length := by decide

theorem test_wit_LegalConfig : Config.reference.legal = true := by decide +kernel

theorem test_wit_Window : WindowAt (smpAt 65528 lowBit 0#32) lowBit :=
  ⟨by decide, by decide, holds_cellsFrom 65528 lowBit⟩

theorem test_wit_RomIndex : 65535 < 2 ^ ref.phaseBits := by decide

theorem test_wit_ScoreIsExact : lowBit.length = 8 := by decide

theorem test_wit_StepFlag : WindowAt (smpRegs { regs0 with dmState := 0x00FC0001#32 } lowBit) lowBit ∧
    FlagFires { regs0 with dmState := 0x00FC0001#32 } lowBit :=
  ⟨⟨by decide, by decide, holds_cellsFrom 0 lowBit⟩, by decide⟩

theorem test_wit_StepStuffed :
    let g := { regs0 with dmState := 0x00F80052#32 }
    WindowAt (smpRegs g highBit) highBit ∧ ¬ FlagFires g highBit ∧ inFrameOf g = true ∧ decodedBit g highBit = false ∧
      runOf g = 5#4 :=
  ⟨⟨by decide, by decide, holds_cellsFrom 0 highBit⟩, by decide, by decide, by decide, by decide⟩

theorem test_wit_StepData :
    let g := { regs0 with dmState := 0x00F800F2#32 }
    WindowAt (smpRegs g lowBit) lowBit ∧ ¬ FlagFires g lowBit ∧ inFrameOf g = true ∧
      ¬ (decodedBit g lowBit = false ∧ runOf g = 5#4) :=
  ⟨⟨by decide, by decide, holds_cellsFrom 0 lowBit⟩, by decide, by decide, by decide⟩

theorem test_wit_StepOutside : WindowAt (smpRegs regs0 highBit) highBit ∧ ¬ FlagFires regs0 highBit ∧
    inFrameOf regs0 = false :=
  ⟨⟨by decide, by decide, holds_cellsFrom 0 highBit⟩, by decide, by decide⟩

/-- The trial at offset 0 finds 16 bytes; they fit at 4080 and not at 4081, and an empty buffer has no frame. -/
theorem test_wit_Trial : (0#8 : Byte).toNat < 8 ∧ InputAt (smpAt 0 shortestSamples 4080#32) .smp shortestSamples ∧
    trial ref shortestSamples (0#8 : Byte).toNat = some shortest ∧
    (smpAt 0 shortestSamples 4080#32).regs.dstAddr.toNat + shortest.length ≤ 4096 ∧
    InputAt (smpAt 0 shortestSamples 4081#32) .smp shortestSamples ∧
    4096 < (smpAt 0 shortestSamples 4081#32).regs.dstAddr.toNat + shortest.length ∧
    InputAt (smpAt 0 [] 0#32) .smp [] ∧ ∀ o < 8, trial ref [] o = none := by
  have hlen : shortestSamples.length = 1216 := by
    rw [shortestSamples, synthesize_length]; decide +kernel
  have hin : ∀ d : Word, InputAt (smpAt 0 shortestSamples d) .smp shortestSamples := fun d =>
    ⟨by simp [smpAt, hlen], by simp [smpAt, hlen, bytesIn], holds_cellsFrom 0 _⟩
  exact ⟨by decide, hin _, test_trial_finds, by simp only [smpAt]; decide, hin _, by simp only [smpAt]; decide,
    ⟨by decide, by decide, holds_cellsFrom 0 []⟩, by decide⟩

theorem test_wit_PartialWindow : 0 ≤ lowBit.length ∧ (lowBit.length - 0) % 8 + (lowBit.take 7).length < 8 := by decide

theorem test_wit_ModemRoundTrip : InputAt (octAt 0 shortest 0#32) .oct shortest ∧ 16 ≤ shortest.length ∧
    1 ≤ (1#8 : Byte).toNat ∧
    (octAt 0 shortest 0#32).regs.dstAddr.toNat + 8 * (lineBits ref shortest 1 1).length ≤ 65536 ∧
    (4080#32 : Word).toNat + shortest.length ≤ 4096 :=
  ⟨⟨by decide, by decide, holds_cellsFrom 0 shortest⟩, by decide, by decide, by decide +kernel, by decide⟩

theorem test_wit_AlignedTrial : 16 ≤ shortest.length ∧ 1 ≤ 1 ∧ 1 ≤ 7 ∧ 7 ≤ 7 := by decide

theorem test_wit_Platform : (Platform.mk 0 0x100 0x1100).legal ref = true ∧
    0x11100 = (Platform.mk 0 0x100 0x1100).smpBase + 65536 := by decide

/-! ### A build other than the reference one (00_scope.md R12) -/

/-- A build with the HIGH initial tone and the smallest memories that hold 32 octets and 8 samples. -/
def smallBuild : Config := { Config.reference with initTone := .high, octSize := 32, smpSize := 8 }

theorem test_smallBuild_legal : smallBuild.legal = true := by decide +kernel

/-- 10_state.md R49: the reset value is `zext_32(INIT_TONE)`. -/
theorem test_smallBuild_reset : (State.resetOf smallBuild).regValue .dmState = 1#32 := by decide

/-- 41_modulator.md R134: with `INIT_TONE` HIGH the first bit, a 0, is sent at the LOW tone, so sample 1 is 196. -/
theorem test_smallBuild_modulates :
    ((perform { smallBuild with smpSize := 64 } (.modulate 0#8 0#8) State.reset).mem .smp).read 1 = some 196#8 := by decide

theorem test_wit_OtherBuild :
    ({ State.reset with schedule := [.powerOn] } : State).schedule = .powerOn :: [] ∧
    (Instr.discriminate).wf = true ∧ inputRange .discriminate { regs0 with srcAddr := 1#32 } = some (.smp, 1, 8) ∧
    bytesInBuild smallBuild .smp < 1 + 8 ∧
    HostNext (hostNext (.memWrite .oct 31 1#8)) (.memWrite .oct 31 1#8) [] ∧ 31 < bytesInBuild smallBuild .oct ∧
    HostNext (hostNext (.memWrite .oct 32 1#8)) (.memWrite .oct 32 1#8) [] ∧ bytesInBuild smallBuild .oct ≤ 32 ∧
    (hostNext (.memWrite .oct 31 1#8)).latch = none := by decide

theorem test_wit_OtherBuildSoftReset :
    let a := HostAccess.regWrite 0x04 32 2#32
    HostNext (busyNext 3#32 a) a [] ∧ (2#32 : Word).getLsbD 1 = true ∧ (busyNext 3#32 a).latch = some 3#32 ∧
    decode 3#32 = .ok (.modulate 0#8 0#8) ∧ (busyNext 3#32 a).disturbed = false := by decide

/-- An empty payload at 0 in a memory of 32, and a window of 8 at 0 in a memory of 8. -/
theorem test_wit_OtherBuildCommands :
    ([] : List Byte).length = State.reset.regs.srcLen.toNat ∧ Holds State.reset.oct 0 [] ∧
    callLength State.reset.regs ≤ 6 ∧ State.reset.regs.dstAddr.toNat + (18 + 0) ≤ smallBuild.octSize ∧
    ∀ g ∈ [{ regs0 with dmState := 0x00F80053#32 }, { regs0 with dmState := 0x00F80052#32 }],
      lowBit.length = 8 ∧ (smpRegs g lowBit).regs.srcAddr.toNat + 8 ≤ smallBuild.smpSize ∧
      Holds (smpRegs g lowBit).smp 0 lowBit ∧ ¬ (escOf g = 0#4 ∧ shiftedIn smallBuild g lowBit = 0x7E#8) ∧
      inFrameOf g = true ∧ runOf g = 5#4 ∧ bitIn smallBuild g lowBit = !g.dmState.getLsbD 0 := by
  refine ⟨by decide, holds_cellsFrom 0 [], by decide, by decide, fun g hg => ?_⟩
  simp only [List.mem_cons, List.not_mem_nil, or_false] at hg
  rcases hg with rfl | rfl <;>
    exact ⟨by decide, by decide, holds_cellsFrom 0 lowBit, by decide, by decide, by decide, by decide⟩

/-- The eight idle bits are 64 samples: they fit a memory of 64 and not one of 8. -/
theorem test_wit_OtherBuildModulate :
    State.reset.regs.dstAddr.toNat + 8 * (lineBits smallBuild [] 0 0).length ≤ 64 ∧
    smallBuild.smpSize < State.reset.regs.dstAddr.toNat + 8 * (lineBits smallBuild [] 0 0).length := by decide

theorem test_wit_OtherBuildInvariant : smallBuild.legal = true ∧ (State.resetOf smallBuild).Inv smallBuild ∧
    nextStep smallBuild (State.resetOf smallBuild) = .next (State.resetOf smallBuild) :=
  ⟨test_smallBuild_legal,
   ⟨.nil, .nil, fun _ h => (List.not_mem_nil h).elim, fun _ h => (List.not_mem_nil h).elim, by decide, by decide,
    by decide, by decide, by decide, fun _ h => absurd h (by decide), by decide⟩, rfl⟩

end Sys2Proof.Tests
end

section
/-! PROOFS. The words of the demodulator's registers, bit by bit, and the invariant of the state, kept by every step of
every legal build. -/

open Sys2Proof Sys2Proof.Machine Sys2Proof.Claims

namespace Sys2Proof.Machine

/-! ### The words of `DM_STATE` and `DM_EVENT` -/

theorem getElem_bitWord (b : Bool) (i : Nat) (hi : i < 32) : (bitWord b)[i] = (b && decide (i = 0)) := by
  cases b <;> simp [bitWord, BitVec.getElem_one]

theorem getLsbD_dmStateOf (sreg : Byte) (esc run : BitVec 4) (inFrame tone : Bool) (i : Nat) :
    (dmStateOf sreg esc run inFrame tone).getLsbD i =
      if i < 1 then tone else if i < 2 then inFrame else if i < 4 then false else if i < 8 then run.getLsbD (i - 4)
      else if i < 12 then esc.getLsbD (i - 8) else if i < 16 then false else sreg.getLsbD (i - 16) := by
  unfold dmStateOf
  change BitVec.getLsbD (w := 8 + 8 + 4 + 4 + 4 + 2 + 1 + 1) _ i = _
  simp only [BitVec.getLsbD_append, BitVec.getLsbD_ofBool, BitVec.getLsbD_zero]
  grind

theorem getLsbD_dmEventOf (code : BitVec 2) (v : Byte) (bit tone : Bool) (i : Nat) :
    (dmEventOf code v bit tone).getLsbD i =
      if i < 2 then code.getLsbD i else if i < 8 then false else if i < 16 then v.getLsbD (i - 8)
      else if i < 17 then bit else if i < 18 then tone else false := by
  unfold dmEventOf
  change BitVec.getLsbD (w := 14 + 1 + 1 + 8 + 6 + 2) _ i = _
  simp only [BitVec.getLsbD_append, BitVec.getLsbD_ofBool, BitVec.getLsbD_zero]
  grind

/-- The shifted fields of `DM_STATE` are the concatenated ones (10_state.md R49). -/
theorem dmStateWord_eq_dmStateOf (st : DemodState) : dmStateWord st =
    dmStateOf st.sreg (BitVec.ofNat 4 st.esc) (BitVec.ofNat 4 st.run) st.inFrame (toneBit st.prev) := by
  refine BitVec.eq_of_getLsbD_eq fun i hi => ?_
  rw [getLsbD_dmStateOf, dmStateWord]
  interval_cases i <;> simp [getElem_bitWord]

/-- The shifted fields of `DM_EVENT` are the concatenated ones (10_state.md R52). -/
theorem dmEventWord_eq_dmEventOf (ev : DemodEvent) (bit : Bool) (tone : Tone) :
    dmEventWord ev bit tone = dmEventOf ev.code ev.value bit (toneBit tone) := by
  refine BitVec.eq_of_getLsbD_eq fun i hi => ?_
  rw [getLsbD_dmEventOf, dmEventWord]
  interval_cases i <;> simp [getElem_bitWord]

/-! ### Reserved bits -/

/-- The clauses of the invariant on reserved register bits (10_state.md R32). A plain conjunction over five registers,
so that an update of any other register keeps it by definition. -/
def Regs.ReservedClear (g : Regs) : Prop :=
  g.callHi &&& ~~~callHiMask = 0#32 ∧ g.frameCfg &&& ~~~frameCfgMask = 0#32 ∧ g.ctrlPid &&& ~~~ctrlPidMask = 0#32 ∧
  g.dmState &&& ~~~dmStateMask = 0#32 ∧ g.dmEvent &&& ~~~dmEventMask = 0#32

theorem State.Inv.reservedClear {c : Config} {s : State} (h : s.Inv c) : s.regs.ReservedClear :=
  ⟨h.callHiReserved, h.frameCfgReserved, h.ctrlPidReserved, h.dmStateReserved, h.dmEventReserved⟩

theorem and_mask_and_not_mask (v m : Word) : v &&& m &&& ~~~m = 0#32 := by
  rw [BitVec.and_assoc, BitVec.and_not_self]
  exact BitVec.and_zero

/-- A word whose bits outside the mask are 0, bit by bit. -/
theorem and_not_mask_of_bits {v m : Word} (h : ∀ i < 32, m.getLsbD i = false → v.getLsbD i = false) :
    v &&& ~~~m = 0#32 := by
  refine BitVec.eq_of_getLsbD_eq fun i hi => ?_
  rw [BitVec.getLsbD_and, BitVec.getLsbD_not, BitVec.getLsbD_zero]
  cases hm : m.getLsbD i with
  | true => simp
  | false => rw [h i hi hm, Bool.false_and]

theorem dmStateWord_reserved (st : DemodState) : dmStateWord st &&& ~~~dmStateMask = 0#32 := by
  refine and_not_mask_of_bits fun i hi => ?_
  rw [dmStateWord_eq_dmStateOf, getLsbD_dmStateOf, dmStateMask]
  interval_cases i <;> simp

theorem dmEventWord_reserved (ev : DemodEvent) (bit : Bool) (tone : Tone) :
    dmEventWord ev bit tone &&& ~~~dmEventMask = 0#32 := by
  refine and_not_mask_of_bits fun i hi => ?_
  rw [dmEventWord_eq_dmEventOf, getLsbD_dmEventOf, dmEventMask]
  interval_cases i <;> simp

theorem packBytes_two_reserved (b0 b1 : Byte) : packBytes b0 b1 0#8 0#8 &&& ~~~(0x0000FFFF#32) = 0#32 := by
  refine and_not_mask_of_bits fun i hi => ?_
  rw [packBytes]
  interval_cases i <;> simp

theorem trimmedLength_le (chars : List Byte) : trimmedLength chars ≤ chars.length := by
  simpa [trimmedLength] using (List.dropWhile_sublist (fun ch => ch == spaceByte) (l := chars.reverse)).length_le

/-- A callsign length below 16 and an SSID fit the fields of `FRAME_CFG` (10_state.md R44). -/
theorem frameCfg_reserved {n : Nat} (hn : n < 16) (ssid : Byte) :
    ((BitVec.ofNat 32 n <<< 8) ||| ssid.setWidth 32) &&& ~~~frameCfgMask = 0#32 := by
  refine and_not_mask_of_bits fun i hi => ?_
  rw [frameCfgMask]
  interval_cases n <;> interval_cases i <;> simp

theorem decodeResults_reservedClear {g : Regs} (h : g.ReservedClear) (a : Nat) (f : List Byte) (t : Nat) :
    (decodeResults a f t g).ReservedClear := by
  obtain ⟨-, -, -, hState, hEvent⟩ := h
  have hlen : trimmedLength (sourceChars f) < 16 :=
    (trimmedLength_le _).trans_lt (by simp [sourceChars])
  exact ⟨packBytes_two_reserved _ _, frameCfg_reserved hlen _, packBytes_two_reserved _ _, hState, hEvent⟩

theorem storeDemod_reservedClear {g : Regs} (h : g.ReservedClear) (r : StepResult) :
    (storeDemod r g).ReservedClear := by
  obtain ⟨hHi, hCfg, hPid, -, -⟩ := h
  exact ⟨hHi, hCfg, hPid, dmStateWord_reserved _, dmEventWord_reserved _ _ _⟩

theorem reset_reservedClear (c : Config) : (Regs.reset c).ReservedClear := by
  unfold Regs.ReservedClear Regs.reset
  cases c.initTone <;> decide

theorem freeRegs_reservedClear (d : Nat) : (freeRegs d).ReservedClear :=
  ⟨and_mask_and_not_mask _ _, and_mask_and_not_mask _ _, and_mask_and_not_mask _ _, and_mask_and_not_mask _ _,
    and_mask_and_not_mask _ _⟩

theorem freeResults_reservedClear {g : Regs} (h : g.ReservedClear) (i : Instr) (d : Nat) :
    (freeResults i d g).ReservedClear := by
  obtain ⟨hHi, hCfg, hPid, hState, hEvent⟩ := h
  obtain ⟨fHi, fCfg, fPid, fState, fEvent⟩ := freeRegs_reservedClear d
  cases i with
  | decodeFrame => exact ⟨fHi, fCfg, fPid, hState, hEvent⟩
  | demodStep | demodReset => exact ⟨hHi, hCfg, hPid, fState, fEvent⟩
  | encodeFrame | modulate | demodulate | demodTrial | discriminate | crc16 => exact ⟨hHi, hCfg, hPid, hState, hEvent⟩

theorem storeReg_reservedClear {g : Regs} (h : g.ReservedClear) (r : Reg) (v : Word) :
    (storeReg r v g).ReservedClear := by
  obtain ⟨hHi, hCfg, hPid, hState, hEvent⟩ := h
  cases r with
  | callHi => exact ⟨and_mask_and_not_mask _ _, hCfg, hPid, hState, hEvent⟩
  | frameCfg => exact ⟨hHi, and_mask_and_not_mask _ _, hPid, hState, hEvent⟩
  | dmState => exact ⟨hHi, hCfg, hPid, and_mask_and_not_mask _ _, hEvent⟩
  | _ => exact ⟨hHi, hCfg, hPid, hState, hEvent⟩

/-! ### Memories -/

/-- The clauses of the invariant on the memories (20_memory.md R80, R95). -/
def State.MemInv (c : Config) (s : State) : Prop :=
  s.oct.wf ∧ s.smp.wf ∧ s.oct.below c.octSize ∧ s.smp.below c.smpSize

theorem State.Inv.memInv {c : Config} {s : State} (h : s.Inv c) : s.MemInv c :=
  ⟨h.octForm, h.smpForm, h.octInside, h.smpInside⟩

theorem memWrite_memInv {c : Config} {s : State} (h : s.MemInv c) {sp : Space} {a : Nat} {vs : List Byte}
    (hfit : a + vs.length ≤ spaceSize c sp) : (memWrite s sp a vs).MemInv c := by
  obtain ⟨hOct, hSmp, hOctIn, hSmpIn⟩ := h
  cases sp with
  | oct => exact ⟨Memory.wf_writeRange hOct a vs, hSmp, Memory.below_writeRange hOctIn a vs hfit, hSmpIn⟩
  | smp => exact ⟨hOct, Memory.wf_writeRange hSmp a vs, hOctIn, Memory.below_writeRange hSmpIn a vs hfit⟩

theorem forgetRange_memInv {c : Config} {s : State} (h : s.MemInv c) (sp : Space) (a n : Nat) :
    (forgetRange s sp a n).MemInv c := by
  obtain ⟨hOct, hSmp, hOctIn, hSmpIn⟩ := h
  cases sp with
  | oct => exact ⟨Memory.wf_forget hOct a n, hSmp, Memory.below_forget hOctIn a n, hSmpIn⟩
  | smp => exact ⟨hOct, Memory.wf_forget hSmp a n, hOctIn, Memory.below_forget hSmpIn a n⟩

theorem forgetBound_memInv {c : Config} {s : State} (h : s.MemInv c) (i : Instr) : (forgetBound c i s).MemInv c := by
  cases i with
  | encodeFrame | modulate | demodulate | demodTrial => exact forgetRange_memInv h _ _ _
  | decodeFrame | discriminate | demodStep | demodReset | crc16 => exact h

theorem forgetOutput_memInv {c : Config} {s : State} (h : s.MemInv c) (sp : Space) (n : Nat) (t : State) :
    (forgetOutput sp n s t).MemInv c := by
  unfold forgetOutput
  by_cases he : t.regs.err = .ok
  · rw [if_pos he]
    exact forgetRange_memInv (s := { s with draws := t.draws }) h sp _ n
  · rw [if_neg he]
    exact h

theorem abortCommand_memInv {c : Config} {s : State} (h : s.MemInv c) (i : Instr) : (abortCommand c i s).MemInv c := by
  cases i with
  | encodeFrame | modulate | demodulate | demodTrial => exact forgetOutput_memInv h _ _ _
  | decodeFrame | discriminate | demodStep | demodReset | crc16 => exact h

/-- Everything `abortPending` can do. -/
theorem abortPending_cases (c : Config) (s : State) :
    abortPending c s = s ∨ ∃ i, abortPending c s = forgetBound c i s ∨ abortPending c s = abortCommand c i s := by
  unfold abortPending
  cases s.latch with
  | none => exact .inl rfl
  | some w =>
    cases hd : decode w with
    | error e => exact .inl (by simp only [hd])
    | ok i =>
      refine .inr ⟨i, ?_⟩
      cases s.disturbed <;> simp [hd]

theorem abortPending_memInv {c : Config} {s : State} (h : s.MemInv c) : (abortPending c s).MemInv c := by
  rcases abortPending_cases c s with e | ⟨i, e | e⟩ <;> rw [e]
  · exact h
  · exact forgetBound_memInv h i
  · exact abortCommand_memInv h i

/-! ### Completion -/

/-- With the latch empty and nothing disturbed, only the memories and the reserved bits are left to check. -/
theorem inv_of_idle {c : Config} {s : State} (hm : s.MemInv c) (hr : s.regs.ReservedClear) (hl : s.latch = none)
    (hd : s.disturbed = false) : s.Inv c := by
  obtain ⟨hOct, hSmp, hOctIn, hSmpIn⟩ := hm
  obtain ⟨hHi, hCfg, hPid, hState, hEvent⟩ := hr
  exact ⟨hOct, hSmp, hOctIn, hSmpIn, hHi, hCfg, hPid, hState, hEvent, fun _ hb => by simp [hl] at hb,
    fun h => by simp [hd] at h⟩

theorem complete_inv {c : Config} {s : State} (hm : s.MemInv c) (hr : s.regs.ReservedClear) (e : ErrCode) :
    (complete e s).Inv c := inv_of_idle hm hr rfl rfl

theorem raise_inv {c : Config} {s : State} (hm : s.MemInv c) (hr : s.regs.ReservedClear) (e : ErrCode) :
    (raise e s).Inv c := complete_inv hm hr e

theorem finish_inv {c : Config} {s : State} (hm : s.MemInv c) (hr : s.regs.ReservedClear) : (finish s).Inv c :=
  complete_inv hm hr .ok

/-- What `MemRead` keeps of the invariant's clauses. -/
theorem memRead_keeps {c : Config} {s s1 : State} {sp : Space} {a n : Nat} {bs : List Byte} (hm : s.MemInv c)
    (hr : s.regs.ReservedClear) (h : memRead s sp a n = (bs, s1)) :
    s1.MemInv c ∧ s1.regs.ReservedClear ∧ s1.regs = s.regs ∧ bs.length = n := by
  obtain rfl : (memRead s sp a n).1 = bs := by rw [h]
  obtain rfl : (memRead s sp a n).2 = s1 := by rw [h]
  simpa [State.MemInv] using And.intro hm hr

/-! ### The commands -/

section
variable {c : Config} {s : State} (hm : s.MemInv c) (hr : s.regs.ReservedClear)
include hm hr

theorem crcCommand_inv : (crcCommand c s).Inv c := by
  rcases crcCommand_cases c s with ⟨-, e⟩ | ⟨bs, s1, -, hread, e⟩ <;> rw [e]
  · exact raise_inv hm hr _
  · obtain ⟨hm1, hr1, -⟩ := memRead_keeps hm hr hread
    exact finish_inv hm1 hr1

theorem discriminate_inv : (discriminate c s).Inv c := by
  rcases discriminate_cases c s with ⟨-, e⟩ | ⟨w, s1, -, hread, e⟩ <;> rw [e]
  · exact raise_inv hm hr _
  · obtain ⟨hm1, hr1, -⟩ := memRead_keeps hm hr hread
    exact finish_inv hm1 hr1

theorem demodStep_inv : (demodStep c s).Inv c := by
  rcases demodStep_cases c s with ⟨-, e⟩ | ⟨w, s1, -, hread, e⟩ <;> rw [e]
  · exact raise_inv hm hr _
  · obtain ⟨hm1, hr1, -⟩ := memRead_keeps hm hr hread
    exact finish_inv hm1 (storeDemod_reservedClear hr1 _)

theorem demodReset_inv : (demodReset c s).Inv c := by
  obtain ⟨hHi, hCfg, hPid, -, -⟩ := hr
  have hState : bitWord (toneBit c.initTone) &&& ~~~dmStateMask = 0#32 := by cases c.initTone <;> decide
  have hEvent : 0#32 &&& ~~~dmEventMask = 0#32 := by decide
  exact finish_inv hm ⟨hHi, hCfg, hPid, hState, hEvent⟩

theorem decodeFrame_inv : (decodeFrame c s).Inv c := by
  rcases decodeFrame_cases c s with ⟨-, e⟩ | ⟨f, s1, -, hread, h⟩
  · rw [e]; exact raise_inv hm hr _
  · obtain ⟨hm1, hr1, -⟩ := memRead_keeps hm hr hread
    rcases h with ⟨-, e⟩ | ⟨t, -, e⟩ <;> rw [e]
    · exact raise_inv hm1 hr1 _
    · refine complete_inv ?_ ?_ _
      · exact hm1
      · exact decodeResults_reservedClear hr1 _ _ _

theorem encodeFrame_inv (hdest : c.destId.length = 6) : (encodeFrame c s).Inv c := by
  rcases encodeFrame_cases c s with ⟨-, e⟩ | ⟨p, s1, -, hread, h⟩
  · rw [e]; exact raise_inv hm hr _
  · obtain ⟨hm1, hr1, -, hlen⟩ := memRead_keeps hm hr hread
    rcases h with ⟨-, e⟩ | ⟨-, -, e⟩ | ⟨-, hfit, -, e⟩ <;> rw [e]
    · exact raise_inv hm1 hr1 _
    · exact raise_inv hm1 hr1 _
    · have hframe : (withCrc (builtBody c s.regs p)).length = 18 + s.regs.srcLen.toNat := by
        rw [withCrc_length, builtBody, frameBody_length c _ _ _ _ hdest, hlen]; omega
      exact finish_inv (memWrite_memInv (sp := .oct) hm1 (hframe ▸ hfit)) hr

theorem modulate_inv (nb ne : Byte) : (modulate c nb ne s).Inv c := by
  rcases modulate_cases c nb ne s with ⟨-, e⟩ | ⟨octets, s1, -, hread, h⟩
  · rw [e]; exact raise_inv hm hr _
  · obtain ⟨hm1, hr1, -⟩ := memRead_keeps hm hr hread
    rcases h with ⟨-, e⟩ | ⟨hfit, v, d, -, e⟩ <;> rw [e]
    · exact raise_inv hm1 hr1 _
    · rw [← synthesize_length c _ c.initTone 0] at hfit
      exact finish_inv (memWrite_memInv (sp := .smp) hm1 hfit) hr

theorem deliverFrame_inv (o : Nat) (acc : List Byte) : (deliverFrame c o acc s).Inv c := by
  rcases deliverFrame_cases c o acc s with ⟨-, e⟩ | ⟨hfit, e⟩ <;> rw [e]
  · exact raise_inv hm hr _
  · exact finish_inv (memWrite_memInv (sp := .oct) hm hfit) hr

theorem demodTrial_inv (o : Byte) : (demodTrial c o s).Inv c := by
  rcases demodTrial_cases c o s with ⟨-, e⟩ | ⟨-, -, e⟩ | ⟨buf, s1, -, -, hread, h⟩
  · rw [e]; exact raise_inv hm hr _
  · rw [e]; exact raise_inv hm hr _
  · obtain ⟨hm1, hr1, -⟩ := memRead_keeps hm hr hread
    rcases h with ⟨-, e⟩ | ⟨acc, -, e⟩ <;> rw [e]
    · exact raise_inv hm1 hr1 _
    · exact deliverFrame_inv hm1 hr1 _ _

theorem demodulate_inv : (demodulate c s).Inv c := by
  rcases demodulate_cases c s with ⟨-, e⟩ | ⟨buf, s1, -, hread, h⟩
  · rw [e]; exact raise_inv hm hr _
  · obtain ⟨hm1, hr1, -⟩ := memRead_keeps hm hr hread
    rcases h with ⟨-, e⟩ | ⟨o, acc, -, e⟩ <;> rw [e]
    · exact raise_inv hm1 hr1 _
    · exact deliverFrame_inv hm1 hr1 _ _

theorem perform_inv (hdest : c.destId.length = 6) (i : Instr) : (perform c i s).Inv c := by
  cases i with
  | encodeFrame => exact encodeFrame_inv hm hr hdest
  | decodeFrame => exact decodeFrame_inv hm hr
  | modulate nb ne => exact modulate_inv hm hr nb ne
  | demodulate => exact demodulate_inv hm hr
  | discriminate => exact discriminate_inv hm hr
  | demodStep => exact demodStep_inv hm hr
  | demodReset => exact demodReset_inv hm hr
  | crc16 => exact crcCommand_inv hm hr
  | demodTrial o => exact demodTrial_inv hm hr o

theorem completeUnconstrained_inv (i : Instr) : (completeUnconstrained c i s).Inv c := by
  obtain ⟨hregs, -⟩ := forgetBound_frame c i s
  refine complete_inv ?_ ?_ _
  · exact forgetBound_memInv hm i
  · exact freeResults_reservedClear (hregs ▸ hr) i s.draws

theorem accept_inv (w : Word) : (accept w s).Inv c := by
  obtain ⟨hOct, hSmp, hOctIn, hSmpIn⟩ := hm
  obtain ⟨hHi, hCfg, hPid, hState, hEvent⟩ := hr
  exact ⟨hOct, hSmp, hOctIn, hSmpIn, hHi, hCfg, hPid, hState, hEvent, fun _ _ => ⟨rfl, rfl⟩, nofun⟩

end

/-! ### The resets and the violations -/

theorem powerOnReset_inv (c : Config) (s : State) : (powerOnReset c s).Inv c :=
  inv_of_idle ⟨.nil, .nil, nofun, nofun⟩ (reset_reservedClear c) rfl rfl

theorem softReset_inv {c : Config} {s : State} (hm : s.MemInv c) : (softReset c s).Inv c :=
  inv_of_idle (abortPending_memInv hm) (reset_reservedClear c) rfl rfl

/-- With the mark set, only the memories and the reserved bits are left to check. -/
theorem inv_of_mark {c : Config} {s : State} (hm : s.MemInv c) (hr : s.regs.ReservedClear) (hmark : s.mark = true) :
    s.Inv c := by
  obtain ⟨hOct, hSmp, hOctIn, hSmpIn⟩ := hm
  obtain ⟨hHi, hCfg, hPid, hState, hEvent⟩ := hr
  exact ⟨hOct, hSmp, hOctIn, hSmpIn, hHi, hCfg, hPid, hState, hEvent, fun h => by simp [hmark] at h, fun _ => hmark⟩

theorem busyAccess_inv {c : Config} {s : State} (hm : s.MemInv c) (hr : s.regs.ReservedClear) : (busyAccess s).Inv c :=
  inv_of_mark hm hr rfl

theorem irregularAccess_inv {c : Config} {s : State} (hm : s.MemInv c) : (irregularAccess s).Inv c :=
  inv_of_mark hm (freeRegs_reservedClear _) rfl

/-! ### The host's accesses and the step -/

section
variable {c : Config} {s : State} (h : s.Inv c)
include h

/-- The registers may change outside the reserved bits, if `DONE` and `ERR` stay 0 where they must. -/
theorem State.Inv.withRegs {g : Regs} (hr : g.ReservedClear)
    (hclean : s.busy = true → s.regs.done = false ∧ s.regs.err = .ok → g.done = false ∧ g.err = .ok) :
    ({ s with regs := g } : State).Inv c := by
  obtain ⟨hHi, hCfg, hPid, hState, hEvent⟩ := hr
  exact ⟨h.octForm, h.smpForm, h.octInside, h.smpInside, hHi, hCfg, hPid, hState, hEvent,
    fun hmark hb => hclean hb (h.pendingClean hmark hb), h.disturbedMarked⟩

/-- The model's own fields `reads`, `draws` and `schedule` are in no clause. -/
theorem State.Inv.withOwn (reads : List Word) (draws : Nat) (schedule : List Event) :
    ({ s with reads := reads, draws := draws, schedule := schedule } : State).Inv c :=
  ⟨h.octForm, h.smpForm, h.octInside, h.smpInside, h.callHiReserved, h.frameCfgReserved, h.ctrlPidReserved,
    h.dmStateReserved, h.dmEventReserved, h.pendingClean, h.disturbedMarked⟩

theorem answer_inv (v : Word) : (answer v s).Inv c := h.withOwn (v :: s.reads) s.draws s.schedule

theorem writeReg_inv (r : Reg) (v : Word) : (writeReg c r v s).Inv c := by
  have plain (r : Reg) : (if s.busy then s else { s with regs := storeReg r v s.regs }).Inv c := by
    cases hb : s.busy with
    | true => exact h
    | false => exact h.withRegs (storeReg_reservedClear h.reservedClear r v) (by simp [hb])
  cases r with
  | ctrl =>
    rw [writeReg, writeCtrl]
    cases v.getLsbD 1 with
    | true => exact softReset_inv h.memInv
    | false => exact h.withRegs h.reservedClear fun _ hc => hc
  | status => exact h.withRegs h.reservedClear fun _ ⟨hd, he⟩ => ⟨by simp [acknowledge, hd], he⟩
  | cmd =>
    rcases writeCmd_cases v s with ⟨-, e⟩ | ⟨-, e⟩ <;> rw [writeReg, e]
    · exact accept_inv h.memInv h.reservedClear v
    · exact h.withRegs h.reservedClear fun _ hc => hc
  | _ => exact plain _

theorem hostRegRead_inv (off bits : Nat) : (hostRegRead off bits s).Inv c := by
  rcases hostRegRead_cases off bits s with ⟨-, -, e⟩ | ⟨-, e⟩ <;> rw [e]
  · exact answer_inv h _
  · exact answer_inv (irregularAccess_inv h.memInv) _

theorem hostRegWrite_inv (off bits : Nat) (v : Word) : (hostRegWrite c off bits v s).Inv c := by
  rcases hostRegWrite_cases c off bits v s with ⟨r, -, -, -, e⟩ | ⟨-, -, -, e⟩ | ⟨-, e⟩ <;> rw [e]
  · exact writeReg_inv h r v
  · exact h
  · exact irregularAccess_inv h.memInv

theorem hostMemRead_inv (sp : Space) (a : Nat) : (hostMemRead sp a s).Inv c := by
  rcases hostMemRead_cases sp a s with ⟨-, e⟩ | ⟨v, -, -, e⟩ | ⟨-, -, e⟩ <;> rw [e]
  · exact answer_inv (busyAccess_inv h.memInv h.reservedClear) _
  · exact answer_inv h _
  · exact answer_inv (h.withOwn s.reads (s.draws + 1) s.schedule) _

theorem memWrite_inv {sp : Space} {a : Nat} {vs : List Byte} (hfit : a + vs.length ≤ spaceSize c sp) :
    (memWrite s sp a vs).Inv c := by
  obtain ⟨hOct, hSmp, hOctIn, hSmpIn⟩ := memWrite_memInv h.memInv hfit
  cases sp <;>
    exact ⟨hOct, hSmp, hOctIn, hSmpIn, h.callHiReserved, h.frameCfgReserved, h.ctrlPidReserved, h.dmStateReserved,
      h.dmEventReserved, h.pendingClean, h.disturbedMarked⟩

theorem hostMemWrite_inv {sp : Space} {a : Nat} (ha : a < spaceSize c sp) (v : Byte) :
    (hostMemWrite sp a v s).Inv c := by
  have hfit : a + [v].length ≤ spaceSize c sp := ha
  have hbusy := busyAccess_inv h.memInv h.reservedClear
  rcases hostMemWrite_cases sp a v s with ⟨-, e⟩ | ⟨-, e | e⟩ <;> rw [e]
  · exact memWrite_inv h hfit
  · exact memWrite_inv hbusy hfit
  · exact hbusy

theorem hostAccess_inv (a : HostAccess) : (hostAccess c a s).Inv c := by
  rcases hostAccess_cases c a s with ⟨e, -⟩ | ⟨off, bits, -, -, e⟩ | ⟨off, bits, v, -, -, e⟩ | ⟨sp, x, -, -, e⟩ |
    ⟨sp, x, v, -, hx, e⟩ <;> rw [e]
  · exact h
  · exact hostRegRead_inv h off bits
  · exact hostRegWrite_inv h off bits v
  · exact hostMemRead_inv h sp x
  · exact hostMemWrite_inv h hx v

theorem engineTurn_inv (hdest : c.destId.length = 6) {t : State} (ht : engineTurn c s = .next t) : t.Inv c := by
  have hm := h.memInv
  have hr := h.reservedClear
  rcases engineTurn_cases c s with ⟨-, e⟩ | ⟨w, err, -, -, e⟩ | ⟨w, i, -, -, -, e⟩ | ⟨w, i, -, -, -, e⟩ <;>
    obtain rfl := Host.Outcome.next.inj (e.symm.trans ht)
  · exact h
  · exact raise_inv hm hr _
  · exact completeUnconstrained_inv hm hr i
  · exact perform_inv hm hr hdest i

/-- Every step of a build keeps the invariant. Of the build's constraints it needs only the length of `DEST_ID`: with
another one `ENCODE_FRAME` would write past the range it checks (45_frame_codec.md R226). -/
theorem nextStep_inv (hdest : c.destId.length = 6) {t : State} (ht : nextStep c s = .next t) : t.Inv c := by
  rcases nextStep_cases c s with ⟨-, e⟩ | ⟨a, rest, -, e⟩ | ⟨rest, -, e⟩ | ⟨rest, -, e⟩ <;> rw [e] at ht
  · exact engineTurn_inv h hdest ht
  · obtain rfl := Host.Outcome.next.inj ht
    exact hostAccess_inv (h.withOwn s.reads s.draws rest) a
  · exact engineTurn_inv (h.withOwn s.reads s.draws rest) hdest ht
  · obtain rfl := Host.Outcome.next.inj ht
    exact powerOnReset_inv c _

end

theorem destId_length_of_legal {c : Config} (h : c.legal = true) : c.destId.length = 6 := by
  simp only [Config.legal, Bool.and_eq_true, decide_eq_true_eq] at h
  exact h.2

/-- Settles O10: the step's cases, each keeping the memories' form and bounds, the reserved bits and the clauses on the
pending command. -/
theorem everyStepKeepsTheInvariant : Obligations.EveryStepKeepsTheInvariant :=
  ⟨fun _ _ h ht => nextStep_inv h rfl ht, fun _ _ _ hc h ht => nextStep_inv h (destId_length_of_legal hc) ht⟩

end Sys2Proof.Machine
end

section
/-! PROOFS. The reset values and the memory sizes of a build. -/

open Sys2Proof Sys2Proof.Machine Sys2Proof.Claims

namespace Sys2Proof.Machine

theorem bytesInBuild_eq_spaceSize (c : Config) (sp : Space) : bytesInBuild c sp = spaceSize c sp := by cases sp <;> rfl

/-- What the registers read after a reset depends on nothing but the register block and an empty latch. -/
theorem regValue_of_reset {c : Config} {s : State} (hregs : s.regs = Regs.reset c) (hl : s.latch = none) (r : Reg) :
    s.regValue r = resetValueIn c r := by
  cases r with
  | status => simp [State.regValue, State.status, hregs, hl, Regs.reset, resetValueIn, ErrCode.code, bitWord]
  | dmState => cases hc : c.initTone <;> simp [State.regValue, hregs, Regs.reset, resetValueIn, hc]
  | _ => simp [State.regValue, hregs, Regs.reset, resetValueIn, idValue, bitWord]

theorem powerOnReset_read (c : Config) (s : State) (sp : Space) (x : Nat) :
    ((powerOnReset c s).mem sp).read x = none := by cases sp <;> rfl

theorem powerOnReset_irq (c : Config) (s : State) : (powerOnReset c s).irq = false := rfl

theorem perform_demodReset (c : Config) (s : State) : perform c .demodReset s = ended s .ok { s.regs with
    dmState := resetValueIn c .dmState, dmBitidx := 0#32, dmStart := 0#32, dmEvent := 0#32 } := by
  have hState : bitWord (toneBit c.initTone) = resetValueIn c .dmState := by
    cases hc : c.initTone <;> simp [resetValueIn, toneBit, bitWord, hc]
  simp only [perform, demodReset, hState]
  rfl

/-- An input range that passes the end of the build's memory ends every command that has one (20_memory.md R89). -/
theorem perform_inputOutOfRange {c : Config} {i : Instr} {s : State} {sp : Space} {a n : Nat} (hwf : i.wf = true)
    (hin : inputRange i s.regs = some (sp, a, n)) (hout : spaceSize c sp < a + n) :
    perform c i s = raise .rangeError s := by
  cases i with
  | demodReset => cases hin
  | demodTrial o =>
    cases hin
    have ho : ¬ spb ≤ o.toNat := by simpa [Instr.wf] using hwf
    simp [perform, demodTrial, inRange, ho, Nat.not_le.mpr hout]
  | encodeFrame | decodeFrame | modulate | demodulate | discriminate | demodStep | crc16 =>
    cases hin
    simp [perform, encodeFrame, decodeFrame, modulate, demodulate, discriminate, demodStep, crcCommand, inRange,
      Nat.not_le.mpr hout]

theorem memWrite_read (s : State) (sp : Space) (a : Nat) (v : Byte) :
    ((memWrite s sp a [v]).mem sp).read a = some v := by
  have h := Memory.read_writeRange_inside (s.mem sp) a [v] 0 Nat.zero_lt_one
  cases sp <;> exact h

/-- A host byte write with no command pending: it lands inside the memory, and is no step of the block outside it
(20_memory.md R85, R99). -/
theorem hostAccess_memWrite_idle {c : Config} {s : State} (hl : s.latch = none) (sp : Space) (a : Nat) (v : Byte) :
    (a < spaceSize c sp → ((hostAccess c (.memWrite sp a v) s).mem sp).read a = some v) ∧
    (spaceSize c sp ≤ a → hostAccess c (.memWrite sp a v) s = s) := by
  constructor
  · intro ha
    simp only [hostAccess, if_pos ha, hostMemWrite, busy_none hl, Bool.false_eq_true, if_false, memWrite_read]
  · intro ha
    exact if_neg (Nat.not_lt.mpr ha)

theorem nextStep_powerOn {c : Config} {s : State} {rest : List Event} (h : s.schedule = .powerOn :: rest) :
    nextStep c s = .next (powerOnReset c { s with schedule := rest }) := by simp only [nextStep, h, takeEvent]

theorem nextStep_host {c : Config} {s : State} {a : HostAccess} {rest : List Event} (h : HostNext s a rest) :
    nextStep c s = .next (hostAccess c a { s with schedule := rest }) := by
  simp only [nextStep, show s.schedule = _ from h, takeEvent]

/-- Settles O58: the register values follow from the reset block, and the two kinds of range from `spaceSize`. -/
theorem resetAndSizesFollowTheBuild : Obligations.ResetAndSizesFollowTheBuild := by
  refine ⟨⟨exec_eq_perform, fun _ => rfl, rfl⟩, fun c => ⟨fun r => regValue_of_reset rfl rfl r, ?_,
    perform_demodReset c, ?_, ?_⟩⟩
  · intro s rest hs
    exact ⟨_, nextStep_powerOn hs, regValue_of_reset rfl rfl, rfl, powerOnReset_irq c _, powerOnReset_read c _, rfl,
      rfl⟩
  · intro i s sp a n hwf hin hout
    rw [bytesInBuild_eq_spaceSize] at hout
    exact perform_inputOutOfRange hwf hin hout
  · intro s sp a v rest hs hl
    rw [bytesInBuild_eq_spaceSize]
    exact ⟨_, nextStep_host hs, hostAccess_memWrite_idle (s := { s with schedule := rest }) hl sp a v⟩

end Sys2Proof.Machine
end

section
/-! PROOFS. `ENCODE_FRAME`, `DISCRIMINATE` and `DEMOD_STEP` in every legal build. -/

open Sys2Proof Sys2Proof.Machine Sys2Proof.Claims

namespace Sys2Proof.Machine

/-! ### The frame -/

theorem shiftLeft_one_and_FE (b : Byte) : (b <<< 1) &&& 0xFE#8 = b <<< 1 := by
  refine BitVec.eq_of_getLsbD_eq fun i hi => ?_
  interval_cases i <;> simp

/-- The address shift of 14 octets (45_frame_codec.md R223). -/
theorem shiftAddress_append (as : List Byte) (last : Byte) (h : as.length = 13) :
    shiftAddress (as ++ [last]) = as.map (fun b : Byte => b <<< 1) ++ [(last <<< 1) ||| 1#8] := by
  simp only [shiftAddress, List.take_append_of_le_length h.ge, List.drop_append_of_le_length h.ge,
    List.take_of_length_le h.le, List.drop_of_length_le h.le, shiftLeft_one_and_FE, List.nil_append, List.map_cons, List.map_nil]

/-- The callsign characters of the two registers (10_state.md R42, R43). -/
theorem callChars_getD (g : Regs) {k : Nat} (hk : k < 6) (d : Byte) : g.callChars.getD k d = char g k := by
  refine BitVec.eq_of_getLsbD_eq fun i hi => ?_
  have hlo : ∀ k < 4, (char g k).getLsbD i = (g.callLo.extractLsb' (8 * k) 8).getLsbD i := by
    intro k hk
    simp only [char, BitVec.getLsbD_extractLsb', BitVec.getLsbD_append, show 8 * k + i < 32 by omega, if_true]
  have hhi : ∀ k, (char g (4 + k)).getLsbD i = (g.callHi.extractLsb' (8 * k) 8).getLsbD i := by
    intro k
    simp only [char, BitVec.getLsbD_extractLsb', BitVec.getLsbD_append, show ¬ 8 * (4 + k) + i < 32 by omega, if_false,
      show 8 * (4 + k) + i - 32 = 8 * k + i by omega]
  interval_cases k
  · exact (hlo 0 (by decide)).symm
  · exact (hlo 1 (by decide)).symm
  · exact (hlo 2 (by decide)).symm
  · exact (hlo 3 (by decide)).symm
  · exact (hhi 0).symm
  · exact (hhi 1).symm

theorem paddedCall_callChars (g : Regs) : paddedCall g.callChars g.callLen =
    (List.range 6).map (fun k => if k < callLength g then char g k else 0x20#8) := by
  refine List.map_congr_left fun k hk => ?_
  rw [callChars_getD g (List.mem_range.mp hk)]
  rfl

theorem ssid_and_0F (g : Regs) : g.ssid &&& 0x0F#8 = (0#4 ++ g.frameCfg.extractLsb' 0 4 : Byte) := by
  refine BitVec.eq_of_getLsbD_eq fun i hi => ?_
  change _ = BitVec.getLsbD (w := 4 + 4) _ i
  rw [BitVec.getLsbD_append]
  unfold Regs.ssid
  interval_cases i <;> simp

/-- The frame before its trailer is the claimed one (45_frame_codec.md R221 to R224). -/
theorem builtBody_eq_encodedBodyIn {c : Config} (hdest : c.destId.length = 6) (g : Regs) (p : List Byte) :
    builtBody c g p = encodedBodyIn c g p := by
  have hlen : (c.destId ++ [c.destSsidPre] ++ paddedCall g.callChars g.callLen).length = 13 := by simp [hdest]
  rw [builtBody, frameBody, addressOctets, shiftAddress_append _ _ hlen, ssid_and_0F, paddedCall_callChars,
    encodedBodyIn]
  simp [Function.comp_def]

theorem setWidth_eight (v : BitVec 16) : v.setWidth 8 = v.extractLsb' 0 8 := by
  refine BitVec.eq_of_getLsbD_eq fun i hi => ?_
  simp

theorem shiftRight_eight_setWidth (v : BitVec 16) : (v >>> 8).setWidth 8 = v.extractLsb' 8 8 := by
  refine BitVec.eq_of_getLsbD_eq fun i hi => ?_
  simp

theorem setWidth_thirtyTwo (v : BitVec 16) : v.setWidth 32 = (0#16 ++ v : Word) := by
  refine BitVec.eq_of_getLsbD_eq fun i hi => ?_
  change _ = BitVec.getLsbD (w := 16 + 16) _ i
  rw [BitVec.getLsbD_append, BitVec.getLsbD_setWidth]
  by_cases h : i < 16
  · simp [h, hi]
  · simp [h, v.getLsbD_of_ge i (Nat.le_of_not_lt h)]

/-- The trailer, low byte first (45_frame_codec.md R229). -/
theorem withCrc_eq_append (f : List Byte) :
    withCrc f = f ++ [(crc16 f).extractLsb' 0 8, (crc16 f).extractLsb' 8 8] := by
  rw [withCrc, setWidth_eight, shiftRight_eight_setWidth]

/-- Ranges that lie apart, or an empty payload, do not overlap (45_frame_codec.md R226 check 4). -/
theorem encodeOverlaps_false {a n d : Nat} (h : n = 0 ∨ d + 18 + n ≤ a ∨ a + n ≤ d) : encodeOverlaps a n d = false := by
  simp only [encodeOverlaps, Bool.and_eq_false_iff, decide_eq_false_iff_not]
  omega

/-- `MemRead` of a range that holds the bytes `bs`. -/
theorem memRead_holds {s : State} {sp : Space} {a n : Nat} {bs : List Byte} (hlen : bs.length = n)
    (h : Holds (s.mem sp) a bs) : memRead s sp a n = (bs, s) := hlen ▸ memRead_written s sp a bs h

/-- `ENCODE_FRAME` of a held payload whose checks pass (45_frame_codec.md R228). -/
theorem encodeFrame_of_holds {c : Config} {s : State} {p : List Byte} (hlen : p.length = s.regs.srcLen.toNat)
    (hin : s.regs.srcAddr.toNat + p.length ≤ c.octSize) (hp : Holds s.oct s.regs.srcAddr.toNat p)
    (hcall : callLength s.regs ≤ 6) (hout : s.regs.dstAddr.toNat + (18 + p.length) ≤ c.octSize)
    (hapart : encodeOverlaps s.regs.srcAddr.toNat p.length s.regs.dstAddr.toNat = false) :
    encodeFrame c s = finish { memWrite s .oct s.regs.dstAddr.toNat (withCrc (builtBody c s.regs p)) with
      regs := { s.regs with
        resultLen := BitVec.ofNat 32 (18 + p.length)
        resultAux := (crc16 (builtBody c s.regs p)).setWidth 32 } } := by
  have hread : memRead s .oct s.regs.srcAddr.toNat s.regs.srcLen.toNat = (p, s) := memRead_holds hlen hp
  rw [hlen] at hin hout hapart ⊢
  rcases encodeFrame_cases c s with ⟨h, -⟩ | ⟨p', s1, -, hread', h⟩
  · exact absurd hin (Nat.not_le.mpr h)
  · obtain ⟨rfl, rfl⟩ : p = p' ∧ s = s1 := Prod.mk.inj (hread.symm.trans hread')
    rcases h with ⟨h, -⟩ | ⟨-, h | h, -⟩ | ⟨-, -, -, h⟩
    · exact absurd hcall (Nat.not_le.mpr h)
    · exact absurd hout (Nat.not_le.mpr h)
    · simp [hapart] at h
    · exact h

/-! ### The score -/

/-- A correlation sum, written out over the eight samples (42_discriminator.md R162). -/
theorem correlate_eq_sumWith {w : List Byte} {table : List Int} (hw : w.length = 8) (ht : table.length = 8) :
    correlate table w = sumWith w table := by
  have hzip : List.zipWith (fun b k => centred b * k) w table =
      (List.range 8).map (fun k => about w k * table.getD k 0) := by
    refine List.ext_getElem (by simp [hw, ht]) fun i h1 h2 => ?_
    obtain ⟨hiw, hit⟩ : i < w.length ∧ i < table.length := by simpa using h1
    simp [about, centred, hiw, hit]
  rw [correlate, hzip]
  rfl

/-- The shapes of the coefficient tables in a legal build (10_state.md R57). -/
theorem tables_length_of_legal {c : Config} (h : c.legal = true) :
    c.cl.length = 8 ∧ c.sl.length = 8 ∧ c.ch.length = 8 ∧ c.sh.length = 8 := by
  simp only [Config.legal, Bool.and_eq_true, decide_eq_true_eq] at h
  obtain ⟨⟨⟨⟨⟨-, hcl⟩, hsl⟩, hch⟩, hsh⟩, -⟩ := h
  exact ⟨hcl, hsl, hch, hsh⟩

theorem disc_eq_scoreIn {c : Config} (hc : c.legal = true) {w : List Byte} (hw : w.length = 8) :
    disc c w = scoreIn c w := by
  obtain ⟨hcl, hsl, hch, hsh⟩ := tables_length_of_legal hc
  rw [disc, powerHigh, powerLow, correlate_eq_sumWith hw hcl, correlate_eq_sumWith hw hsl, correlate_eq_sumWith hw hch,
    correlate_eq_sumWith hw hsh, scoreIn]

/-- `DISCRIMINATE` of a held window (42_discriminator.md R166). -/
theorem discriminate_of_holds {c : Config} {s : State} {w : List Byte} (hw : w.length = 8)
    (hin : s.regs.srcAddr.toNat + 8 ≤ c.smpSize) (hold : Holds s.smp s.regs.srcAddr.toNat w) :
    discriminate c s = finish { s with regs := { s.regs with resultAux := scoreWord (disc c w) } } := by
  have hread : memRead s .smp s.regs.srcAddr.toNat spb = (w, s) := memRead_holds hw hold
  rcases discriminate_cases c s with ⟨h, -⟩ | ⟨w', s1, -, hread', h⟩
  · exact absurd hin (Nat.not_le.mpr h)
  · obtain ⟨rfl, rfl⟩ : w = w' ∧ s = s1 := Prod.mk.inj (hread.symm.trans hread')
    exact h

/-! ### The demodulator's step -/

/-- `DEMOD_STEP` of a held window (43_demodulator.md R186). -/
theorem demodStep_of_holds {c : Config} {s : State} {w : List Byte} (hw : w.length = 8)
    (hin : s.regs.srcAddr.toNat + 8 ≤ c.smpSize) (hold : Holds s.smp s.regs.srcAddr.toNat w) :
    demodStep c s = finish { s with
      regs := { storeDemod (dstep c s.regs.demod w) s.regs with resultAux := scoreWord (disc c w) } } := by
  have hread : memRead s .smp s.regs.srcAddr.toNat spb = (w, s) := memRead_holds hw hold
  rcases demodStep_cases c s with ⟨h, -⟩ | ⟨w', s1, -, hread', h⟩
  · exact absurd hin (Nat.not_le.mpr h)
  · obtain ⟨rfl, rfl⟩ : w = w' ∧ s = s1 := Prod.mk.inj (hread.symm.trans hread')
    exact h

theorem toneBit_toneOfScore (score : Int) : toneBit (toneOfScore score) = decide (0 < score) := by
  by_cases h : 0 < score <;> simp [toneOfScore, toneBit, h]

theorem decide_eq_toneOfBit (tone : Tone) (b : Bool) : decide (tone = toneOfBit b) = (toneBit tone == b) := by
  cases tone <;> cases b <;> rfl

theorem shiftIn_eq_append (sreg : Byte) (bit : Bool) :
    shiftIn sreg bit = (BitVec.ofBool bit ++ sreg.extractLsb' 1 7 : Byte) := by
  refine BitVec.eq_of_getLsbD_eq fun i hi => ?_
  change _ = BitVec.getLsbD (w := 1 + 7) _ i
  rw [BitVec.getLsbD_append, shiftIn]
  cases bit <;> interval_cases i <;> simp

/-- The step on a stuffed bit (43_demodulator.md R181). -/
theorem demodTone_stuffed {c : Config} {st : DemodState} {tone : Tone}
    (hflag : ¬ (st.esc = 0 ∧ shiftIn st.sreg (decide (tone = st.prev)) = flagByte)) (hin : st.inFrame = true)
    (hbit : decide (tone = st.prev) = false) (hrun : st.run = 5) :
    demodTone c st tone =
      { st := { st with
          prev := tone, sreg := shiftIn st.sreg false <<< 1, run := 0, esc := c.escLen, bitidx := st.bitidx + 1
          start := st.start + 1 }
        event := .skip
        bit := false } := by
  rw [hbit] at hflag
  simp [demodTone, hbit, hflag, hin, hrun]

/-- The run after the step on a 1 in a frame (43_demodulator.md R182). -/
theorem demodTone_one_run {c : Config} {st : DemodState} {tone : Tone}
    (hflag : ¬ (st.esc = 0 ∧ shiftIn st.sreg (decide (tone = st.prev)) = flagByte)) (hin : st.inFrame = true)
    (hbit : decide (tone = st.prev) = true) : (demodTone c st tone).st.run = min (st.run + 1) c.runMax := by
  rw [hbit] at hflag
  simp only [demodTone, hbit, hflag, hin, Bool.not_true, Bool.false_eq_true, Bool.true_eq_false, false_and, if_false,
    if_true]
  split <;> rfl

theorem runOf_dmStateOf {g : Regs} {sreg : Byte} {esc run : BitVec 4} {inFrame tone : Bool}
    (h : g.dmState = dmStateOf sreg esc run inFrame tone) : runOf g = run := by
  refine BitVec.eq_of_getLsbD_eq fun i hi => ?_
  rw [runOf, h, BitVec.getLsbD_extractLsb', getLsbD_dmStateOf]
  interval_cases i <;> simp

section
variable {c : Config} (hc : c.legal = true) {w : List Byte} (hw : w.length = 8) (g : Regs)
include hc hw

theorem decodedBit_eq_bitIn : decide (toneOfScore (disc c w) = g.demod.prev) = bitIn c g w := by
  rw [disc_eq_scoreIn hc hw, bitIn, ← toneBit_toneOfScore]
  exact decide_eq_toneOfBit _ _

theorem shiftIn_eq_shiftedIn :
    shiftIn g.demod.sreg (decide (toneOfScore (disc c w) = g.demod.prev)) = shiftedIn c g w := by
  rw [decodedBit_eq_bitIn hc hw, shiftIn_eq_append]
  rfl

theorem flagTest_eq : (g.demod.esc = 0 ∧
    shiftIn g.demod.sreg (decide (toneOfScore (disc c w) = g.demod.prev)) = flagByte) ↔
    escOf g = 0#4 ∧ shiftedIn c g w = 0x7E#8 := by
  rw [shiftIn_eq_shiftedIn hc hw]
  exact and_congr_left' (BitVec.toNat_inj (y := 0#4))

end

section
variable {c : Config} (hc : c.legal = true) {s : State}
include hc

/-- The claim on `ENCODE_FRAME`, with its memory named. -/
theorem perform_encodeFrame_of_holds {p : List Byte} (hlen : p.length = s.regs.srcLen.toNat)
    (hin : s.regs.srcAddr.toNat + p.length ≤ c.octSize) (hp : Holds s.oct s.regs.srcAddr.toNat p)
    (hcall : callLength s.regs ≤ 6) (hout : s.regs.dstAddr.toNat + (18 + p.length) ≤ c.octSize)
    (hapart : p.length = 0 ∨ s.regs.dstAddr.toNat + 18 + p.length ≤ s.regs.srcAddr.toNat ∨
      s.regs.srcAddr.toNat + p.length ≤ s.regs.dstAddr.toNat) :
    perform c .encodeFrame s = { ended s .ok { s.regs with
      resultLen := BitVec.ofNat 32 (18 + p.length)
      resultAux := 0#16 ++ crc16 (encodedBodyIn c s.regs p) } with
      oct := s.oct.writeRange s.regs.dstAddr.toNat (withCrc (encodedBodyIn c s.regs p)) } := by
  rw [perform, encodeFrame_of_holds hlen hin hp hcall hout (encodeOverlaps_false hapart),
    builtBody_eq_encodedBodyIn (destId_length_of_legal hc), setWidth_thirtyTwo]
  rfl

theorem length_withCrc_encodedBodyIn (g : Regs) (p : List Byte) :
    (withCrc (encodedBodyIn c g p)).length = 18 + p.length := by
  have hdest := destId_length_of_legal hc
  rw [← builtBody_eq_encodedBodyIn hdest, withCrc_length, builtBody, frameBody_length c _ _ _ _ hdest]
  omega

variable {w : List Byte} (hw : w.length = 8) (hin : s.regs.srcAddr.toNat + 8 ≤ c.smpSize)
  (hold : Holds s.smp s.regs.srcAddr.toNat w)
include hw hin hold

theorem perform_discriminate_of_holds :
    perform c .discriminate s = ended s .ok { s.regs with resultAux := BitVec.ofInt 32 (scoreIn c w) } := by
  rw [perform, discriminate_of_holds hw hin hold, disc_eq_scoreIn hc hw]
  rfl

variable (hflag : ¬ (escOf s.regs = 0#4 ∧ shiftedIn c s.regs w = 0x7E#8)) (hframe : inFrameOf s.regs = true)
include hflag hframe

/-- `DEMOD_STEP` on a stuffed bit (43_demodulator.md R181). -/
theorem perform_demodStep_stuffed (hbit : bitIn c s.regs w = false) (hrun : runOf s.regs = 5#4) :
    perform c .demodStep s = ended s .ok { s.regs with
      dmState   := dmStateOf (shiftedIn c s.regs w <<< 1) (BitVec.ofNat 4 c.escLen) 0#4 true (decide (0 < scoreIn c w))
      dmBitidx  := s.regs.dmBitidx + 1#32
      dmStart   := s.regs.dmStart + 1#32
      dmEvent   := dmEventOf 2#2 0#8 false (decide (0 < scoreIn c w))
      resultAux := BitVec.ofInt 32 (scoreIn c w) } := by
  have hstep : dstep c s.regs.demod w = _ := demodTone_stuffed (mt (flagTest_eq hc hw s.regs).mp hflag) hframe
    ((decodedBit_eq_bitIn hc hw s.regs).trans hbit) (congrArg BitVec.toNat hrun)
  have hshift : shiftIn s.regs.demod.sreg false = shiftedIn c s.regs w := by
    rw [← shiftIn_eq_shiftedIn hc hw, decodedBit_eq_bitIn hc hw, hbit]
  have htone : toneBit (toneOfScore (disc c w)) = decide (0 < scoreIn c w) := by
    rw [toneBit_toneOfScore, disc_eq_scoreIn hc hw]
  rw [perform, demodStep_of_holds hw hin hold, hstep, storeDemod, dmStateWord_eq_dmStateOf, dmEventWord_eq_dmEventOf,
    hshift, htone, disc_eq_scoreIn hc hw, show s.regs.demod.inFrame = true from hframe]
  rfl

/-- `RUN` after `DEMOD_STEP` on a 1 in a frame (43_demodulator.md R182). -/
theorem perform_demodStep_one_run (hbit : bitIn c s.regs w = true) :
    runOf (perform c .demodStep s).regs = BitVec.ofNat 4 (min ((runOf s.regs).toNat + 1) c.runMax) := by
  have hrun : (dstep c s.regs.demod w).st.run = min (s.regs.demod.run + 1) c.runMax :=
    demodTone_one_run (mt (flagTest_eq hc hw s.regs).mp hflag) hframe ((decodedBit_eq_bitIn hc hw s.regs).trans hbit)
  rw [perform, demodStep_of_holds hw hin hold, runOf_dmStateOf (dmStateWord_eq_dmStateOf _), hrun]
  rfl

end

/-- Settles O59: the built frame, the score and the demodulator's step, each rewritten to the claimed form. -/
theorem encoderAndDemodulatorFollowTheBuild : Obligations.EncoderAndDemodulatorFollowTheBuild := by
  refine fun c hc => ⟨fun s p hlen hin hp hcall hout hapart => ?_, fun s w hw hin hold => ?_⟩
  · refine ⟨_, ?_, ?_, perform_encodeFrame_of_holds hc hlen hin hp hcall hout
      (hapart.imp_left List.length_eq_zero_iff.mpr)⟩
    · rw [← withCrc_eq_append]
      exact Memory.read_writeRange_inside _ _ _
    · rw [← length_withCrc_encodedBodyIn hc s.regs p]
      exact Memory.read_writeRange_outside _ _ _
  · exact ⟨perform_discriminate_of_holds hc hw hin hold, fun hflag hframe =>
      ⟨perform_demodStep_stuffed hc hw hin hold hflag hframe, perform_demodStep_one_run hc hw hin hold hflag hframe⟩⟩

end Sys2Proof.Machine
end

section
/-! PROOFS. `MODULATE` in every legal build. -/

open Sys2Proof Sys2Proof.Machine Sys2Proof.Claims

namespace Sys2Proof.Machine

/-! ### The line bits -/

theorem markerBits_idle (k : Nat) : markerBits idleByte k = List.replicate (8 * k) false := by
  have hbyte : byteBits idleByte = List.replicate 8 false := by decide
  induction k with
  | zero => rfl
  | succ k ih => rw [markerBits, hbyte, ih, List.replicate_append_replicate, Nat.mul_succ, Nat.add_comm]

/-- The line bits after the idle bytes are every build's (41_modulator.md R131). -/
theorem lineBits_eq_idle_append (c : Config) (octets : List Byte) (nb ne : Nat) :
    lineBits c octets nb ne =
      List.replicate (8 * c.presyncIdle) false ++ (lineBits ref octets nb ne).drop 8 := by
  have href : (lineBits ref octets nb ne).drop 8 =
      markerBits flagByte nb ++ (stuffBits 0 (dataBits octets) ++ markerBits flagByte ne) := by
    rw [lineBits, List.append_assoc, List.append_assoc]
    exact List.drop_left' (markerBits_length idleByte 1)
  rw [href, lineBits, markerBits_idle, List.append_assoc, List.append_assoc]

/-! ### The tone and the phase at each sample -/

theorem inc_eq_incIn (c : Config) (tone : Tone) : c.inc tone = incIn c tone := by
  have h (f : Nat) : c.incOf f = (f * 2 ^ c.phaseBits + 4800) / 9600 := by
    rw [Config.incOf, Nat.mul_assoc, show (sampleRate : Nat) = 2 * 4800 from rfl, ← Nat.mul_add,
      Nat.mul_div_mul_left _ _ two_pos]
  cases tone with
  | low => exact h c.fLow
  | high => exact h c.fHigh

/-- The tone after the bits `bits`, from the tone `tone` on: every 0 toggles it (41_modulator.md R133). -/
def toneFrom (tone : Tone) (bits : List Bool) : Tone := bits.foldl nrziTone tone

theorem toneFrom_eq (bits : List Bool) : ∀ tone,
    toneFrom tone bits = if bits.count false % 2 = 0 then tone else toggleTone tone := by
  induction bits with
  | nil => intro tone; rfl
  | cons b bits ih =>
    intro tone
    change toneFrom (nrziTone tone b) bits = _
    rw [ih]
    cases b with
    | true => simp [nrziTone]
    | false =>
      have htoggle : toggleTone (toggleTone tone) = tone := by cases tone <;> rfl
      rcases Nat.mod_two_eq_zero_or_one (bits.count false) with h | h <;>
        simp [nrziTone, Nat.add_mod, h, htoggle]

theorem toneAfterIn_eq_toneFrom (c : Config) (bits : List Bool) : toneAfterIn c bits = toneFrom c.initTone bits := by
  rw [toneFrom_eq, toneAfterIn]
  cases c.initTone <;> rfl

/-- The phase at sample `k` of the bits `bits`, from a tone and a phase on (41_modulator.md R135). -/
def phaseFrom (c : Config) (tone : Tone) (phase : Nat) (bits : List Bool) (k : Nat) : Nat :=
  (phase + ((List.range k).map (fun j => c.inc (toneFrom tone (bits.take (j / 8 + 1))))).sum) % 2 ^ c.phaseBits

theorem phaseIn_eq_phaseFrom (c : Config) (bits : List Bool) (k : Nat) :
    phaseIn c bits k = phaseFrom c c.initTone 0 bits k := by
  simp only [phaseIn, phaseFrom, toneAfterIn_eq_toneFrom, inc_eq_incIn, Nat.zero_add]

theorem nextPhase_lt (c : Config) (tone : Tone) (phase : Nat) : nextPhase c tone phase < 2 ^ c.phaseBits :=
  Nat.mod_lt _ (Nat.two_pow_pos _)

theorem phaseFrom_lt (c : Config) (tone : Tone) (phase : Nat) (bits : List Bool) (k : Nat) :
    phaseFrom c tone phase bits k < 2 ^ c.phaseBits := Nat.mod_lt _ (Nat.two_pow_pos _)

/-- One step of the phase and then `k` more are `k + 1`. -/
theorem nextPhase_add_mul (c : Config) (tone : Tone) (phase k : Nat) :
    (nextPhase c tone phase + k * c.inc tone) % 2 ^ c.phaseBits = (phase + (k + 1) * c.inc tone) % 2 ^ c.phaseBits := by
  rw [nextPhase, Nat.mod_add_mod, Nat.add_assoc, Nat.succ_mul, Nat.add_comm (c.inc tone)]

theorem toneSamples_phase (c : Config) (tone : Tone) (k : Nat) : ∀ phase < 2 ^ c.phaseBits,
    (toneSamples c tone k phase).2 = (phase + k * c.inc tone) % 2 ^ c.phaseBits := by
  induction k with
  | zero => intro phase hp; simp [toneSamples, Nat.mod_eq_of_lt hp]
  | succ k ih =>
    intro phase _
    exact (ih _ (nextPhase_lt c tone phase)).trans (nextPhase_add_mul c tone phase k)

theorem toneSamples_getElem (c : Config) (tone : Tone) (k : Nat) : ∀ phase < 2 ^ c.phaseBits, ∀ j
    (h : j < (toneSamples c tone k phase).1.length),
    (toneSamples c tone k phase).1[j] = sampleAt c ((phase + j * c.inc tone) % 2 ^ c.phaseBits) := by
  induction k with
  | zero => intro _ _ j h; simp at h
  | succ k ih =>
    intro phase hp j h
    cases j with
    | zero => simp [toneSamples, Nat.mod_eq_of_lt hp]
    | succ j =>
      have h' : j < (toneSamples c tone k (nextPhase c tone phase)).1.length := by simpa using h
      rw [← nextPhase_add_mul, ← ih _ (nextPhase_lt c tone phase) j h']
      rfl

/-- Inside the first bit the phase grows by one tone's increment. -/
theorem phaseFrom_first {c : Config} {tone : Tone} {phase : Nat} {b : Bool} {bits : List Bool} {k : Nat} (hk : k ≤ 8) :
    phaseFrom c tone phase (b :: bits) k = (phase + k * c.inc (nrziTone tone b)) % 2 ^ c.phaseBits := by
  have hconst : (List.range k).map (fun j => c.inc (toneFrom tone ((b :: bits).take (j / 8 + 1)))) =
      List.replicate k (c.inc (nrziTone tone b)) := by
    rw [List.eq_replicate_iff]
    refine ⟨by simp, fun x hx => ?_⟩
    obtain ⟨j, hj, rfl⟩ := List.mem_map.mp hx
    rw [Nat.div_eq_of_lt ((List.mem_range.mp hj).trans_le hk)]
    rfl
  rw [phaseFrom, hconst, List.sum_replicate, smul_eq_mul]

/-- After the first bit the phase goes on from the phase at its end. -/
theorem phaseFrom_later (c : Config) (tone : Tone) (phase : Nat) (b : Bool) (bits : List Bool) (k : Nat) :
    phaseFrom c tone phase (b :: bits) (8 + k) =
      phaseFrom c (nrziTone tone b) (phaseFrom c tone phase (b :: bits) 8) bits k := by
  have hshift (j : Nat) : toneFrom tone ((b :: bits).take ((8 + j) / 8 + 1)) =
      toneFrom (nrziTone tone b) (bits.take (j / 8 + 1)) := by
    rw [Nat.add_div_left _ (by decide), List.take_succ_cons]
    rfl
  simp only [phaseFrom, List.range_add, List.map_append, List.sum_append, List.map_map, Function.comp_def, hshift,
    Nat.mod_add_mod, Nat.add_assoc]

/-- Every sample of a modulation, from its phase (41_modulator.md R135). -/
theorem synthesize_eq_map (c : Config) (bits : List Bool) : ∀ tone, ∀ phase < 2 ^ c.phaseBits,
    synthesize c tone phase bits =
      (List.range (8 * bits.length)).map (fun k => sampleAt c (phaseFrom c tone phase bits k)) := by
  induction bits with
  | nil => intro _ _ _; rfl
  | cons b bits ih =>
    intro tone phase hp
    have hend : (toneSamples c (nrziTone tone b) spb phase).2 = phaseFrom c tone phase (b :: bits) 8 := by
      rw [toneSamples_phase c _ _ phase hp, phaseFrom_first le_rfl]
    have hfirst : (toneSamples c (nrziTone tone b) spb phase).1 =
        (List.range 8).map (fun k => sampleAt c (phaseFrom c tone phase (b :: bits) k)) := by
      refine List.ext_getElem (by simp) fun k h1 h2 => ?_
      have hk : k ≤ 8 := by simp at h2; omega
      rw [toneSamples_getElem c _ _ phase hp k h1, List.getElem_map, List.getElem_range, phaseFrom_first hk]
    rw [synthesize, hfirst, hend, ih _ _ (phaseFrom_lt c tone phase (b :: bits) 8), List.length_cons,
      Nat.mul_succ, Nat.add_comm, List.range_add, List.map_append, List.map_map]
    simp only [Function.comp_def, phaseFrom_later]

theorem synthesize_eq_sampleIn (c : Config) (bits : List Bool) :
    synthesize c c.initTone 0 bits = (List.range (8 * bits.length)).map (sampleIn c bits) := by
  rw [synthesize_eq_map c bits _ 0 (Nat.two_pow_pos _)]
  refine List.map_congr_left fun k _ => ?_
  rw [sampleIn, phaseIn_eq_phaseFrom]
  rfl

/-! ### The command -/

section
variable {c : Config} {s : State} {nb ne : Byte} {octets : List Byte} (hlen : octets.length = s.regs.srcLen.toNat)
  (hin : s.regs.srcAddr.toNat + octets.length ≤ c.octSize) (hold : Holds s.oct s.regs.srcAddr.toNat octets)
include hlen hin hold

/-- What is left of the cases of `MODULATE` for held octets (41_modulator.md R142). -/
theorem perform_modulate_cases :
    (c.smpSize < s.regs.dstAddr.toNat + 8 * (lineBits c octets nb.toNat ne.toNat).length ∧
      perform c (.modulate nb ne) s = ended s .rangeError s.regs) ∨
    (s.regs.dstAddr.toNat + 8 * (lineBits c octets nb.toNat ne.toNat).length ≤ c.smpSize ∧
      ∃ (len : Word) (d : Nat),
        (8 * (lineBits c octets nb.toNat ne.toNat).length < 2 ^ 32 →
          len = BitVec.ofNat 32 (8 * (lineBits c octets nb.toNat ne.toNat).length) ∧ d = s.draws) ∧
        perform c (.modulate nb ne) s = { ended s .ok { s.regs with
          resultLen := len
          resultAux := BitVec.ofNat 32 (lineBits c octets nb.toNat ne.toNat).length } with
          smp := s.smp.writeRange s.regs.dstAddr.toNat
            (synthesize c c.initTone 0 (lineBits c octets nb.toNat ne.toNat))
          draws := d }) := by
  have hread : memRead s .oct s.regs.srcAddr.toNat s.regs.srcLen.toNat = (octets, s) := memRead_holds hlen hold
  rw [hlen] at hin
  rcases modulate_cases c nb ne s with ⟨h, -⟩ | ⟨octets', s1, -, hread', h⟩
  · exact absurd hin (Nat.not_le.mpr h)
  · obtain ⟨rfl, rfl⟩ : octets = octets' ∧ s = s1 := Prod.mk.inj (hread.symm.trans hread')
    exact h

end

/-- Settles O60: the samples by induction over the line bits, each bit's eight samples going on from the phase and the
tone at the end of the bit before it. -/
theorem modulatorFollowsTheBuild : Obligations.ModulatorFollowsTheBuild := by
  refine fun c _ => ⟨lineBits_eq_idle_append c,
    fun s nb ne octets hlen hin hold => ⟨fun hfit => ?_, fun hout => ?_⟩⟩ <;>
    rcases perform_modulate_cases (nb := nb) (ne := ne) hlen hin hold with ⟨h, e⟩ | ⟨h, len, d, hd, e⟩
  · exact absurd hfit (Nat.not_le.mpr h)
  · refine ⟨_, len, d, hd, ?_, ?_, e⟩
    · rw [← synthesize_eq_sampleIn]
      exact Memory.read_writeRange_inside _ _ _
    · rw [← synthesize_length c _ c.initTone 0]
      exact Memory.read_writeRange_outside _ _ _
  · exact e
  · exact absurd h (Nat.not_le.mpr hout)

end Sys2Proof.Machine
end

section
/-! PROOFS. The invariant at reset, and what a host write of a register changes: the plain registers, `STATUS` and `CTRL`. -/

open Sys2Proof Sys2Proof.Machine Sys2Proof.Claims

namespace Sys2Proof.Machine

/-! ### Reset -/

theorem resetOf_inv (c : Config) : (State.resetOf c).Inv c :=
  inv_of_idle ⟨.nil, .nil, nofun, nofun⟩ (reset_reservedClear c) rfl rfl

/-- Settles O9: at reset the memories and the latch are empty, and the reset values have no reserved bits. -/
theorem invariantHoldsAtReset : Obligations.InvariantHoldsAtReset := ⟨resetOf_inv ref, resetOf_inv⟩

/-! ### The step of a register write -/

/-- An aligned word write at a register's offset is that register's own write (10_state.md R32). -/
theorem step_regWrite {s : State} {r : Reg} {v : Word} {rest : List Event}
    (h : HostNext s (.regWrite r.offset 32 v) rest) : step s = .next (writeReg ref r v { s with schedule := rest }) := by
  rw [step, nextStep_host h, hostAccess_register]

theorem offset_lt (r : Reg) : r.offset < 0x50 := by cases r <;> decide

theorem regAt_unmapped {off : Nat} (h : 0x50 ≤ off) : regAt off = none := by
  cases hr : regAt off with
  | none => rfl
  | some r => exact absurd (offset_lt r) (Nat.not_lt.mpr (offset_of_regAt hr ▸ h))

theorem hostAccess_unmapped (c : Config) {off : Nat} (v : Word) (s : State) (ha : off % 4 = 0) (hlo : 0x50 ≤ off)
    (hhi : off < 0x100) : hostAccess c (.regWrite off 32 v) s = s := by
  simp [hostAccess_regWrite c _ _ _ _ hhi, hostRegWrite, regularAccess, ha, regAt_unmapped hlo]

/-! ### The plain registers -/

/-- A register without effects of its own is stored, or, while busy, left alone (10_state.md R32; 60_exceptions.md
R270). -/
theorem writeReg_plain (c : Config) {r : Reg} (v : Word) (s : State) (hctrl : r ≠ .ctrl) (hstatus : r ≠ .status)
    (hcmd : r ≠ .cmd) : writeReg c r v s = if s.busy then s else { s with regs := storeReg r v s.regs } := by
  cases r with
  | ctrl => exact absurd rfl hctrl
  | status => exact absurd rfl hstatus
  | cmd => exact absurd rfl hcmd
  | _ => rfl

theorem storeReg_readOnly {r : Reg} (h : writableBits r = none) (v : Word) (g : Regs) : storeReg r v g = g := by
  cases r with
  | srcAddr | srcLen | dstAddr | callLo | callHi | frameCfg | dmState | dmBitidx | dmStart => cases h
  | _ => rfl

theorem regValue_storeReg_same {r : Reg} {bits : Word} (h : writableBits r = some bits) (v : Word) (s : State) :
    ({ s with regs := storeReg r v s.regs } : State).regValue r = v &&& bits := by
  cases r with
  | callHi | frameCfg | dmState => cases h; rfl
  | srcAddr | srcLen | dstAddr | callLo | dmBitidx | dmStart => cases h; exact (BitVec.and_allOnes (x := v)).symm
  | _ => cases h

theorem regValue_storeReg_other {r r' : Reg} (h : r' ≠ r) (v : Word) (s : State) :
    ({ s with regs := storeReg r v s.regs } : State).regValue r' = s.regValue r' := by
  cases r with
  | srcAddr | srcLen | dstAddr | callLo | callHi | frameCfg | dmState | dmBitidx | dmStart =>
    cases r' <;> simp [State.regValue, State.status, State.busy, storeReg] at h ⊢
  | _ => rfl

/-- What every register reads after a plain register was stored (10_state.md R32 to R52). -/
theorem regValue_storeReg (r r' : Reg) (v : Word) (s : State) :
    ({ s with regs := storeReg r v s.regs } : State).regValue r' =
      if r' = r then (match writableBits r with | some bits => v &&& bits | none => s.regValue r) else s.regValue r' := by
  by_cases hr : r' = r
  · subst hr
    rw [if_pos rfl]
    cases hb : writableBits r' with
    | none => rw [storeReg_readOnly hb]
    | some bits => exact regValue_storeReg_same hb v s
  · rw [if_neg hr, regValue_storeReg_other hr]

/-- Settles O18: the step is `storeReg` at a register without effects of its own, and nothing at an unmapped offset. -/
theorem registerWriteStoresImplementedBits : Obligations.RegisterWriteStoresImplementedBits := by
  refine ⟨fun s r v rest hs hl hctrl hstatus hcmd => ?_, fun s off v rest hs _ ha hlo hhi => ?_⟩
  · have hstep := step_regWrite hs
    have hidle : ({ s with schedule := rest } : State).busy = false := busy_none hl
    rw [writeReg_plain ref v _ hctrl hstatus hcmd, hidle, if_neg Bool.false_ne_true] at hstep
    exact ⟨_, hstep, fun r' => regValue_storeReg r r' v { s with schedule := rest }, rfl⟩
  · rw [step, nextStep_host hs, hostAccess_unmapped ref v _ ha hlo hhi]

/-! ### `STATUS` and `CTRL` -/

/-- The status word, bit by bit (10_state.md R35). -/
theorem getLsbD_status (s : State) {i : Nat} (hi : i < 32) : s.status.getLsbD i =
    if i < 1 then s.busy else if i < 2 then s.regs.done else if i < 3 then s.regs.ovr else if i < 8 then false
    else if i < 12 then s.regs.err.code.getLsbD (i - 8) else false := by
  rw [State.status]
  interval_cases i <;> simp [getElem_bitWord]

/-- What an acknowledgement leaves in the status word (60_exceptions.md R268). -/
theorem status_acknowledge (v : Word) (s : State) :
    ({ s with regs := acknowledge v s.regs } : State).status = s.status &&& ~~~(v &&& 0x6#32) := by
  refine BitVec.eq_of_getLsbD_eq fun i hi => ?_
  rw [BitVec.getLsbD_and, getLsbD_status _ hi, getLsbD_status _ hi]
  interval_cases i <;> simp [acknowledge, State.busy]

theorem irq_acknowledge {v : Word} (hv : v.getLsbD 1 = true) (s : State) :
    ({ s with regs := acknowledge v s.regs } : State).irq = false := by simp [State.irq, acknowledge, hv]

/-- Settles O20: the step is the acknowledgement, whose status word is compared bit by bit. -/
theorem statusWriteClearsOnes : Obligations.StatusWriteClearsOnes := fun s v rest hs =>
  ⟨_, step_regWrite (r := .status) hs, status_acknowledge v { s with schedule := rest }, rfl,
    fun hv => irq_acknowledge hv { s with schedule := rest }⟩

theorem writeReg_ctrl_of_reset (c : Config) {v : Word} (hv : v.getLsbD 1 = true) (s : State) :
    writeReg c .ctrl v s = softReset c s := by rw [writeReg, writeCtrl, hv, if_pos rfl]

theorem writeReg_ctrl_of_no_reset (c : Config) {v : Word} (hv : v.getLsbD 1 = false) (s : State) :
    writeReg c .ctrl v s = { s with regs := { s.regs with irqEn := v.getLsbD 0 } } := by
  rw [writeReg, writeCtrl, hv, if_neg Bool.false_ne_true]

theorem bitWord_getLsbD_zero (v : Word) : bitWord (v.getLsbD 0) = v &&& 1#32 := by
  rw [BitVec.and_one_eq_setWidth_ofBool_getLsbD]
  cases v.getLsbD 0 <;> rfl

/-- Settles O21: without `SRST` the step only gives `IRQ_EN` bit 0 of the word. -/
theorem ctrlWriteSetsInterruptEnable : Obligations.CtrlWriteSetsInterruptEnable := by
  intro s v rest hs hv
  have hstep := step_regWrite (r := .ctrl) hs
  rw [writeReg_ctrl_of_no_reset ref hv] at hstep
  exact ⟨_, hstep, rfl, bitWord_getLsbD_zero v, rfl⟩

end Sys2Proof.Machine
end

section
/-! PROOFS. The end of a command, whatever its results, and the steps that set the violation mark. -/

open Sys2Proof Sys2Proof.Machine Sys2Proof.Claims

namespace Sys2Proof.Machine

/-! ### Decoded commands are well formed -/

theorem eq_of_decodePlain {w : Word} {i j : Instr} (h : decodePlain w j = .ok i) : i = j := by
  unfold decodePlain at h
  split at h <;> cases h
  rfl

theorem wf_of_decodeTrial {w : Word} {i : Instr} (h : decodeTrial w = .ok i) : i.wf = true := by
  unfold decodeTrial at h
  split at h
  · cases h
  · split at h <;> cases h
    next ho => exact decide_eq_true ho

theorem wf_of_decode {w : Word} {i : Instr} (h : decode w = .ok i) : i.wf = true := by
  unfold decode at h
  split at h
  · cases h
  · split at h
    case h_3 => cases h; rfl
    case h_9 => exact wf_of_decodeTrial h
    case h_10 => cases h
    all_goals rw [eq_of_decodePlain h]; rfl

/-! ### The end of a command -/

/-- What a command leaves alone once its input is read: no part of it is a result or a memory, `STATUS.DONE` or
`STATUS.ERR`, the latch, or a draw (60_exceptions.md R266). -/
structure Untouched where
  mark     : Bool
  ovr      : Bool
  irqEn    : Bool
  cmd      : Word
  schedule : List Event
  reads    : List Word

def State.untouched (s : State) : Untouched where
  mark     := s.mark
  ovr      := s.regs.ovr
  irqEn    := s.regs.irqEn
  cmd      := s.regs.cmd
  schedule := s.schedule
  reads    := s.reads

/-- The state `r` is that of a command which ended after its input was read in `s`. -/
def EndsFrom (s r : State) : Prop := ∃ e t, r = complete e t ∧ t.untouched = s.untouched

theorem EndsFrom.untouched {s r : State} (h : EndsFrom s r) : r.untouched = s.untouched := by
  obtain ⟨e, t, rfl, h⟩ := h
  exact h

theorem EndsFrom.mark {s r : State} (h : EndsFrom s r) : r.mark = s.mark := congrArg Untouched.mark h.untouched

theorem EndsFrom.ovr {s r : State} (h : EndsFrom s r) : r.regs.ovr = s.regs.ovr := congrArg Untouched.ovr h.untouched

theorem EndsFrom.latch {s r : State} (h : EndsFrom s r) : r.latch = none := by
  obtain ⟨e, t, rfl, -⟩ := h
  rfl

theorem EndsFrom.done {s r : State} (h : EndsFrom s r) : r.regs.done = true := by
  obtain ⟨e, t, rfl, -⟩ := h
  rfl

theorem raise_endsFrom (e : ErrCode) (s : State) : EndsFrom s (raise e s) := ⟨_, _, rfl, rfl⟩

/-- The state of a command after its `MemRead`, which takes place only inside the space (20_memory.md R89). -/
def afterRead (c : Config) (i : Instr) (s : State) : State :=
  match inputRange i s.regs with
  | none            => s
  | some (sp, a, n) => if a + n ≤ spaceSize c sp then (memRead s sp a n).2 else s

section
variable {c : Config} {s : State}

theorem crcCommand_endsFrom (hin : s.regs.srcAddr.toNat + s.regs.srcLen.toNat ≤ spaceSize c .oct) :
    EndsFrom (memRead s .oct s.regs.srcAddr.toNat s.regs.srcLen.toNat).2 (crcCommand c s) := by
  rcases crcCommand_cases c s with ⟨h, -⟩ | ⟨bs, s1, -, hread, e⟩
  · exact absurd hin (Nat.not_le.mpr h)
  · rw [hread]
    exact ⟨_, _, e, rfl⟩

theorem discriminate_endsFrom (hin : s.regs.srcAddr.toNat + spb ≤ spaceSize c .smp) :
    EndsFrom (memRead s .smp s.regs.srcAddr.toNat spb).2 (discriminate c s) := by
  rcases discriminate_cases c s with ⟨h, -⟩ | ⟨w, s1, -, hread, e⟩
  · exact absurd hin (Nat.not_le.mpr h)
  · rw [hread]
    exact ⟨_, _, e, rfl⟩

theorem demodStep_endsFrom (hin : s.regs.srcAddr.toNat + spb ≤ spaceSize c .smp) :
    EndsFrom (memRead s .smp s.regs.srcAddr.toNat spb).2 (demodStep c s) := by
  rcases demodStep_cases c s with ⟨h, -⟩ | ⟨w, s1, -, hread, e⟩
  · exact absurd hin (Nat.not_le.mpr h)
  · rw [hread]
    exact ⟨_, _, e, rfl⟩

theorem decodeFrame_endsFrom (hin : s.regs.srcAddr.toNat + s.regs.srcLen.toNat ≤ spaceSize c .oct) :
    EndsFrom (memRead s .oct s.regs.srcAddr.toNat s.regs.srcLen.toNat).2 (decodeFrame c s) := by
  rcases decodeFrame_cases c s with ⟨h, -⟩ | ⟨f, s1, -, hread, ⟨-, e⟩ | ⟨t, -, e⟩⟩
  · exact absurd hin (Nat.not_le.mpr h)
  all_goals
    rw [hread]
    exact ⟨_, _, e, rfl⟩

theorem encodeFrame_endsFrom (hin : s.regs.srcAddr.toNat + s.regs.srcLen.toNat ≤ spaceSize c .oct) :
    EndsFrom (memRead s .oct s.regs.srcAddr.toNat s.regs.srcLen.toNat).2 (encodeFrame c s) := by
  have hregs := memRead_regs s .oct s.regs.srcAddr.toNat s.regs.srcLen.toNat
  rcases encodeFrame_cases c s with ⟨h, -⟩ | ⟨p, s1, -, hread, ⟨-, e⟩ | ⟨-, -, e⟩ | ⟨-, -, -, e⟩⟩
  · exact absurd hin (Nat.not_le.mpr h)
  all_goals
    rw [hread] at hregs ⊢
  · exact ⟨_, _, e, rfl⟩
  · exact ⟨_, _, e, rfl⟩
  · rw [← hregs] at e
    exact ⟨_, _, e, rfl⟩

theorem modulate_endsFrom (nb ne : Byte) (hin : s.regs.srcAddr.toNat + s.regs.srcLen.toNat ≤ spaceSize c .oct) :
    EndsFrom (memRead s .oct s.regs.srcAddr.toNat s.regs.srcLen.toNat).2 (modulate c nb ne s) := by
  have hregs := memRead_regs s .oct s.regs.srcAddr.toNat s.regs.srcLen.toNat
  rcases modulate_cases c nb ne s with ⟨h, -⟩ | ⟨octets, s1, -, hread, ⟨-, e⟩ | ⟨-, len, d, -, e⟩⟩
  · exact absurd hin (Nat.not_le.mpr h)
  all_goals
    rw [hread] at hregs ⊢
  · exact ⟨_, _, e, rfl⟩
  · rw [← hregs] at e
    exact ⟨_, _, e, rfl⟩

theorem deliverFrame_endsFrom (c : Config) (o : Nat) (acc : List Byte) (s : State) :
    EndsFrom s (deliverFrame c o acc s) := by
  rcases deliverFrame_cases c o acc s with ⟨-, e⟩ | ⟨-, e⟩ <;> exact ⟨_, _, e, rfl⟩

theorem demodTrial_endsFrom {o : Byte} (ho : o.toNat < spb)
    (hin : s.regs.srcAddr.toNat + s.regs.srcLen.toNat ≤ spaceSize c .smp) :
    EndsFrom (memRead s .smp s.regs.srcAddr.toNat s.regs.srcLen.toNat).2 (demodTrial c o s) := by
  rcases demodTrial_cases c o s with ⟨h, -⟩ | ⟨-, h, -⟩ | ⟨buf, s1, -, -, hread, ⟨-, e⟩ | ⟨acc, -, e⟩⟩
  · exact absurd ho (Nat.not_lt.mpr h)
  · exact absurd hin (Nat.not_le.mpr h)
  · rw [hread]
    exact ⟨_, _, e, rfl⟩
  · rw [hread, e]
    exact deliverFrame_endsFrom c _ acc s1

theorem demodulate_endsFrom (hin : s.regs.srcAddr.toNat + s.regs.srcLen.toNat ≤ spaceSize c .smp) :
    EndsFrom (memRead s .smp s.regs.srcAddr.toNat s.regs.srcLen.toNat).2 (demodulate c s) := by
  rcases demodulate_cases c s with ⟨h, -⟩ | ⟨buf, s1, -, hread, ⟨-, e⟩ | ⟨o, acc, -, e⟩⟩
  · exact absurd hin (Nat.not_le.mpr h)
  · rw [hread]
    exact ⟨_, _, e, rfl⟩
  · rw [hread, e]
    exact deliverFrame_endsFrom c o acc s1

theorem perform_endsFrom_of_inRange {i : Instr} (hwf : i.wf = true) {sp : Space} {a n : Nat}
    (hi : inputRange i s.regs = some (sp, a, n)) (hin : a + n ≤ spaceSize c sp) :
    EndsFrom (memRead s sp a n).2 (perform c i s) := by
  cases i <;> cases hi
  case encodeFrame => exact encodeFrame_endsFrom hin
  case decodeFrame => exact decodeFrame_endsFrom hin
  case modulate nb ne => exact modulate_endsFrom nb ne hin
  case demodulate => exact demodulate_endsFrom hin
  case discriminate => exact discriminate_endsFrom hin
  case demodStep => exact demodStep_endsFrom hin
  case crc16 => exact crcCommand_endsFrom hin
  case demodTrial o => exact demodTrial_endsFrom (of_decide_eq_true hwf) hin

/-- Every command ends, and but for its results only its `MemRead` and its completion act (60_exceptions.md R266). -/
theorem perform_endsFrom {i : Instr} (hwf : i.wf = true) : EndsFrom (afterRead c i s) (perform c i s) := by
  unfold afterRead
  split
  next hi =>
    cases i <;> cases hi
    exact ⟨_, _, rfl, rfl⟩
  next sp a n hi =>
    split
    next hin => exact perform_endsFrom_of_inRange hwf hi hin
    next hout =>
      rw [perform_inputOutOfRange hwf hi (Nat.not_le.mp hout)]
      exact ⟨_, _, rfl, rfl⟩

end

theorem completeUnconstrained_endsFrom (c : Config) (i : Instr) (s : State) :
    EndsFrom s (completeUnconstrained c i s) := by
  obtain ⟨hregs, -, hmark, -, -, hschedule, hreads⟩ := forgetBound_frame c i s
  have hfree (d : Nat) (g : Regs) : (freeResults i d g).ovr = g.ovr ∧ (freeResults i d g).irqEn = g.irqEn ∧
      (freeResults i d g).cmd = g.cmd := by cases i <;> exact ⟨rfl, rfl, rfl⟩
  refine ⟨_, _, rfl, ?_⟩
  simp [State.untouched, hregs, hmark, hschedule, hreads, hfree]

theorem bytesIn_eq_spaceSize (sp : Space) : bytesIn sp = spaceSize ref sp := by cases sp <;> rfl

/-- `MemRead` sets the mark exactly at an unwritten byte (20_memory.md R95). -/
theorem memRead_mark (s : State) (sp : Space) (a n : Nat) : (memRead s sp a n).2.mark = true ↔
    s.mark = true ∨ ∃ x, a ≤ x ∧ x < a + n ∧ (s.mem sp).read x = none := by
  rcases memRead_cases s sp a n with ⟨hall, e⟩ | ⟨⟨i, hi, hnone⟩, e⟩ <;> rw [e]
  · refine (or_iff_left ?_).symm
    rintro ⟨x, hax, hxn, hx⟩
    have hsome := hall (x - a) (by omega)
    rw [Nat.add_sub_cancel' hax, hx] at hsome
    cases hsome
  · exact iff_of_true rfl (.inr ⟨a + i, by omega, by omega, hnone⟩)

theorem afterRead_regs (c : Config) (i : Instr) (s : State) : (afterRead c i s).regs = s.regs := by
  unfold afterRead
  split
  · rfl
  · split
    · exact memRead_regs ..
    · rfl

theorem afterRead_mark (i : Instr) (s : State) :
    (afterRead ref i s).mark = true ↔ s.mark = true ∨ ReadsUnwritten i s := by
  unfold afterRead ReadsUnwritten
  split
  next hi => simp [hi]
  next sp a n hi =>
    rw [← bytesIn_eq_spaceSize]
    split
    next hin => simp [memRead_mark, hi, hin]
    next hout => simp [hi, hout]

/-! ### The engine's turn -/

/-- With a command pending, the engine's turn ends it (60_exceptions.md R266). -/
theorem engineTurn_ends {c : Config} {s t : State} (h : engineTurn c s = .next t) (hl : s.latch ≠ none) :
    t.latch = none ∧ t.regs.done = true ∧ t.regs.ovr = s.regs.ovr := by
  have ends {s1 : State} (hregs : s1.regs = s.regs) (he : EndsFrom s1 t) :
      t.latch = none ∧ t.regs.done = true ∧ t.regs.ovr = s.regs.ovr := ⟨he.latch, he.done, hregs ▸ he.ovr⟩
  rcases engineTurn_cases c s with ⟨hnone, -⟩ | ⟨w, e, -, -, ht⟩ | ⟨w, i, -, -, -, ht⟩ | ⟨w, i, -, hd, -, ht⟩
  · exact absurd hnone hl
  all_goals obtain rfl := Host.Outcome.next.inj (ht.symm.trans h)
  · exact ends rfl (raise_endsFrom _ s)
  · exact ends rfl (completeUnconstrained_endsFrom c i s)
  · exact ends (afterRead_regs c i s) (perform_endsFrom (wf_of_decode hd))

theorem engineTurn_mark {s t : State} (hdist : s.disturbed = true → s.mark = true) (h : engineTurn ref s = .next t) :
    t.mark = true ↔ s.mark = true ∨ ∃ w i, s.latch = some w ∧ decode w = .ok i ∧ ReadsUnwritten i s := by
  rcases engineTurn_cases ref s with ⟨hl, ht⟩ | ⟨w, e, hl, hd, ht⟩ | ⟨w, i, -, -, hdi, ht⟩ | ⟨w, i, hl, hd, -, ht⟩ <;>
    obtain rfl := Host.Outcome.next.inj (ht.symm.trans h)
  · simp [hl]
  · simp [hl, hd]
  · rw [(completeUnconstrained_endsFrom ref i s).mark]
    exact iff_of_true (hdist hdi) (.inl (hdist hdi))
  · rw [(perform_endsFrom (wf_of_decode hd)).mark, afterRead_mark]
    simp [hl, hd]

/-! ### The host's accesses -/

theorem writeReg_mark (c : Config) (r : Reg) (v : Word) (s : State) : (writeReg c r v s).mark = s.mark := by
  have plain (g : Regs) : (if s.busy then s else { s with regs := g }).mark = s.mark := by split <;> rfl
  cases r with
  | ctrl =>
    obtain ⟨hmark, -⟩ := abortPending_frame c s
    rw [writeReg, writeCtrl]
    split
    · exact hmark
    · rfl
  | status => rfl
  | cmd =>
    rw [writeReg]
    rcases writeCmd_cases v s with ⟨-, e⟩ | ⟨-, e⟩ <;> rw [e]
    exact accept_mark v s
  | _ => exact plain _

theorem hostMemRead_mark (sp : Space) (a : Nat) (s : State) :
    (hostMemRead sp a s).mark = true ↔ s.mark = true ∨ s.latch ≠ none := by
  rcases hostMemRead_cases sp a s with ⟨hl, e⟩ | ⟨v, hl, -, e⟩ | ⟨hl, -, e⟩ <;> simp [e, hl]

theorem hostMemWrite_mark (sp : Space) (a : Nat) (v : Byte) (s : State) :
    (hostMemWrite sp a v s).mark = true ↔ s.mark = true ∨ s.latch ≠ none := by
  rcases hostMemWrite_cases sp a v s with ⟨hl, e⟩ | ⟨hl, e | e⟩ <;> simp [e, hl]

/-- A host access sets the mark exactly if it is a violation (60_exceptions.md R272). -/
theorem hostAccess_mark (h : HostAccess) (s : State) :
    (hostAccess ref h s).mark = true ↔ s.mark = true ∨ Violates h s := by
  cases h with
  | regRead off bits =>
    by_cases ho : off < 0x100
    · rw [hostAccess_regRead ref _ _ _ ho]
      rcases hostRegRead_cases off bits s with ⟨hb, ha, e⟩ | ⟨hv, e⟩ <;> rw [e]
      · simp [Violates, hb, ha]
      · exact iff_of_true rfl (.inr ⟨ho, hv⟩)
    · simp [hostAccess, regWindow, Violates, ho]
  | regWrite off bits v =>
    by_cases ho : off < 0x100
    · rw [hostAccess_regWrite ref _ _ _ _ ho]
      rcases hostRegWrite_cases ref off bits v s with ⟨r, hb, ha, -, e⟩ | ⟨hb, ha, -, e⟩ | ⟨hv, e⟩ <;> rw [e]
      · simp [Violates, writeReg_mark, hb, ha]
      · simp [Violates, hb, ha]
      · exact iff_of_true rfl (.inr ⟨ho, hv⟩)
    · simp [hostAccess, regWindow, Violates, ho]
  | memRead sp a =>
    by_cases ha : a < spaceSize ref sp <;> simp [hostAccess, Violates, bytesIn_eq_spaceSize, ha, hostMemRead_mark]
  | memWrite sp a v =>
    by_cases ha : a < spaceSize ref sp <;> simp [hostAccess, Violates, bytesIn_eq_spaceSize, ha, hostMemWrite_mark]

/-! ### The step -/

/-- Whose turn it is: the engine's, the host's or the power-on reset's (70_reset_and_hazards.md R300). -/
theorem nextStep_turns (c : Config) (s : State) :
    (∃ rest, EngineNext s rest ∧ nextStep c s = engineTurn c { s with schedule := rest }) ∨
    (∃ h rest, HostNext s h rest ∧ nextStep c s = .next (hostAccess c h { s with schedule := rest })) ∨
    (∃ rest, s.schedule = .powerOn :: rest ∧ nextStep c s = .next (powerOnReset c { s with schedule := rest })) := by
  rcases nextStep_cases c s with ⟨hs, e⟩ | h | ⟨rest, hs, e⟩ | h
  · refine .inl ⟨[], .inr ⟨hs, rfl⟩, ?_⟩
    rw [e, ← hs]
  · exact .inr (.inl h)
  · exact .inl ⟨rest, .inl hs, e⟩
  · exact .inr (.inr h)

theorem not_hostNext_of_engineNext {s : State} {rest rest' : List Event} {h : HostAccess} (he : EngineNext s rest) :
    ¬ HostNext s h rest' := by
  intro hh
  rcases he with e | ⟨e, -⟩ <;> cases e.symm.trans hh

theorem not_powerOn_of_engineNext {s : State} {rest rest' : List Event} (he : EngineNext s rest) :
    s.schedule ≠ .powerOn :: rest' := by
  intro hp
  rcases he with e | ⟨e, -⟩ <;> cases e.symm.trans hp

/-- Settles O11: the engine's turn sets the mark by a `MemRead`, a host access by being a violation, and the power-on reset
leaves it. -/
theorem markIsSetByViolationsAlone : Obligations.MarkIsSetByViolationsAlone := by
  intro s t hinv ht
  rcases nextStep_turns ref s with ⟨rest, hs, e⟩ | ⟨h, rest, hs, e⟩ | ⟨rest, hs, e⟩ <;> rw [step, e] at ht
  · rw [engineTurn_mark (s := { s with schedule := rest }) hinv.disturbedMarked ht]
    constructor
    · rintro (hmark | ⟨w, i, hl, hd, hread⟩)
      · exact .inl hmark
      · exact .inr (.inr ⟨rest, w, i, hs, hl, hd, hread⟩)
    · rintro (hmark | ⟨h, rest', hh, -⟩ | ⟨rest', w, i, -, hl, hd, hread⟩)
      · exact .inl hmark
      · exact absurd hh (not_hostNext_of_engineNext hs)
      · exact .inr ⟨w, i, hl, hd, hread⟩
  · obtain rfl := Host.Outcome.next.inj ht
    rw [hostAccess_mark]
    constructor
    · rintro (hmark | hv)
      · exact .inl hmark
      · exact .inr (.inl ⟨h, rest, hs, hv⟩)
    · rintro (hmark | ⟨h', rest', hh, hv⟩ | ⟨rest', w, i, he, -⟩)
      · exact .inl hmark
      · cases hs.symm.trans hh
        exact .inr hv
      · exact absurd hs (not_hostNext_of_engineNext he)
  · obtain rfl := Host.Outcome.next.inj ht
    rw [powerOnReset_mark]
    refine (or_iff_left ?_).symm
    rintro (⟨h, rest', hh, -⟩ | ⟨rest', w, i, he, -⟩)
    · cases hs.symm.trans hh
    · exact absurd hs (not_powerOn_of_engineNext he)

end Sys2Proof.Machine
end

section
/-! PROOFS. The events of a step, and what they do to `DONE`, `OVR` and `BUSY`. -/

open Sys2Proof Sys2Proof.Machine Sys2Proof.Claims

namespace Sys2Proof.Machine

/-! ### Host accesses that are no violation -/

/-- Everything a host access that is no violation does to the registers and the latch: it is a register's own write, or it
leaves them alone. -/
theorem hostAccess_of_not_violates {h : HostAccess} {s : State} (hv : ¬ Violates h s) :
    (∃ (r : Reg) (v : Word), h = .regWrite r.offset 32 v) ∨
    ((∀ (r : Reg) v, h ≠ .regWrite r.offset 32 v) ∧
      (hostAccess ref h s).regs = s.regs ∧ (hostAccess ref h s).latch = s.latch) := by
  rcases hostAccess_cases ref h s with ⟨e, -, hout, -⟩ | ⟨off, bits, rfl, ho, e⟩ | ⟨off, bits, v, rfl, ho, e⟩ |
    ⟨sp, a, rfl, ha, e⟩ | ⟨sp, a, v, rfl, ha, e⟩ <;> rw [e]
  · exact .inr ⟨fun r v hr => absurd (hout r.offset 32 v hr) (Nat.not_le.mpr ((offset_lt r).trans (by decide))), rfl, rfl⟩
  · refine .inr ⟨nofun, ?_⟩
    rcases hostRegRead_cases off bits s with ⟨-, -, e⟩ | ⟨hbad, -⟩
    · rw [e]; exact ⟨rfl, rfl⟩
    · exact absurd ⟨ho, hbad⟩ hv
  · rcases hostRegWrite_cases ref off bits v s with ⟨r, rfl, -, hr, -⟩ | ⟨-, -, hr, e⟩ | ⟨hbad, -⟩
    · exact .inl ⟨r, v, by rw [offset_of_regAt hr]⟩
    · refine .inr ⟨fun r v' heq => ?_, by rw [e], by rw [e]⟩
      cases heq
      simp at hr
    · exact absurd ⟨ho, hbad⟩ hv
  · rw [← bytesIn_eq_spaceSize] at ha
    refine .inr ⟨nofun, ?_⟩
    rcases hostMemRead_cases sp a s with ⟨hl, -⟩ | ⟨v, -, -, e⟩ | ⟨-, -, e⟩
    · exact absurd ⟨ha, hl⟩ hv
    all_goals rw [e]; exact ⟨rfl, rfl⟩
  · rw [← bytesIn_eq_spaceSize] at ha
    refine .inr ⟨nofun, ?_⟩
    rcases hostMemWrite_cases sp a v s with ⟨-, e⟩ | ⟨hl, -⟩
    · rw [e]; exact ⟨memWrite_regs .., memWrite_latch ..⟩
    · exact absurd ⟨ha, hl⟩ hv

/-! ### The events of a step -/

/-- The step of `s` is the completion of a command. -/
def Completes (s : State) : Prop := ∃ rest, EngineNext s rest ∧ s.latch ≠ none

/-- The step of `s` accepts a command. -/
def Accepts (s : State) : Prop := ∃ w rest, HostNext s (.regWrite 0x0C 32 w) rest ∧ s.latch = none

/-- The step of `s` is a write to `CMD` while busy. -/
def Overruns (s : State) : Prop := ∃ w rest, HostNext s (.regWrite 0x0C 32 w) rest ∧ s.latch ≠ none

/-- The step of `s` is a power-on or a soft reset. -/
def Resets (s : State) : Prop :=
  (∃ rest, s.schedule = .powerOn :: rest) ∨ ∃ v rest, HostNext s (.regWrite 0x04 32 v) rest ∧ v.getLsbD 1 = true

/-- The step of `s` writes 1 to bit `k` of `STATUS`. -/
def Acks (s : State) (k : Nat) : Prop := ∃ v rest, HostNext s (.regWrite 0x08 32 v) rest ∧ v.getLsbD k = true

/-- `DONE`, `OVR` and `BUSY` of `t` are what the event of the step of `s` makes them (10_state.md R35, R60). -/
def FollowsEvents (s t : State) : Prop :=
  (t.regs.done = true ↔ Completes s ∨ (s.regs.done = true ∧ ¬ Resets s ∧ ¬ Accepts s ∧ ¬ Acks s 1)) ∧
  (t.regs.ovr = true ↔ Overruns s ∨ (s.regs.ovr = true ∧ ¬ Resets s ∧ ¬ Acks s 2)) ∧
  (t.busy = true ↔ Accepts s ∨ (s.busy = true ∧ ¬ Resets s ∧ ¬ Completes s))

theorem offset_eq_ctrl {r : Reg} : r.offset = 0x04 ↔ r = .ctrl := by cases r <;> decide

theorem offset_eq_status {r : Reg} : r.offset = 0x08 ↔ r = .status := by cases r <;> decide

theorem offset_eq_cmd {r : Reg} : r.offset = 0x0C ↔ r = .cmd := by cases r <;> decide

theorem not_completes_of_hostNext {s : State} {h : HostAccess} {rest : List Event} (hs : HostNext s h rest) :
    ¬ Completes s := by
  rintro ⟨_, he, -⟩
  exact not_hostNext_of_engineNext he hs

/-- What the events are at an aligned word write to a register. -/
theorem followsEvents_regWrite_iff {s t : State} {r : Reg} {v : Word} {rest : List Event}
    (hs : HostNext s (.regWrite r.offset 32 v) rest) : FollowsEvents s t ↔
    (t.regs.done = true ↔ s.regs.done = true ∧ ¬ (r = .ctrl ∧ v.getLsbD 1 = true) ∧ ¬ (r = .cmd ∧ s.latch = none) ∧
      ¬ (r = .status ∧ v.getLsbD 1 = true)) ∧
    (t.regs.ovr = true ↔ (r = .cmd ∧ s.latch ≠ none) ∨ (s.regs.ovr = true ∧ ¬ (r = .ctrl ∧ v.getLsbD 1 = true) ∧
      ¬ (r = .status ∧ v.getLsbD 2 = true))) ∧
    (t.busy = true ↔ (r = .cmd ∧ s.latch = none) ∨ (s.busy = true ∧ ¬ (r = .ctrl ∧ v.getLsbD 1 = true))) := by
  have hcompletes := not_completes_of_hostNext hs
  have haccepts : Accepts s ↔ r = .cmd ∧ s.latch = none := by
    simp [Accepts, HostNext, show s.schedule = _ from hs, offset_eq_cmd]
  have hoverruns : Overruns s ↔ r = .cmd ∧ s.latch ≠ none := by
    simp [Overruns, HostNext, show s.schedule = _ from hs, offset_eq_cmd]
  have hresets : Resets s ↔ r = .ctrl ∧ v.getLsbD 1 = true := by
    simp [Resets, HostNext, show s.schedule = _ from hs, offset_eq_ctrl]
  have hacks (k : Nat) : Acks s k ↔ r = .status ∧ v.getLsbD k = true := by
    simp [Acks, HostNext, show s.schedule = _ from hs, offset_eq_status]
  simp only [FollowsEvents, hcompletes, haccepts, hoverruns, hresets, hacks, false_or, not_false_iff, and_true]

/-- What is left of the events at a step that is no write to a register. -/
theorem followsEvents_iff_of_no_write {s t : State}
    (hwrite : ∀ (r : Reg) v rest, ¬ HostNext s (.regWrite r.offset 32 v) rest) : FollowsEvents s t ↔
    (t.regs.done = true ↔ Completes s ∨ (s.regs.done = true ∧ ¬ ∃ rest, s.schedule = .powerOn :: rest)) ∧
    (t.regs.ovr = true ↔ s.regs.ovr = true ∧ ¬ ∃ rest, s.schedule = .powerOn :: rest) ∧
    (t.busy = true ↔ s.busy = true ∧ (¬ ∃ rest, s.schedule = .powerOn :: rest) ∧ ¬ Completes s) := by
  have haccepts : ¬ Accepts s := fun ⟨w, rest, hw, _⟩ => hwrite .cmd w rest hw
  have hoverruns : ¬ Overruns s := fun ⟨w, rest, hw, _⟩ => hwrite .cmd w rest hw
  have hresets : Resets s ↔ ∃ rest, s.schedule = .powerOn :: rest :=
    or_iff_left fun ⟨v, rest, hw, _⟩ => hwrite .ctrl v rest hw
  have hacks (k : Nat) : ¬ Acks s k := fun ⟨v, rest, hw, _⟩ => hwrite .status v rest hw
  simp only [FollowsEvents, haccepts, hoverruns, hresets, hacks, false_or, not_false_iff, and_true]

/-! ### The steps follow them -/

theorem storeReg_flags (r : Reg) (v : Word) (g : Regs) :
    (storeReg r v g).done = g.done ∧ (storeReg r v g).ovr = g.ovr := by cases r <;> exact ⟨rfl, rfl⟩

theorem writeReg_followsEvents {s : State} {r : Reg} {v : Word} {rest : List Event}
    (hs : HostNext s (.regWrite r.offset 32 v) rest) :
    FollowsEvents s (writeReg ref r v { s with schedule := rest }) := by
  rw [followsEvents_regWrite_iff hs]
  rcases eq_or_ne r .ctrl with rfl | hctrl
  · cases hv : v.getLsbD 1 with
    | true => simp [writeReg_ctrl_of_reset ref hv, softReset, Regs.reset, State.busy]
    | false => simp [writeReg_ctrl_of_no_reset ref hv, State.busy]
  rcases eq_or_ne r .status with rfl | hstatus
  · simp [writeReg, acknowledge, State.busy]
  rcases eq_or_ne r .cmd with rfl | hcmd
  · rw [writeReg]
    rcases writeCmd_cases v { s with schedule := rest } with ⟨hl, e⟩ | ⟨hl, e⟩ <;> rw [e]
    · simp [show s.latch = none from hl, State.busy]
    · simp [show s.latch ≠ none from hl, State.busy]
  rw [writeReg_plain ref v _ hctrl hstatus hcmd]
  split <;> simp [hctrl, hstatus, hcmd, State.busy, storeReg_flags]

theorem followsEvents_of_quiet {s t : State} {h : HostAccess} {rest : List Event} (hs : HostNext s h rest)
    (hquiet : ∀ (r : Reg) v, h ≠ .regWrite r.offset 32 v) (hregs : t.regs = s.regs) (hlatch : t.latch = s.latch) :
    FollowsEvents s t := by
  have hwrite (r : Reg) (v : Word) (rest' : List Event) : ¬ HostNext s (.regWrite r.offset 32 v) rest' := by
    intro hw
    cases hs.symm.trans hw
    exact hquiet r v rfl
  have hpower : ¬ ∃ rest', s.schedule = .powerOn :: rest' := fun ⟨_, hp⟩ => by cases hs.symm.trans hp
  rw [followsEvents_iff_of_no_write hwrite]
  simp [not_completes_of_hostNext hs, hpower, hregs, hlatch, State.busy]

theorem engineTurn_followsEvents {s t : State} {rest : List Event} (hs : EngineNext s rest)
    (ht : engineTurn ref { s with schedule := rest } = .next t) : FollowsEvents s t := by
  have hcompletes : Completes s ↔ s.latch ≠ none := ⟨fun ⟨_, _, hl⟩ => hl, fun hl => ⟨rest, hs, hl⟩⟩
  have hpower : ¬ ∃ rest', s.schedule = .powerOn :: rest' := fun ⟨_, hp⟩ => not_powerOn_of_engineNext hs hp
  rw [followsEvents_iff_of_no_write fun _ _ _ => not_hostNext_of_engineNext hs]
  by_cases hl : s.latch = none
  · have hidle : engineTurn ref { s with schedule := rest } = .next { s with schedule := rest } := by
      simp only [engineTurn, hl]
    obtain rfl := Host.Outcome.next.inj (hidle.symm.trans ht)
    simp [hcompletes, hpower, hl, State.busy]
  · obtain ⟨hlatch, hdone, hovr⟩ := engineTurn_ends ht hl
    simp [hcompletes, hpower, hl, hlatch, hdone, hovr, State.busy]

theorem powerOnReset_followsEvents {s : State} {rest : List Event} (hs : s.schedule = .powerOn :: rest) :
    FollowsEvents s (powerOnReset ref { s with schedule := rest }) := by
  have hcompletes : ¬ Completes s := fun ⟨_, he, _⟩ => not_powerOn_of_engineNext he hs
  rw [followsEvents_iff_of_no_write fun _ _ _ hw => by cases hs.symm.trans hw]
  simp [hcompletes, hs, Regs.reset, State.busy]

/-- Settles O12: a host access that is no violation is a register's own write or leaves the three bits alone, and the
engine's turn ends a pending command. -/
theorem doneOvrAndBusyFollowTheirEvents : Obligations.DoneOvrAndBusyFollowTheirEvents := by
  intro s t ht hv
  suffices hgoal : FollowsEvents s t from hgoal
  rcases nextStep_turns ref s with ⟨rest, hs, e⟩ | ⟨h, rest, hs, e⟩ | ⟨rest, hs, e⟩ <;> rw [step, e] at ht
  · exact engineTurn_followsEvents hs ht
  · obtain rfl := Host.Outcome.next.inj ht
    rcases hostAccess_of_not_violates (s := { s with schedule := rest }) (hv h rest hs) with
      ⟨r, v, rfl⟩ | ⟨hquiet, hregs, hlatch⟩
    · rw [hostAccess_register]
      exact writeReg_followsEvents hs
    · exact followsEvents_of_quiet hs hquiet hregs hlatch
  · obtain rfl := Host.Outcome.next.inj ht
    exact powerOnReset_followsEvents hs

end Sys2Proof.Machine
end

section
/-! PROOFS. The host's reads of registers, its accesses to the memories of an idle block, the input range of a command,
and the platform's windows. -/

open Sys2Proof Sys2Proof.Machine Sys2Proof.Claims

namespace Sys2Proof.Machine

/-! ### Register reads -/

theorem regRead_offset (s : State) (r : Reg) : s.regRead r.offset = s.regValue r := by simp [State.regRead]

theorem regRead_unmapped (s : State) {off : Nat} (h : 0x50 ≤ off) : s.regRead off = 0#32 := by
  simp [State.regRead, regAt_unmapped h]

/-- An aligned word read in the register window does nothing but answer the host (20_memory.md R92). -/
theorem hostAccess_regRead_aligned (c : Config) {off : Nat} (s : State) (ha : off % 4 = 0) (ho : off < 0x100) :
    hostAccess c (.regRead off 32) s = answer (s.regRead off) s := by
  rw [hostAccess_regRead c off 32 s ho, hostRegRead, if_pos ((regularAccess_iff off 32).mpr ⟨rfl, ha⟩)]

/-- Settles O19: the step only answers with `regRead`, which is the mapped register's value, or 0 where none is. -/
theorem registerReadHasNoSideEffect : Obligations.RegisterReadHasNoSideEffect := by
  intro s off rest hs ha ho
  have hstep := nextStep_host (c := ref) hs
  rw [hostAccess_regRead_aligned ref _ ha ho] at hstep
  refine ⟨_, hstep, ?_, regRead_unmapped _, ?_⟩
  · rintro r rfl
    exact regRead_offset { s with schedule := rest } r
  · rintro rfl
    exact regRead_offset { s with schedule := rest } .id

/-! ### Accesses to the memories of an idle block -/

theorem memWrite_mem_same (s : State) (sp : Space) (a : Nat) (vs : List Byte) :
    (memWrite s sp a vs).mem sp = (s.mem sp).writeRange a vs := by cases sp <;> rfl

theorem memWrite_mem_other (s : State) {sp sp' : Space} (h : sp' ≠ sp) (a : Nat) (vs : List Byte) :
    (memWrite s sp a vs).mem sp' = s.mem sp' := by cases sp <;> cases sp' <;> simp at h ⊢

/-- A byte write leaves every other byte of both memories (20_memory.md R85). -/
theorem memWrite_read_other (s : State) {sp sp' : Space} {a x : Nat} (v : Byte) (h : sp' ≠ sp ∨ x ≠ a) :
    ((memWrite s sp a [v]).mem sp').read x = (s.mem sp').read x := by
  by_cases hsp : sp' = sp
  · subst hsp
    have hx : x ≠ a := h.resolve_left fun hne => hne rfl
    rw [memWrite_mem_same, ← Memory.write, Memory.read_write, if_neg hx]
  · rw [memWrite_mem_other s hsp]

/-- A memory write changes nothing but the two memories (20_memory.md R89). -/
theorem memWrite_frame (s : State) (sp : Space) (a : Nat) (vs : List Byte) :
    memWrite s sp a vs = { s with oct := (memWrite s sp a vs).oct, smp := (memWrite s sp a vs).smp } := by
  cases sp <;> rfl

section
variable {c : Config} {s : State} {sp : Space} {a : Nat} (ha : a < spaceSize c sp) (hl : s.latch = none)
include ha hl

theorem hostAccess_memWrite_lands (v : Byte) : hostAccess c (.memWrite sp a v) s = memWrite s sp a [v] := by
  simp [hostAccess, hostMemWrite, ha, hl]

theorem hostAccess_memRead_written {v : Byte} (hv : (s.mem sp).read a = some v) :
    hostAccess c (.memRead sp a) s = answer (v.setWidth 32) s := by
  simp [hostAccess, hostMemRead, ha, hl, hv]

theorem hostAccess_memRead_unwritten (hv : (s.mem sp).read a = none) :
    hostAccess c (.memRead sp a) s =
      answer ((Config.freeByte s.draws).setWidth 32) { s with draws := s.draws + 1 } := by
  simp [hostAccess, hostMemRead, ha, hl, hv]

end

/-- Settles O24: the step of a write is `memWrite` of one byte, and that of a read answers with the byte or with
a draw. -/
theorem hostMemoryAccessesWhileIdle : Obligations.HostMemoryAccessesWhileIdle := by
  refine ⟨fun s sp a v rest hs hl ha => ?_, fun s sp a rest hs hl ha => ?_⟩
  · rw [bytesIn_eq_spaceSize] at ha
    have hstep := nextStep_host (c := ref) hs
    rw [hostAccess_memWrite_lands (s := { s with schedule := rest }) ha hl] at hstep
    exact ⟨_, hstep, memWrite_read _ sp a v, fun _ _ => memWrite_read_other { s with schedule := rest } v,
      memWrite_frame _ sp a [v]⟩
  · rw [bytesIn_eq_spaceSize] at ha
    have hstep := nextStep_host (c := ref) hs
    refine ⟨fun v hv => ?_, fun hv => ⟨Config.freeByte s.draws, ?_⟩⟩
    · rwa [hostAccess_memRead_written (s := { s with schedule := rest }) ha hl hv] at hstep
    · rwa [hostAccess_memRead_unwritten (s := { s with schedule := rest }) ha hl hv] at hstep

/-! ### The input range of a command -/

/-- Settles O25: every command with an input range tests it first, and `raise` ends it. -/
theorem inputOutOfRangeIsRangeError : Obligations.InputOutOfRangeIsRangeError := by
  intro i s sp a n hwf hin hout
  rw [bytesIn_eq_spaceSize] at hout
  rw [exec_eq_perform, perform_inputOutOfRange hwf hin hout]
  rfl

/-! ### The platform's windows -/

theorem inWindow_iff (addr base size : Nat) :
    inWindow addr base size = true ↔ base ≤ addr ∧ addr < base + size := by
  simp [inWindow]

theorem inWindow_base_add {a size : Nat} (h : a < size) (base : Nat) : inWindow (base + a) base size = true :=
  (inWindow_iff ..).mpr ⟨Nat.le_add_right base a, Nat.add_lt_add_left h base⟩

theorem inWindow_outside {addr base size : Nat} (h : addr < base ∨ base + size ≤ addr) :
    inWindow addr base size = false := by
  rw [Bool.eq_false_iff, ne_eq, inWindow_iff]
  omega

/-- An address of the second of two windows that share none is outside the first. -/
theorem inWindow_apart {b1 n1 b2 n2 a : Nat} (hapart : windowsApart b1 n1 b2 n2 = true) (h : a < n2) :
    inWindow (b2 + a) b1 n1 = false := by
  simp only [windowsApart, Bool.or_eq_true, decide_eq_true_eq] at hapart
  exact inWindow_outside (by omega)

theorem Platform.legal_iff (p : Platform) (c : Config) : p.legal c = true ↔
    windowsApart p.regBase regWindow p.octBase c.octSize = true ∧
    windowsApart p.regBase regWindow p.smpBase c.smpSize = true ∧
    windowsApart p.octBase c.octSize p.smpBase c.smpSize = true := by
  simp [Platform.legal, and_assoc]

section
variable (p : Platform) {c : Config} (bits : Nat) (v : Word)

/-- An address in the register window reaches that offset (20_memory.md R81). -/
theorem Platform.access_regWindow {off : Nat} (h : off < regWindow) :
    p.read c (p.regBase + off) bits = some (.regRead off bits) ∧
    p.write c (p.regBase + off) bits v = some (.regWrite off bits v) := by
  simp [Platform.read, Platform.write, inWindow_base_add h]

/-- An address in the window of `OCT` reaches that byte (20_memory.md R82). -/
theorem Platform.access_octWindow (hp : p.legal c = true) {a : Nat} (h : a < c.octSize) :
    p.read c (p.octBase + a) bits = some (.memRead .oct a) ∧
    p.write c (p.octBase + a) bits v = some (.memWrite .oct a (v.extractLsb' 0 8)) := by
  obtain ⟨hregOct, -, -⟩ := (p.legal_iff c).mp hp
  simp [Platform.read, Platform.write, inWindow_apart hregOct h, inWindow_base_add h, BitVec.setWidth_eq_extractLsb']

/-- An address in the window of `SMP` reaches that byte (20_memory.md R83). -/
theorem Platform.access_smpWindow (hp : p.legal c = true) {a : Nat} (h : a < c.smpSize) :
    p.read c (p.smpBase + a) bits = some (.memRead .smp a) ∧
    p.write c (p.smpBase + a) bits v = some (.memWrite .smp a (v.extractLsb' 0 8)) := by
  obtain ⟨-, hregSmp, hoctSmp⟩ := (p.legal_iff c).mp hp
  simp [Platform.read, Platform.write, inWindow_apart hregSmp h, inWindow_apart hoctSmp h, inWindow_base_add h,
    BitVec.setWidth_eq_extractLsb']

/-- An address outside the three windows reaches nothing of the block (20_memory.md R85, R99). -/
theorem Platform.access_outside {addr : Nat} (hreg : addr < p.regBase ∨ p.regBase + regWindow ≤ addr)
    (hoct : addr < p.octBase ∨ p.octBase + c.octSize ≤ addr)
    (hsmp : addr < p.smpBase ∨ p.smpBase + c.smpSize ≤ addr) :
    p.read c addr bits = none ∧ p.write c addr bits v = none := by
  simp [Platform.read, Platform.write, inWindow_outside hreg, inWindow_outside hoct, inWindow_outside hsmp]

end

/-- Settles O57: an address lies in at most one window of a legal platform, so the access is that window's. -/
theorem platformWindowsReachTheirSpaces : Obligations.PlatformWindowsReachTheirSpaces := fun p bits v hp =>
  ⟨fun _ => p.access_regWindow bits v, fun _ => p.access_octWindow bits v hp, fun _ => p.access_smpWindow bits v hp,
    fun _ => p.access_outside (c := ref) bits v⟩

end Sys2Proof.Machine
end

section
/-! PROOFS. The command word: its fields determine it, and the decoder, the table of 30_encoding.md R113 and the
assembler are read off from them. -/

open Sys2Proof Sys2Proof.Machine Sys2Proof.Claims Sys2Proof.Laws.EncodedFields

namespace Sys2Proof.Machine

/-! ### The fields of a command word -/

/-- A word is the sum of its fields, each at its place (30_encoding.md R110). -/
theorem toNat_eq_fields (w : Word) : w.toNat = (opField w).toNat + (reservedLow w).toNat * 16 + (immA w).toNat * 256 +
    (immB w).toNat * 65536 + (reservedHigh w).toNat * 16777216 := by
  have hw := w.isLt
  simp only [opField, reservedLow, immA, immB, reservedHigh, BitVec.extractLsb'_toNat, Nat.shiftRight_eq_div_pow]
  omega

/-- Two words are equal exactly when their fields are. -/
theorem eq_iff_fields (w w' : Word) : w = w' ↔ opField w = opField w' ∧ reservedLow w = reservedLow w' ∧
    reservedHigh w = reservedHigh w' ∧ immA w = immA w' ∧ immB w = immB w' := by
  constructor
  · rintro rfl
    exact ⟨rfl, rfl, rfl, rfl, rfl⟩
  · rintro ⟨hop, hlow, hhigh, hA, hB⟩
    apply BitVec.eq_of_toNat_eq
    rw [toNat_eq_fields w, toNat_eq_fields w', hop, hlow, hhigh, hA, hB]

/-- The word `w` holds the opcode and the immediates of the command `i`, and 0 in the reserved fields
(30_encoding.md R110 to R112). -/
def HoldsCommand (w : Word) (i : Instr) : Prop :=
  opField w = opcode i ∧ reservedLow w = 0#4 ∧ reservedHigh w = 0#8 ∧ immA w = (immediates i).1 ∧
    immB w = (immediates i).2

theorem encode_holdsCommand (i : Instr) : HoldsCommand (encode i) i := by
  cases i with
  | encodeFrame    => exact Laws.EncodedFields.encodeFrame
  | decodeFrame    => exact Laws.EncodedFields.decodeFrame
  | modulate nb ne => exact Laws.EncodedFields.modulate nb ne
  | demodulate     => exact Laws.EncodedFields.demodulate
  | discriminate   => exact Laws.EncodedFields.discriminate
  | demodStep      => exact Laws.EncodedFields.demodStep
  | demodReset     => exact Laws.EncodedFields.demodReset
  | crc16          => exact Laws.EncodedFields.crc16
  | demodTrial o   => exact Laws.EncodedFields.demodTrial o

theorem eq_encode_of_holdsCommand {w : Word} {i : Instr} (h : HoldsCommand w i) : w = encode i := by
  obtain ⟨hop, hlow, hhigh, hA, hB⟩ := h
  obtain ⟨hop', hlow', hhigh', hA', hB'⟩ := encode_holdsCommand i
  exact (eq_iff_fields w _).mpr ⟨hop.trans hop'.symm, hlow.trans hlow'.symm, hhigh.trans hhigh'.symm, hA.trans hA'.symm,
    hB.trans hB'.symm⟩

/-! ### The decoder -/

theorem decodePlain_eq_ok_iff {w : Word} {i j : Instr} :
    decodePlain w j = .ok i ↔ i = j ∧ immA w = 0#8 ∧ immB w = 0#8 := by
  unfold decodePlain
  split
  next h => simp [h, eq_comm]
  next h => exact ⟨nofun, fun ⟨_, hA, hB⟩ => absurd ⟨hA, hB⟩ h⟩

theorem decodeTrial_eq_ok_iff {w : Word} {i : Instr} :
    decodeTrial w = .ok i ↔ i = .demodTrial (immA w) ∧ (immA w).toNat < spb ∧ immB w = 0#8 := by
  unfold decodeTrial
  split
  next hB => exact ⟨nofun, fun ⟨_, _, hB'⟩ => absurd hB' hB⟩
  next hB =>
    have hB' : immB w = 0#8 := Decidable.not_not.mp hB
    split
    next ho => simp [ho, hB', eq_comm]
    next ho => simp [ho]

theorem holdsCommand_of_decode {w : Word} {i : Instr} (h : decode w = .ok i) : HoldsCommand w i := by
  unfold decode at h
  split at h
  · cases h
  next hres =>
  obtain ⟨hlow, hhigh⟩ : reservedLow w = 0#4 ∧ reservedHigh w = 0#8 := by simpa using hres
  split at h
  case h_3 hop =>
    cases h
    exact ⟨BitVec.eq_of_toNat_eq hop, hlow, hhigh, rfl, rfl⟩
  case h_9 hop =>
    obtain ⟨rfl, -, hB⟩ := decodeTrial_eq_ok_iff.mp h
    exact ⟨BitVec.eq_of_toNat_eq hop, hlow, hhigh, rfl, hB⟩
  case h_10 => cases h
  all_goals
    rename_i hop
    obtain ⟨rfl, hA, hB⟩ := decodePlain_eq_ok_iff.mp h
    exact ⟨BitVec.eq_of_toNat_eq hop, hlow, hhigh, hA, hB⟩

theorem decode_of_holdsCommand {w : Word} {i : Instr} (h : HoldsCommand w i) (hwf : i.wf = true) :
    decode w = .ok i := by
  obtain ⟨hop, hlow, hhigh, hA, hB⟩ := h
  cases i with
  | modulate nb ne => simp [decode, hop, hlow, hhigh, hA, hB, opcode, immediates]
  | demodTrial o =>
    have ho : o.toNat < spb := of_decide_eq_true hwf
    simp [decode, decodeTrial, hop, hlow, hhigh, hA, hB, ho, opcode, immediates]
  | encodeFrame | decodeFrame | demodulate | discriminate | demodStep | demodReset | crc16 =>
    simp [decode, decodePlain, hop, hlow, hhigh, hA, hB, opcode, immediates]

/-- The decoder reads exactly the well-formed command that the word holds (30_encoding.md R111 to R113). -/
theorem decode_eq_ok_iff {w : Word} {i : Instr} : decode w = .ok i ↔ HoldsCommand w i ∧ i.wf = true :=
  ⟨fun h => ⟨holdsCommand_of_decode h, wf_of_decode h⟩, fun ⟨h, hwf⟩ => decode_of_holdsCommand h hwf⟩

/-- Settles O2: the word of a command holds its opcode and its immediates, and the decoder reads them back. -/
theorem decodeOfEncodeIsTheCommand : Obligations.DecodeOfEncodeIsTheCommand := fun i hwf =>
  decode_of_holdsCommand (encode_holdsCommand i) hwf

/-- Settles O3: the word and the command's word have the same fields, and a word is determined by its fields. -/
theorem encodeOfDecodeIsTheWord : Obligations.EncodeOfDecodeIsTheWord := fun _ _ h =>
  ⟨wf_of_decode h, (eq_encode_of_holdsCommand (holdsCommand_of_decode h)).symm⟩

/-- Settles O1: the decoder evaluates each of the words. -/
theorem tableWordsDecode : Obligations.TableWordsDecode := by
  unfold Obligations.TableWordsDecode
  decide

/-! ### The conditions on a legal word -/

/-- The five conditions of 30_encoding.md R113, on the fields by their names. -/
theorem legalWord_iff (w : Word) : LegalWord w ↔ (1 ≤ (opField w).toNat ∧ (opField w).toNat ≤ 9) ∧
    (reservedLow w = 0#4 ∧ reservedHigh w = 0#8) ∧ (opField w = 9#4 → (immA w).toNat < spb ∧ immB w = 0#8) ∧
    (opField w ≠ 3#4 → opField w ≠ 9#4 → immA w = 0#8 ∧ immB w = 0#8) := by
  have htop : w.extractLsb' 11 5 = 0#5 ↔ (immA w).toNat < spb := by
    simp only [← BitVec.toNat_inj, immA, BitVec.extractLsb'_toNat, Nat.shiftRight_eq_div_pow, BitVec.toNat_ofNat, spb]
    omega
  have hboth : w.extractLsb' 8 16 = 0#16 ↔ immA w = 0#8 ∧ immB w = 0#8 := by
    simp only [← BitVec.toNat_inj, immA, immB, BitVec.extractLsb'_toNat, Nat.shiftRight_eq_div_pow, BitVec.toNat_ofNat]
    omega
  rw [LegalWord, htop, hboth]
  rfl

theorem legalWord_of_decode {w : Word} {i : Instr} (h : decode w = .ok i) : LegalWord w := by
  obtain ⟨⟨hop, hlow, hhigh, hA, hB⟩, hwf⟩ := decode_eq_ok_iff.mp h
  rw [legalWord_iff, hop, hlow, hhigh, hA, hB]
  cases i with
  | demodTrial o => simpa [opcode, immediates, Instr.wf] using hwf
  | _ => simp [opcode, immediates]

/-- The command that the opcode `op` names, with the immediates `a` and `b`, for an opcode of a legal word. -/
def commandOf (op : Nat) (a b : Byte) : Instr :=
  match op with
  | 1 => .encodeFrame
  | 2 => .decodeFrame
  | 3 => .modulate a b
  | 4 => .demodulate
  | 5 => .discriminate
  | 6 => .demodStep
  | 7 => .demodReset
  | 8 => .crc16
  | _ => .demodTrial a

theorem decode_of_legalWord {w : Word} (h : LegalWord w) :
    decode w = .ok (commandOf (opField w).toNat (immA w) (immB w)) := by
  obtain ⟨⟨hlo, hhi⟩, ⟨hlow, hhigh⟩, htrial, hplain⟩ := (legalWord_iff w).mp h
  generalize hop : (opField w).toNat = op at hlo hhi
  have hop' : opField w = BitVec.ofNat 4 op := by rw [← hop, BitVec.ofNat_toNat, BitVec.setWidth_eq]
  have plain (i : Instr) (hi : opField w = opcode i)
      (hplainOp : opcode i ≠ 3#4 ∧ opcode i ≠ 9#4 ∧ immediates i = (0#8, 0#8) ∧ i.wf = true) : decode w = .ok i := by
    obtain ⟨h3, h9, himm, hwf⟩ := hplainOp
    obtain ⟨hA, hB⟩ := hplain (hi ▸ h3) (hi ▸ h9)
    exact decode_of_holdsCommand ⟨hi, hlow, hhigh, by rw [hA, himm], by rw [hB, himm]⟩ hwf
  interval_cases op
  · exact plain .encodeFrame hop' (by decide)
  · exact plain .decodeFrame hop' (by decide)
  · exact decode_of_holdsCommand ⟨hop', hlow, hhigh, rfl, rfl⟩ rfl
  · exact plain .demodulate hop' (by decide)
  · exact plain .discriminate hop' (by decide)
  · exact plain .demodStep hop' (by decide)
  · exact plain .demodReset hop' (by decide)
  · exact plain .crc16 hop' (by decide)
  · obtain ⟨ho, hB⟩ := htrial hop'
    exact decode_of_holdsCommand ⟨hop', hlow, hhigh, rfl, hB⟩ (decide_eq_true ho)

/-! ### The opcode table -/

/-- A row matches a word field by field (30_encoding.md R113). -/
theorem and_mask_eq_iff_fields (w mask m : Word) : w &&& mask = m ↔ opField w &&& opField mask = opField m ∧
    reservedLow w &&& reservedLow mask = reservedLow m ∧ reservedHigh w &&& reservedHigh mask = reservedHigh m ∧
    immA w &&& immA mask = immA m ∧ immB w &&& immB mask = immB m := by
  rw [eq_iff_fields]
  simp only [opField, reservedLow, reservedHigh, immA, immB, BitVec.extractLsb'_and]

/-- The row of `MODULATE` leaves both immediates free. -/
theorem modulateRow_matches_iff (w : Word) : w &&& 0xFF0000FF#32 = 0x00000003#32 ↔
    opField w = 3#4 ∧ reservedLow w = 0#4 ∧ reservedHigh w = 0#8 := by
  have hop : opField 0xFF0000FF#32 = BitVec.allOnes 4 ∧ opField 0x00000003#32 = 3#4 := by decide
  have hlow : reservedLow 0xFF0000FF#32 = BitVec.allOnes 4 ∧ reservedLow 0x00000003#32 = 0#4 := by decide
  have hhigh : reservedHigh 0xFF0000FF#32 = BitVec.allOnes 8 ∧ reservedHigh 0x00000003#32 = 0#8 := by decide
  have hA : immA 0xFF0000FF#32 = 0#8 ∧ immA 0x00000003#32 = 0#8 := by decide
  have hB : immB 0xFF0000FF#32 = 0#8 ∧ immB 0x00000003#32 = 0#8 := by decide
  simp [and_mask_eq_iff_fields, hop, hlow, hhigh, hA, hB, -BitVec.reduceAllOnes]

/-- The row of `DEMOD_TRIAL` leaves bits [2:0] of `IMM_A` free. -/
theorem demodTrialRow_matches_iff (w : Word) : w &&& 0xFFFFF8FF#32 = 0x00000009#32 ↔
    opField w = 9#4 ∧ reservedLow w = 0#4 ∧ reservedHigh w = 0#8 ∧ (immA w).toNat < spb ∧ immB w = 0#8 := by
  have hop : opField 0xFFFFF8FF#32 = BitVec.allOnes 4 ∧ opField 0x00000009#32 = 9#4 := by decide
  have hlow : reservedLow 0xFFFFF8FF#32 = BitVec.allOnes 4 ∧ reservedLow 0x00000009#32 = 0#4 := by decide
  have hhigh : reservedHigh 0xFFFFF8FF#32 = BitVec.allOnes 8 ∧ reservedHigh 0x00000009#32 = 0#8 := by decide
  have hA : ∀ a : Byte, a &&& immA 0xFFFFF8FF#32 = immA 0x00000009#32 ↔ a.toNat < spb := by decide
  have hB : immB 0xFFFFF8FF#32 = BitVec.allOnes 8 ∧ immB 0x00000009#32 = 0#8 := by decide
  simp [and_mask_eq_iff_fields, hop, hlow, hhigh, hA, hB, -BitVec.reduceAllOnes]

/-- The row of the command `i` (30_encoding.md R113). -/
def rowOf (i : Instr) : OpcodeRow where
  mnemonic  := i.mnemonic
  matchBits := (opcode i).setWidth 32
  mask      := match i with
    | .modulate _ _ => 0xFF0000FF#32
    | .demodTrial _ => 0xFFFFF8FF#32
    | _             => 0xFFFFFFFF#32

theorem rowOf_mem (i : Instr) : rowOf i ∈ opcodeRows := by
  cases i <;> simp [rowOf, opcodeRows, Instr.mnemonic, opcode]

/-- The row of a command matches the words that decode to it. -/
theorem rowOf_matches_of_decode {w : Word} {i : Instr} (h : decode w = .ok i) :
    w &&& (rowOf i).mask = (rowOf i).matchBits := by
  obtain ⟨⟨hop, hlow, hhigh, hA, hB⟩, hwf⟩ := decode_eq_ok_iff.mp h
  cases i with
  | modulate nb ne => exact (modulateRow_matches_iff w).mpr ⟨hop, hlow, hhigh⟩
  | demodTrial o => exact (demodTrialRow_matches_iff w).mpr ⟨hop, hlow, hhigh, hA ▸ of_decide_eq_true hwf, hB⟩
  | _ =>
    rw [eq_encode_of_holdsCommand (holdsCommand_of_decode h)]
    rfl

/-- A word that a row of the table matches is legal. -/
theorem decode_of_row_matches {w : Word} {row : OpcodeRow} (hrow : row ∈ opcodeRows)
    (hmatch : w &&& row.mask = row.matchBits) : ∃ i, decode w = .ok i := by
  have plain (i : Instr) (hwf : i.wf = true) (h : w &&& 0xFFFFFFFF#32 = encode i) : ∃ i, decode w = .ok i := by
    obtain rfl : w = encode i := (BitVec.and_allOnes (x := w)).symm.trans h
    exact ⟨i, decode_of_holdsCommand (encode_holdsCommand i) hwf⟩
  simp only [opcodeRows, List.mem_cons, List.not_mem_nil, or_false] at hrow
  rcases hrow with rfl | rfl | rfl | rfl | rfl | rfl | rfl | rfl | rfl
  · exact plain .encodeFrame rfl hmatch
  · exact plain .decodeFrame rfl hmatch
  · obtain ⟨hop, hlow, hhigh⟩ := (modulateRow_matches_iff w).mp hmatch
    exact ⟨.modulate _ _, decode_of_holdsCommand ⟨hop, hlow, hhigh, rfl, rfl⟩ rfl⟩
  · exact plain .demodulate rfl hmatch
  · exact plain .discriminate rfl hmatch
  · exact plain .demodStep rfl hmatch
  · exact plain .demodReset rfl hmatch
  · exact plain .crc16 rfl hmatch
  · obtain ⟨hop, hlow, hhigh, ho, hB⟩ := (demodTrialRow_matches_iff w).mp hmatch
    exact ⟨.demodTrial _, decode_of_holdsCommand ⟨hop, hlow, hhigh, rfl, hB⟩ (decide_eq_true ho)⟩

/-- Every row fixes the whole opcode of the words it matches. -/
theorem opField_of_row_matches {w : Word} {row : OpcodeRow} (hrow : row ∈ opcodeRows)
    (hmatch : w &&& row.mask = row.matchBits) : opField w = opField row.matchBits := by
  have hmask : ∀ row ∈ opcodeRows, opField row.mask = BitVec.allOnes 4 := by decide
  obtain ⟨hop, -⟩ := (and_mask_eq_iff_fields w row.mask row.matchBits).mp hmatch
  rwa [hmask row hrow, BitVec.and_allOnes] at hop

/-- No two rows of the table have the same opcode. -/
theorem row_eq_of_opField_eq : ∀ row ∈ opcodeRows, ∀ row' ∈ opcodeRows,
    opField row.matchBits = opField row'.matchBits → row = row' := by decide

/-- Settles O4: the five conditions and the rows are compared with the decoder field by field, and two rows that match
one word have its opcode in common. -/
theorem legalWordsAreTheTableRows : Obligations.LegalWordsAreTheTableRows :=
  ⟨fun _ => ⟨fun ⟨_, h⟩ => legalWord_of_decode h, fun h => ⟨_, decode_of_legalWord h⟩⟩,
    fun _ i h => ⟨rowOf i, rowOf_mem i, rfl, rowOf_matches_of_decode h⟩,
    fun _ _ hrow hmatch => decode_of_row_matches hrow hmatch,
    fun _ row row' hrow hrow' h h' => row_eq_of_opField_eq row hrow row' hrow'
      ((opField_of_row_matches hrow h).symm.trans (opField_of_row_matches hrow' h'))⟩

/-! ### The assembler -/

/-- The word of a command as a number: its opcode and its immediates at their places (30_encoding.md R117). -/
theorem encode_toNat (i : Instr) : (encode i).toNat =
    (immediates i).2.toNat * 65536 + (immediates i).1.toNat * 256 + (opcode i).toNat := by
  obtain ⟨hop, hlow, hhigh, hA, hB⟩ := encode_holdsCommand i
  rw [toNat_eq_fields, hop, hlow, hhigh, hA, hB, BitVec.toNat_ofNat, BitVec.toNat_ofNat]
  omega

/-- Everything the assembler can give: a raw word, or the word of a well-formed command. -/
theorem assemble_cases {l : AsmLine} {w : Word} (h : assemble l = some w) :
    l = .rawWord w ∨ ∃ i : Instr, i.wf = true ∧ encode i = w := by
  cases l with
  | rawWord v => cases h; exact .inl rfl
  | modulate nb ne =>
    rw [assemble] at h
    split at h <;> cases h
    exact .inr ⟨_, rfl, rfl⟩
  | demodTrial o =>
    rw [assemble] at h
    split at h <;> cases h
    next ho => exact .inr ⟨.demodTrial (BitVec.ofNat 8 o), decide_eq_true ((Nat.mod_le o 256).trans_lt ho), rfl⟩
  | _ => cases h; exact .inr ⟨_, rfl, rfl⟩

theorem assemble_modulate {nb ne : Nat} (hnb : nb < 256) (hne : ne < 256) :
    ∃ w, assemble (.modulate nb ne) = some w ∧ w.toNat = ne * 65536 + nb * 256 + 3 := by
  refine ⟨_, if_pos ⟨hnb, hne⟩, ?_⟩
  rw [encode_toNat]
  simp [immediates, opcode, Nat.mod_eq_of_lt hnb, Nat.mod_eq_of_lt hne]

theorem assemble_demodTrial {o : Nat} (ho : o < 8) :
    ∃ w, assemble (.demodTrial o) = some w ∧ w.toNat = o * 256 + 9 := by
  refine ⟨_, if_pos ho, ?_⟩
  rw [encode_toNat]
  simp [immediates, opcode, Nat.mod_eq_of_lt (ho.trans (by decide : 8 < 256))]

/-- Settles O5: an operand in range is its immediate, so the word is the sum of the fields; every line but a raw word
assembles to the word of a well-formed command. -/
theorem assemblerNeverWraps : Obligations.AssemblerNeverWraps := by
  refine ⟨⟨rfl, rfl, rfl, rfl, rfl, rfl, rfl⟩, fun _ _ => assemble_modulate, fun nb ne h => if_neg (by omega),
    fun _ => assemble_demodTrial, fun o h => if_neg (Nat.not_lt.mpr h), fun _ => rfl, fun l w h hraw => ?_⟩
  rcases assemble_cases h with hl | ⟨i, hwf, rfl⟩
  · exact absurd hl (hraw w)
  · exact ⟨i, decodeOfEncodeIsTheCommand i hwf⟩

/-! ### An illegal word -/

/-- The engine's turn, by itself or because nothing is scheduled (70_reset_and_hazards.md R300). -/
theorem nextStep_engine {c : Config} {s : State} {rest : List Event} (h : EngineNext s rest) :
    nextStep c s = engineTurn c { s with schedule := rest } := by
  rcases h with hs | ⟨hs, rfl⟩
  · simp only [nextStep, hs, takeEvent]
  · simp only [nextStep, hs]
    rw [← hs]

theorem engineTurn_of_error {c : Config} {s : State} {w : Word} {e : DecodeError} (hl : s.latch = some w)
    (hd : decode w = .error e) : engineTurn c s = .next (raise .illegalCommand s) := by
  simp only [engineTurn, hl, hd]

theorem decode_of_no_row {w : Word} (h : ∀ row ∈ opcodeRows, w &&& row.mask ≠ row.matchBits) :
    ∃ e, decode w = .error e := by
  cases hd : decode w with
  | error e => exact ⟨e, rfl⟩
  | ok i => exact absurd (rowOf_matches_of_decode hd) (h _ (rowOf_mem i))

/-- Settles O7: a word that no row matches does not decode, and the engine's turn ends it by `raise`. -/
theorem illegalWordEndsWithIllegalCommand : Obligations.IllegalWordEndsWithIllegalCommand := by
  intro s rest w hs hl hrow
  obtain ⟨e, hd⟩ := decode_of_no_row hrow
  refine ⟨?_, rfl⟩
  rw [step, nextStep_engine hs, engineTurn_of_error (s := { s with schedule := rest }) hl hd]
  rfl

end Sys2Proof.Machine
end

section
/-! PROOFS. The frame of every command: the registers outside its results, the bytes outside its output. -/

open Sys2Proof Sys2Proof.Machine Sys2Proof.Claims

namespace Sys2Proof.Machine

/-! ### What a command may change -/

/-- The registers `g` with those that the command `i` may write, its results and the two fields of `STATUS`, taken from
`r` (30_encoding.md R116, column "writes on OK"). -/
def withResults (i : Instr) (g r : Regs) : Regs :=
  match i with
  | .encodeFrame | .modulate _ _ | .demodulate | .demodTrial _ =>
    { g with done := r.done, err := r.err, resultLen := r.resultLen, resultAux := r.resultAux }
  | .discriminate | .crc16 => { g with done := r.done, err := r.err, resultAux := r.resultAux }
  | .decodeFrame =>
    { g with
      done := r.done, err := r.err, callLo := r.callLo, callHi := r.callHi, frameCfg := r.frameCfg
      ctrlPid := r.ctrlPid, crc := r.crc, payloadOff := r.payloadOff, payloadLen := r.payloadLen
      resultLen := r.resultLen, resultAux := r.resultAux }
  | .demodStep =>
    { g with
      done := r.done, err := r.err, dmState := r.dmState, dmBitidx := r.dmBitidx, dmStart := r.dmStart
      dmEvent := r.dmEvent, resultAux := r.resultAux }
  | .demodReset =>
    { g with
      done := r.done, err := r.err, dmState := r.dmState, dmBitidx := r.dmBitidx, dmStart := r.dmStart
      dmEvent := r.dmEvent }

theorem withResults_complete {i : Instr} {g r : Regs} (h : r = withResults i g r) (done : Bool) (e : ErrCode) :
    { r with done := done, err := e } = withResults i g { r with done := done, err := e } := by
  cases i <;> exact congrArg (fun r : Regs => { r with done := done, err := e }) h

theorem withResults_self (i : Instr) (g : Regs) : g = withResults i g g := by cases i <;> rfl

/-- What the command `i` may change on the way from `s` to `t`: its result registers and `STATUS`, and, if it stores and
ends with `OK`, the bytes from `DST_ADDR` on whose number is `storedCount` (30_encoding.md R116; 20_memory.md R90). -/
structure CommandFrame (c : Config) (i : Instr) (s t : State) : Prop where
  schedule : t.schedule = s.schedule
  reads    : t.reads = s.reads
  regs     : t.regs = withResults i s.regs t.regs
  kept     : ∀ sp, outputSpace i ≠ some sp ∨ t.regs.err ≠ .ok → t.mem sp = s.mem sp
  stored   : ∀ sp, outputSpace i = some sp → t.regs.err = .ok → ∃ vs : List Byte, vs.length = storedCount c i s ∧
    t.mem sp = (s.mem sp).writeRange s.regs.dstAddr.toNat vs

/-- All that a `MemRead` changes is the mark and the draws (20_memory.md R95). -/
theorem memRead_changes {s s1 : State} {sp : Space} {a n : Nat} {bs : List Byte} (h : memRead s sp a n = (bs, s1)) :
    ∃ m d, s1 = { s with mark := m, draws := d } := by
  obtain rfl : (memRead s sp a n).2 = s1 := congrArg Prod.snd h
  rcases memRead_cases s sp a n with ⟨-, e⟩ | ⟨-, e⟩ <;> exact ⟨_, _, e⟩

section
variable {c : Config} {i : Instr} {s : State} (m : Bool) (d : Nat)

/-- A command that ends with an error and has written no result (60_exceptions.md R263). -/
theorem raise_commandFrame {e : ErrCode} (he : e ≠ .ok) :
    CommandFrame c i s (raise e { s with mark := m, draws := d }) where
  schedule := rfl
  reads    := rfl
  regs     := withResults_complete (withResults_self i s.regs) true e
  kept     := fun sp _ => by cases sp <;> rfl
  stored   := fun _ _ hok => absurd hok he

/-- A command that stores nothing. -/
theorem complete_commandFrame {g : Regs} (hi : outputSpace i = none) (hg : g = withResults i s.regs g) (e : ErrCode) :
    CommandFrame c i s (complete e { s with regs := g, mark := m, draws := d }) where
  schedule := rfl
  reads    := rfl
  regs     := withResults_complete hg true e
  kept     := fun sp _ => by cases sp <;> rfl
  stored   := fun sp hsp _ => by cases hi.symm.trans hsp

/-- A command that stores the bytes `vs`. -/
theorem store_commandFrame {sp : Space} {vs : List Byte} {g : Regs} (hi : outputSpace i = some sp)
    (hlen : vs.length = storedCount c i s) (hg : g = withResults i s.regs g) (d' : Nat) :
    CommandFrame c i s (finish { memWrite { s with mark := m, draws := d } sp s.regs.dstAddr.toNat vs with
      regs := g, draws := d' }) where
  schedule := memWrite_schedule ..
  reads    := memWrite_reads ..
  regs     := withResults_complete hg true .ok
  kept     := by
    rintro sp' (h | h)
    · have hne : sp' ≠ sp := fun heq => h (heq.symm ▸ hi)
      exact memWrite_mem_other _ hne _ _
    · exact absurd rfl h
  stored   := by
    intro sp' hsp' _
    obtain rfl : sp = sp' := Option.some.inj (hi.symm.trans hsp')
    exact ⟨vs, hlen, memWrite_mem_same ..⟩

end

/-! ### The commands -/

section
variable (c : Config) (s : State)

theorem crcCommand_commandFrame : CommandFrame c .crc16 s (crcCommand c s) := by
  rcases crcCommand_cases c s with ⟨-, e⟩ | ⟨bs, s1, -, hread, e⟩ <;> rw [e]
  · exact raise_commandFrame s.mark s.draws nofun
  · obtain ⟨m, d, rfl⟩ := memRead_changes hread
    exact complete_commandFrame m d rfl rfl .ok

theorem discriminate_commandFrame : CommandFrame c .discriminate s (discriminate c s) := by
  rcases discriminate_cases c s with ⟨-, e⟩ | ⟨w, s1, -, hread, e⟩ <;> rw [e]
  · exact raise_commandFrame s.mark s.draws nofun
  · obtain ⟨m, d, rfl⟩ := memRead_changes hread
    exact complete_commandFrame m d rfl rfl .ok

theorem demodStep_commandFrame : CommandFrame c .demodStep s (demodStep c s) := by
  rcases demodStep_cases c s with ⟨-, e⟩ | ⟨w, s1, -, hread, e⟩ <;> rw [e]
  · exact raise_commandFrame s.mark s.draws nofun
  · obtain ⟨m, d, rfl⟩ := memRead_changes hread
    exact complete_commandFrame m d rfl rfl .ok

theorem demodReset_commandFrame : CommandFrame c .demodReset s (demodReset c s) :=
  complete_commandFrame s.mark s.draws rfl rfl .ok

theorem decodeFrame_commandFrame : CommandFrame c .decodeFrame s (decodeFrame c s) := by
  rcases decodeFrame_cases c s with ⟨-, e⟩ | ⟨f, s1, -, hread, h⟩
  · rw [e]
    exact raise_commandFrame s.mark s.draws nofun
  · obtain ⟨m, d, rfl⟩ := memRead_changes hread
    rcases h with ⟨-, e⟩ | ⟨t, -, e⟩ <;> rw [e]
    · exact raise_commandFrame m d nofun
    · exact complete_commandFrame m d rfl rfl _

theorem encodeFrame_commandFrame (hdest : c.destId.length = 6) : CommandFrame c .encodeFrame s (encodeFrame c s) := by
  rcases encodeFrame_cases c s with ⟨-, e⟩ | ⟨p, s1, -, hread, h⟩
  · rw [e]
    exact raise_commandFrame s.mark s.draws nofun
  · have hp := memRead_length s .oct s.regs.srcAddr.toNat s.regs.srcLen.toNat
    rw [hread] at hp
    obtain ⟨m, d, rfl⟩ := memRead_changes hread
    rcases h with ⟨-, e⟩ | ⟨-, -, e⟩ | ⟨-, -, -, e⟩ <;> rw [e]
    · exact raise_commandFrame m d nofun
    · exact raise_commandFrame m d nofun
    · have hlen : (withCrc (builtBody c s.regs p)).length = storedCount c .encodeFrame s := by
        rw [withCrc_length, builtBody, frameBody_length c _ _ _ _ hdest, hp, storedCount]
        omega
      exact store_commandFrame m d rfl hlen rfl d

theorem modulate_commandFrame (nb ne : Byte) : CommandFrame c (.modulate nb ne) s (modulate c nb ne s) := by
  rcases modulate_cases c nb ne s with ⟨-, e⟩ | ⟨octets, s1, -, hread, h⟩
  · rw [e]
    exact raise_commandFrame s.mark s.draws nofun
  · have hcount : storedCount c (.modulate nb ne) s = 8 * (lineBits c octets nb.toNat ne.toNat).length := by
      simp only [storedCount, hread]
    obtain ⟨m, d, rfl⟩ := memRead_changes hread
    rcases h with ⟨-, e⟩ | ⟨-, len, d', -, e⟩ <;> rw [e]
    · exact raise_commandFrame m d nofun
    · exact store_commandFrame m d rfl ((synthesize_length ..).trans hcount.symm) rfl d'

/-- The end of a search, for a command whose `storedCount` is the length of the frame found (44_phase_search.md R206,
R207). -/
theorem deliverFrame_commandFrame {i : Instr} {acc : List Byte} (hi : outputSpace i = some .oct)
    (hcount : storedCount c i s = acc.length) (o : Nat) (m : Bool) (d : Nat) :
    CommandFrame c i s (deliverFrame c o acc { s with mark := m, draws := d }) := by
  rcases deliverFrame_cases c o acc { s with mark := m, draws := d } with ⟨-, e⟩ | ⟨-, e⟩ <;> rw [e]
  · exact raise_commandFrame m d nofun
  · refine store_commandFrame m d hi hcount.symm ?_ d
    cases i with
    | encodeFrame | modulate | demodulate | demodTrial => rfl
    | decodeFrame | discriminate | demodStep | demodReset | crc16 => cases hi

theorem demodTrial_commandFrame (o : Byte) : CommandFrame c (.demodTrial o) s (demodTrial c o s) := by
  rcases demodTrial_cases c o s with ⟨-, e⟩ | ⟨-, -, e⟩ | ⟨buf, s1, -, -, hread, h⟩
  · rw [e]
    exact raise_commandFrame s.mark s.draws nofun
  · rw [e]
    exact raise_commandFrame s.mark s.draws nofun
  · rcases h with ⟨-, e⟩ | ⟨acc, hfound, e⟩ <;> rw [e]
    · obtain ⟨m, d, rfl⟩ := memRead_changes hread
      exact raise_commandFrame m d nofun
    · have hcount : storedCount c (.demodTrial o) s = acc.length := by
        simp only [storedCount, hread, hfound, Option.map_some, Option.getD_some]
      obtain ⟨m, d, rfl⟩ := memRead_changes hread
      exact deliverFrame_commandFrame c s rfl hcount _ m d

theorem demodulate_commandFrame : CommandFrame c .demodulate s (demodulate c s) := by
  rcases demodulate_cases c s with ⟨-, e⟩ | ⟨buf, s1, -, hread, h⟩
  · rw [e]
    exact raise_commandFrame s.mark s.draws nofun
  · rcases h with ⟨-, e⟩ | ⟨o, acc, hfound, e⟩ <;> rw [e]
    · obtain ⟨m, d, rfl⟩ := memRead_changes hread
      exact raise_commandFrame m d nofun
    · have hcount : storedCount c .demodulate s = acc.length := by
        simp only [storedCount, hread, hfound, Option.map_some, Option.getD_some]
      obtain ⟨m, d, rfl⟩ := memRead_changes hread
      exact deliverFrame_commandFrame c s rfl hcount _ m d

/-- The frame of every command. Of the build's constraints it needs only the length of `DEST_ID`, which fixes that of
the frame that `ENCODE_FRAME` builds. -/
theorem perform_commandFrame (hdest : c.destId.length = 6) (i : Instr) : CommandFrame c i s (perform c i s) := by
  cases i with
  | encodeFrame => exact encodeFrame_commandFrame c s hdest
  | decodeFrame => exact decodeFrame_commandFrame c s
  | modulate nb ne => exact modulate_commandFrame c s nb ne
  | demodulate => exact demodulate_commandFrame c s
  | discriminate => exact discriminate_commandFrame c s
  | demodStep => exact demodStep_commandFrame c s
  | demodReset => exact demodReset_commandFrame c s
  | crc16 => exact crcCommand_commandFrame c s
  | demodTrial o => exact demodTrial_commandFrame c s o

end

theorem exec_commandFrame {i : Instr} {s t : State} (h : exec i s = .next t) : CommandFrame ref i s t := by
  obtain rfl := Host.Outcome.next.inj ((exec_eq_perform i s).symm.trans h)
  exact perform_commandFrame ref s rfl i

/-- Settles O29: a command without an output space keeps both memories, and `withResults` lists its registers. -/
theorem registerCommandsFrame : Obligations.RegisterCommandsFrame := by
  intro i s t hi h
  obtain ⟨hschedule, hreads, hregs, hkept, -⟩ := exec_commandFrame h
  refine ⟨fun sp x => ?_, hschedule, hreads, ?_⟩
  · rw [hkept sp (.inl fun hsp => by cases hi.symm.trans hsp)]
  · cases i with
    | encodeFrame | modulate | demodulate | demodTrial => cases hi
    | decodeFrame | discriminate | demodStep | demodReset | crc16 => exact hregs

/-- Settles O30: on `OK` the output's memory is the old one with `storedCount` bytes written at `DST_ADDR`; otherwise
it is the old one. -/
theorem storingCommandsFrame : Obligations.StoringCommandsFrame := by
  intro i s t sp hi h
  obtain ⟨hschedule, hreads, hregs, hkept, hstored⟩ := exec_commandFrame h
  refine ⟨fun hok x hx => ?_, fun herr x => ?_, fun sp' hne x => ?_, hschedule, hreads, ?_⟩
  · obtain ⟨vs, hlen, hmem⟩ := hstored sp hi hok
    rw [hmem, Memory.read_writeRange_outside _ _ _ _ (hlen ▸ hx)]
  · rw [hkept sp (.inr herr)]
  · rw [hkept sp' (.inl fun hi' => hne (Option.some.inj (hi'.symm.trans hi)))]
  · cases i with
    | encodeFrame | modulate | demodulate | demodTrial => exact hregs
    | decodeFrame | discriminate | demodStep | demodReset | crc16 => cases hi

end Sys2Proof.Machine
end

section
/-! PROOFS. A command reads no register but its operands. -/

open Sys2Proof Sys2Proof.Machine Sys2Proof.Claims

namespace Sys2Proof.Machine

/-! ### States with the same memories and draws -/

/-- The states agree on what a command reads besides registers: the memories and the number of the next draw. -/
structure SameStore (s s' : State) : Prop where
  oct   : s'.oct = s.oct
  smp   : s'.smp = s.smp
  draws : s'.draws = s.draws

/-- The states are those of two runs of the command `i` that ended alike (30_encoding.md R116). -/
structure SameEnd (i : Instr) (t t' : State) : Prop where
  store   : SameStore t t'
  err     : t'.regs.err = t.regs.err
  results : t.regs.err = .ok ∨ t.regs.err = .invalidChecksum → SameResults i t.regs t'.regs

section
variable {s s' : State} (h : SameStore s s')
include h

theorem SameStore.mem (sp : Space) : s'.mem sp = s.mem sp := by
  cases sp
  · exact h.oct
  · exact h.smp

theorem SameStore.memRead_bytes (sp : Space) (a n : Nat) : (memRead s' sp a n).1 = (memRead s sp a n).1 := by
  simp only [memRead, h.mem, h.draws]

theorem SameStore.memRead (sp : Space) (a n : Nat) : SameStore (memRead s sp a n).2 (memRead s' sp a n).2 := by
  simp only [Machine.memRead, h.mem]
  split
  · exact h
  · exact ⟨h.oct, h.smp, congrArg (· + n) h.draws⟩

theorem SameStore.memWrite (sp : Space) (a : Nat) (vs : List Byte) :
    SameStore (memWrite s sp a vs) (memWrite s' sp a vs) := by
  cases sp
  · exact ⟨congrArg (·.writeRange a vs) h.oct, h.smp, h.draws⟩
  · exact ⟨h.oct, congrArg (·.writeRange a vs) h.smp, h.draws⟩

/-- The free value of a count that `RESULT_LEN` cannot hold is that of the same draw. -/
theorem SameStore.storeLength (n : Nat) : SameStore (storeLength n s) (storeLength n s') ∧
    (storeLength n s).regs.resultLen = (storeLength n s').regs.resultLen := by
  unfold Machine.storeLength
  split
  · exact ⟨⟨h.oct, h.smp, h.draws⟩, rfl⟩
  · exact ⟨⟨h.oct, h.smp, congrArg (· + 1) h.draws⟩, congrArg Config.freeWord h.draws.symm⟩

theorem SameStore.raise {i : Instr} {e : ErrCode} (he : ¬ (e = .ok ∨ e = .invalidChecksum)) :
    SameEnd i (raise e s) (raise e s') := ⟨⟨h.oct, h.smp, h.draws⟩, rfl, fun hr => absurd hr he⟩

/-- No command's results are among `DONE` and `ERR`. -/
theorem SameStore.complete {i : Instr} {g g' : Regs} (e : ErrCode) (hr : SameResults i g g') :
    SameEnd i (complete e { s with regs := g }) (complete e { s' with regs := g' }) :=
  ⟨⟨h.oct, h.smp, h.draws⟩, rfl, fun _ => by cases i <;> exact hr⟩

theorem SameStore.finish {i : Instr} {g g' : Regs} (hr : SameResults i g g') :
    SameEnd i (finish { s with regs := g }) (finish { s' with regs := g' }) := h.complete .ok hr

end

/-! ### The commands -/

section
variable (c : Config) {s s' : State} (h : SameStore s s')
include h

theorem crcCommand_sameEnd (hops : AgreeOnOperands .crc16 s.regs s'.regs) :
    SameEnd .crc16 (crcCommand c s) (crcCommand c s') := by
  obtain ⟨hsrc, hlen⟩ := hops
  simp only [crcCommand, ← hsrc, ← hlen, h.memRead_bytes]
  split
  · exact h.raise (by decide)
  · exact (h.memRead ..).finish rfl

theorem discriminate_sameEnd (hops : AgreeOnOperands .discriminate s.regs s'.regs) :
    SameEnd .discriminate (discriminate c s) (discriminate c s') := by
  have hsrc : s.regs.srcAddr = s'.regs.srcAddr := hops
  simp only [discriminate, ← hsrc, h.memRead_bytes]
  split
  · exact h.raise (by decide)
  · exact (h.memRead ..).finish rfl

theorem demodStep_sameEnd (hops : AgreeOnOperands .demodStep s.regs s'.regs) :
    SameEnd .demodStep (demodStep c s) (demodStep c s') := by
  obtain ⟨hsrc, hstate, hbitidx, hstart⟩ := hops
  have hdemod : s'.regs.demod = s.regs.demod := by simp only [Regs.demod, hstate, hbitidx, hstart]
  simp only [demodStep, ← hsrc, hdemod, h.memRead_bytes]
  split
  · exact h.raise (by decide)
  · exact (h.memRead ..).finish ⟨rfl, rfl, rfl, rfl, rfl⟩

theorem demodReset_sameEnd : SameEnd .demodReset (demodReset c s) (demodReset c s') := h.finish ⟨rfl, rfl, rfl, rfl⟩

theorem decodeFrame_sameEnd (hops : AgreeOnOperands .decodeFrame s.regs s'.regs) :
    SameEnd .decodeFrame (decodeFrame c s) (decodeFrame c s') := by
  obtain ⟨hsrc, hlen⟩ := hops
  have hres (a : Nat) (f : List Byte) (t : Nat) (g g' : Regs) :
      SameResults .decodeFrame (decodeResults a f t g) (decodeResults a f t g') :=
    ⟨rfl, rfl, rfl, rfl, rfl, rfl, rfl, rfl, rfl⟩
  simp only [decodeFrame, ← hsrc, ← hlen, h.memRead_bytes]
  split
  · exact h.raise (by decide)
  · split
    · exact (h.memRead ..).raise (by decide)
    · split
      · exact (h.memRead ..).finish (hres ..)
      · exact (h.memRead ..).complete .invalidChecksum (hres ..)

theorem encodeFrame_sameEnd (hops : AgreeOnOperands .encodeFrame s.regs s'.regs) :
    SameEnd .encodeFrame (encodeFrame c s) (encodeFrame c s') := by
  obtain ⟨hsrc, hlen, hdst, hlo, hhi, hcfg⟩ := hops
  have hchars : s'.regs.callChars = s.regs.callChars := by simp only [Regs.callChars, hlo, hhi]
  have hcall : s'.regs.callLen = s.regs.callLen := by simp only [Regs.callLen, hcfg]
  have hssid : s'.regs.ssid = s.regs.ssid := by simp only [Regs.ssid, hcfg]
  simp only [encodeFrame, ← hsrc, ← hlen, ← hdst, hchars, hcall, hssid, h.memRead_bytes]
  split
  · exact h.raise (by decide)
  · split
    · exact (h.memRead ..).raise (by decide)
    · split
      · exact (h.memRead ..).raise (by decide)
      · split
        · exact (h.memRead ..).raise (by decide)
        · exact ((h.memRead ..).memWrite ..).finish ⟨rfl, rfl⟩

theorem modulate_sameEnd (nb ne : Byte) (hops : AgreeOnOperands (.modulate nb ne) s.regs s'.regs) :
    SameEnd (.modulate nb ne) (modulate c nb ne s) (modulate c nb ne s') := by
  obtain ⟨hsrc, hlen, hdst⟩ := hops
  simp only [modulate, ← hsrc, ← hlen, ← hdst, h.memRead_bytes]
  split
  · exact h.raise (by decide)
  · split
    · exact (h.memRead ..).raise (by decide)
    · obtain ⟨hstore, hlength⟩ := ((h.memRead ..).memWrite ..).storeLength _
      exact hstore.finish ⟨hlength, rfl⟩

theorem deliverFrame_sameEnd {i : Instr} (hi : ∀ g g' : Regs, g.resultLen = g'.resultLen →
    g.resultAux = g'.resultAux → SameResults i g g') (hdst : s.regs.dstAddr = s'.regs.dstAddr) (o : Nat)
    (acc : List Byte) : SameEnd i (deliverFrame c o acc s) (deliverFrame c o acc s') := by
  simp only [deliverFrame, ← hdst]
  split
  · exact h.raise (by decide)
  · exact (h.memWrite ..).finish (hi _ _ rfl rfl)

theorem demodTrial_sameEnd (o : Byte) (hops : AgreeOnOperands (.demodTrial o) s.regs s'.regs) :
    SameEnd (.demodTrial o) (demodTrial c o s) (demodTrial c o s') := by
  obtain ⟨hsrc, hlen, hdst⟩ := hops
  simp only [demodTrial, ← hsrc, ← hlen, h.memRead_bytes]
  split
  · exact h.raise (by decide)
  · split
    · exact h.raise (by decide)
    · split
      · exact (h.memRead ..).raise (by decide)
      · exact deliverFrame_sameEnd c (h.memRead ..) (fun _ _ => And.intro) (by simpa using hdst) _ _

theorem demodulate_sameEnd (hops : AgreeOnOperands .demodulate s.regs s'.regs) :
    SameEnd .demodulate (demodulate c s) (demodulate c s') := by
  obtain ⟨hsrc, hlen, hdst⟩ := hops
  simp only [demodulate, ← hsrc, ← hlen, h.memRead_bytes]
  split
  · exact h.raise (by decide)
  · split
    · exact (h.memRead ..).raise (by decide)
    · exact deliverFrame_sameEnd c (h.memRead ..) (fun _ _ => And.intro) (by simpa using hdst) _ _

/-- Two runs of a command from states with the same memories, draws and operands end alike, in any build. -/
theorem perform_sameEnd {i : Instr} (hops : AgreeOnOperands i s.regs s'.regs) :
    SameEnd i (perform c i s) (perform c i s') := by
  cases i with
  | encodeFrame => exact encodeFrame_sameEnd c h hops
  | decodeFrame => exact decodeFrame_sameEnd c h hops
  | modulate nb ne => exact modulate_sameEnd c h nb ne hops
  | demodulate => exact demodulate_sameEnd c h hops
  | discriminate => exact discriminate_sameEnd c h hops
  | demodStep => exact demodStep_sameEnd c h hops
  | demodReset => exact demodReset_sameEnd c h
  | crc16 => exact crcCommand_sameEnd c h hops
  | demodTrial o => exact demodTrial_sameEnd c h o hops

end

/-- Settles O28: the two runs take the same branches on the same bytes, command by command. -/
theorem commandsReadOnlyTheirOperands : Obligations.CommandsReadOnlyTheirOperands := by
  intro i s s' t hoct hsmp hdraws hops ht
  obtain rfl := Host.Outcome.next.inj ((exec_eq_perform i s).symm.trans ht)
  obtain ⟨⟨hoct', hsmp', hdraws'⟩, herr, hres⟩ := perform_sameEnd ref ⟨hoct, hsmp, hdraws⟩ hops
  exact ⟨_, exec_eq_perform i s', herr, hoct', hsmp', hdraws', hres⟩

end Sys2Proof.Machine
end

section
/-! PROOFS. The modulator: its line bits, where a flag stands in them, the bounds of its samples, and `MODULATE` in the
reference build. -/

open Sys2Proof Sys2Proof.Machine Sys2Proof.Claims

namespace Sys2Proof.Machine

/-! ### The bits of the markers -/

/-- The bits of a flag in wire order (41_modulator.md R130, R131). -/
def flagBits : List Bool := [false, true, true, true, true, true, true, false]

theorem markerBits_flag_succ (k : Nat) : markerBits flagByte (k + 1) = flagBits ++ markerBits flagByte k := rfl

theorem markerBits_flag (k : Nat) : markerBits flagByte k = (List.replicate k flagBits).flatten := by
  induction k with
  | zero => rfl
  | succ k ih => rw [markerBits_flag_succ, ih, List.replicate_succ, List.flatten_cons]

/-- The parts of the reference build's line bits, the idle byte first (41_modulator.md R131). -/
theorem lineBits_ref (octets : List Byte) (nb ne : Nat) : lineBits ref octets nb ne =
    List.replicate 8 false ++ (markerBits flagByte nb ++ (stuffBits 0 (dataBits octets) ++ markerBits flagByte ne)) := by
  rw [lineBits, show ref.presyncIdle = 1 from rfl, markerBits_idle, List.append_assoc, List.append_assoc]

theorem dataBits_length (octets : List Byte) : (dataBits octets).length = 8 * octets.length := by
  simp [dataBits, List.length_flatMap, Nat.mul_comm]

/-! ### The stuffing -/

theorem stuffBits_false (ones : Nat) (rest : List Bool) :
    stuffBits ones (false :: rest) = false :: stuffBits 0 rest := by rw [stuffBits]

/-- The fifth 1 in a row takes a 0 after it (41_modulator.md R132). -/
theorem stuffBits_fifth_one (rest : List Bool) : stuffBits 4 (true :: rest) = true :: false :: stuffBits 0 rest := rfl

theorem stuffBits_one {ones : Nat} (h : ones < 4) (rest : List Bool) :
    stuffBits ones (true :: rest) = true :: stuffBits (ones + 1) rest := by
  rw [stuffBits, if_neg (by omega)]

section
variable {ones : Nat} (h : ones < 5)
include h

theorem destuff_nil : destuff ones [] = some [] := by
  rw [destuff]; omega

theorem destuff_false (rest : List Bool) : destuff ones (false :: rest) = (destuff 0 rest).map (false :: ·) := by
  rw [destuff]; omega

theorem destuff_true (rest : List Bool) : destuff ones (true :: rest) = (destuff (ones + 1) rest).map (true :: ·) := by
  rw [destuff]; omega

end

/-- A stuffed 0 is dropped. -/
theorem destuff_five_false (rest : List Bool) : destuff 5 (false :: rest) = destuff 0 rest := by rw [destuff]

theorem destuff_stuffBits (bits : List Bool) : ∀ ones < 5, destuff ones (stuffBits ones bits) = some bits := by
  induction bits with
  | nil => exact fun ones h => destuff_nil h
  | cons b bits ih =>
    intro ones h
    cases b with
    | false => rw [stuffBits_false, destuff_false h, ih 0 (by decide), Option.map_some]
    | true =>
      rcases Nat.lt_succ_iff_lt_or_eq.mp h with h4 | rfl
      · rw [stuffBits_one h4, destuff_true h, ih _ (by omega), Option.map_some]
      · rw [stuffBits_fifth_one, destuff_true h, destuff_five_false, ih 0 (by decide), Option.map_some]

/-- The stuffing adds at most one bit for every five, those of a run already begun counted in (41_modulator.md R140). -/
theorem stuffBits_length_bounds (bits : List Bool) : ∀ ones < 5,
    bits.length ≤ (stuffBits ones bits).length ∧
      (stuffBits ones bits).length ≤ bits.length + (bits.length + ones) / 5 := by
  induction bits with
  | nil => exact fun ones _ => by simp [stuffBits]
  | cons b bits ih =>
    intro ones h
    cases b with
    | false =>
      have := ih 0 (by decide)
      simp only [stuffBits_false, List.length_cons]
      omega
    | true =>
      rcases Nat.lt_succ_iff_lt_or_eq.mp h with h4 | rfl
      · have := ih (ones + 1) (by omega)
        simp only [stuffBits_one h4, List.length_cons]
        omega
      · have := ih 0 (by decide)
        simp only [stuffBits_fifth_one, List.length_cons]
        omega

/-- Settles O40: destuffing follows the stuffing with the same counter of consecutive 1 bits. -/
theorem lineBitsAreMarkersAroundStuffedData : Obligations.LineBitsAreMarkersAroundStuffedData := by
  intro octets nb ne
  obtain ⟨hlo, hhi⟩ := stuffBits_length_bounds (dataBits octets) 0 (by decide)
  rw [dataBits_length] at hlo hhi
  refine ⟨stuffBits 0 (dataBits octets), ?_, destuff_stuffBits _ 0 (by decide), hlo, hhi, ?_⟩
  · rw [lineBits_ref, markerBits_flag, markerBits_flag, List.append_assoc, List.append_assoc]
    rfl
  · simp only [lineBits_ref, List.length_append, List.length_replicate, markerBits_length]
    omega

/-! ### Where a flag stands -/

/-- A flag's bits stand at position `p`. -/
def FlagAt (p : Nat) (bits : List Bool) : Prop := flagBits <+: bits.drop p

/-- The bits begin with `n` 1 bits. -/
def BeginsWithOnes (n : Nat) (bits : List Bool) : Prop := List.replicate n true <+: bits

theorem not_flagAt_nil (p : Nat) : ¬ FlagAt p [] := by simp [FlagAt, flagBits]

theorem FlagAt.of_append {p : Nat} {front bits : List Bool} (h : FlagAt p (front ++ bits)) (hp : front.length ≤ p) :
    FlagAt (p - front.length) bits := by
  rwa [FlagAt, List.drop_append, List.drop_of_length_le hp, List.nil_append] at h

theorem not_beginsWithOnes_false (n : Nat) (bits : List Bool) : ¬ BeginsWithOnes (n + 1) (false :: bits) := by
  simp [BeginsWithOnes, List.replicate_succ, List.cons_prefix_cons]

theorem beginsWithOnes_succ_true {n : Nat} {bits : List Bool} :
    BeginsWithOnes (n + 1) (true :: bits) ↔ BeginsWithOnes n bits := by
  simp [BeginsWithOnes, List.replicate_succ, List.cons_prefix_cons]

theorem FlagAt.of_true {p : Nat} {bits : List Bool} (h : FlagAt p (true :: bits)) :
    ∃ q, p = q + 1 ∧ FlagAt q bits := by
  cases p with
  | zero => simp [FlagAt, flagBits] at h
  | succ q => exact ⟨q, rfl, h⟩

theorem FlagAt.of_ones {bits : List Bool} (n : Nat) : ∀ p,
    FlagAt p (List.replicate n true ++ bits) → ∃ q, p = q + n ∧ FlagAt q bits := by
  induction n with
  | zero => exact fun p h => ⟨p, rfl, h⟩
  | succ n ih =>
    intro p h
    obtain ⟨q, rfl, hq⟩ := FlagAt.of_true h
    obtain ⟨r, rfl, hr⟩ := ih q hq
    exact ⟨r, rfl, hr⟩

/-- A flag at a 0 needs six 1 bits after it. -/
theorem FlagAt.of_false {p : Nat} {bits : List Bool} (h : FlagAt p (false :: bits)) (hones : ¬ BeginsWithOnes 6 bits) :
    ∃ q, p = q + 1 ∧ FlagAt q bits := by
  cases p with
  | zero => exact absurd ((List.prefix_append (List.replicate 6 true) [false]).trans (List.cons_prefix_cons.mp h).2) hones
  | succ q => exact ⟨q, rfl, h⟩

/-- No flag starts in a run of 0 bits, such as the idle byte's. -/
theorem FlagAt.length_le_of_zeros {bits : List Bool} (hones : ¬ BeginsWithOnes 6 bits) (k : Nat) : ∀ p,
    FlagAt p (List.replicate k false ++ bits) → k ≤ p := by
  induction k with
  | zero => exact fun p _ => Nat.zero_le p
  | succ k ih =>
    intro p h
    have hrest : ¬ BeginsWithOnes 6 (List.replicate k false ++ bits) := by
      cases k with
      | zero => exact hones
      | succ k => exact not_beginsWithOnes_false 5 _
    obtain ⟨q, rfl, hq⟩ := FlagAt.of_false h hrest
    exact Nat.succ_le_succ (ih q hq)

theorem not_beginsWithOnes_markers {n k : Nat} {bits : List Bool} (hbits : ¬ BeginsWithOnes (n + 1) bits) :
    ¬ BeginsWithOnes (n + 1) (markerBits flagByte k ++ bits) := by
  cases k with
  | zero => exact hbits
  | succ k => exact not_beginsWithOnes_false n _

/-- Among flags a flag stands only where one of them starts: the last 0 of one is not the first 0 of another
(41_modulator.md R143). -/
theorem FlagAt.markers {bits : List Bool} (hones : ¬ BeginsWithOnes 6 bits) (k : Nat) : ∀ p,
    FlagAt p (markerBits flagByte k ++ bits) → (∃ j < k, p = 8 * j) ∨ 8 * k ≤ p := by
  induction k with
  | zero => exact fun p _ => .inr (Nat.zero_le p)
  | succ k ih =>
    intro p h
    rw [markerBits_flag_succ, List.append_assoc] at h
    cases p with
    | zero => exact .inl ⟨0, k.succ_pos, rfl⟩
    | succ p =>
      obtain ⟨r, rfl, hr⟩ := FlagAt.of_ones 6 p h
      obtain ⟨q, rfl, hq⟩ := hr.of_false (not_beginsWithOnes_markers hones)
      rcases ih q hq with ⟨j, hj, rfl⟩ | hle
      · exact .inl ⟨j + 1, Nat.succ_lt_succ hj, by omega⟩
      · exact .inr (by omega)

theorem FlagAt.markers_only {k p : Nat} (h : FlagAt p (markerBits flagByte k)) : ∃ j < k, p = 8 * j := by
  rw [← List.append_nil (markerBits flagByte k)] at h
  refine (FlagAt.markers (by simp [BeginsWithOnes]) k p h).resolve_right fun hp => ?_
  exact not_flagAt_nil _ (h.of_append ((markerBits_length flagByte k).trans_le hp))

/-- Stuffed data after `ones` 1 bits never makes six of them (41_modulator.md R132). -/
theorem not_beginsWithOnes_stuffBits (bits : List Bool) (k : Nat) : ∀ ones n, ones < 5 → ones + n = 5 →
    ¬ BeginsWithOnes (n + 1) (stuffBits ones bits ++ markerBits flagByte k) := by
  induction bits with
  | nil =>
    intro ones n _ _
    rw [← List.append_nil (markerBits flagByte k)]
    exact not_beginsWithOnes_markers (by simp [BeginsWithOnes, List.replicate_succ])
  | cons b bits ih =>
    intro ones n h hn
    cases b with
    | false => rw [stuffBits_false]; exact not_beginsWithOnes_false n _
    | true =>
      obtain ⟨n, rfl⟩ : ∃ m, n = m + 1 := ⟨n - 1, by omega⟩
      rcases Nat.lt_succ_iff_lt_or_eq.mp h with h4 | rfl
      · rw [stuffBits_one h4, List.cons_append, beginsWithOnes_succ_true]
        exact ih (ones + 1) n (by omega) (by omega)
      · rw [stuffBits_fifth_one, List.cons_append, beginsWithOnes_succ_true]
        exact not_beginsWithOnes_false n _

/-- No flag starts inside the stuffed data (41_modulator.md R143). -/
theorem FlagAt.length_le_of_stuffBits (bits : List Bool) (k : Nat) : ∀ ones p, ones < 5 →
    FlagAt p (stuffBits ones bits ++ markerBits flagByte k) → (stuffBits ones bits).length ≤ p := by
  induction bits with
  | nil => exact fun _ p _ _ => Nat.zero_le p
  | cons b bits ih =>
    intro ones p h hp
    have hones : ¬ BeginsWithOnes 6 (stuffBits 0 bits ++ markerBits flagByte k) :=
      not_beginsWithOnes_stuffBits bits k 0 5 (by decide) rfl
    cases b with
    | false =>
      rw [stuffBits_false] at hp ⊢
      obtain ⟨q, rfl, hq⟩ := FlagAt.of_false hp hones
      exact Nat.succ_le_succ (ih 0 q (by decide) hq)
    | true =>
      rcases Nat.lt_succ_iff_lt_or_eq.mp h with h4 | rfl
      · rw [stuffBits_one h4] at hp ⊢
        obtain ⟨q, rfl, hq⟩ := FlagAt.of_true hp
        exact Nat.succ_le_succ (ih (ones + 1) q (by omega) hq)
      · rw [stuffBits_fifth_one] at hp ⊢
        obtain ⟨q, rfl, hq⟩ := FlagAt.of_true hp
        obtain ⟨r, rfl, hr⟩ := FlagAt.of_false hq hones
        exact Nat.succ_le_succ (Nat.succ_le_succ (ih 0 r (by decide) hr))

/-- Settles O41: the position of a flag is followed through the parts of the line bits, none of which lets six 1 bits
begin but at a marker. -/
theorem flagsOccurOnlyAsMarkers : Obligations.FlagsOccurOnlyAsMarkers := by
  intro octets nb ne p hp
  have hflag : FlagAt p (lineBits ref octets nb ne) := by
    rw [FlagAt, flagBits, ← hp]
    exact List.take_prefix _ _
  have hdata : ¬ BeginsWithOnes 6 (stuffBits 0 (dataBits octets) ++ markerBits flagByte ne) :=
    not_beginsWithOnes_stuffBits _ ne 0 5 (by decide) rfl
  rw [lineBits_ref] at hflag
  have hidle : 8 ≤ p := FlagAt.length_le_of_zeros (not_beginsWithOnes_markers hdata) 8 p hflag
  have hbegin := hflag.of_append hidle
  rcases FlagAt.markers hdata nb _ hbegin with ⟨k, hk, e⟩ | hle
  · rw [List.length_replicate] at e
    exact .inl ⟨k, hk, by omega⟩
  · have hstuffed := hbegin.of_append ((markerBits_length flagByte nb).trans_le hle)
    have hend := FlagAt.length_le_of_stuffBits _ ne 0 _ (by decide) hstuffed
    obtain ⟨k, hk, e⟩ := (hstuffed.of_append hend).markers_only
    refine .inr ⟨k, hk, ?_⟩
    simp only [lineBits_ref, List.length_append, List.length_replicate, markerBits_length] at hle hend e ⊢
    omega

/-! ### The samples -/

/-- The shape of the waveform ROM in a legal build (10_state.md R56). -/
theorem wave_of_legal {c : Config} (h : c.legal = true) : c.amp ≤ 127 ∧ 1 ≤ c.amp ∧ c.tableBits ≤ c.phaseBits ∧
    c.wave.length = 2 ^ c.tableBits ∧ ∀ v ∈ c.wave, -(c.amp : Int) ≤ v ∧ v ≤ c.amp := by
  simp only [Config.legal, Bool.and_eq_true, decide_eq_true_eq, List.all_eq_true] at h
  tauto

theorem wave_getD_bounds {c : Config} (h : c.legal = true) (i : Nat) :
    -(c.amp : Int) ≤ c.wave.getD i 0 ∧ c.wave.getD i 0 ≤ c.amp := by
  obtain ⟨-, -, -, -, hwave⟩ := wave_of_legal h
  by_cases hi : i < c.wave.length
  · rw [List.getD_eq_getElem _ _ hi]
    exact hwave _ (List.getElem_mem hi)
  · rw [List.getD_eq_default _ _ (Nat.le_of_not_lt hi)]
    omega

/-- A sample is 128 plus its ROM entry: the byte does not wrap (41_modulator.md R138). -/
theorem sampleAt_toNat {c : Config} (h : c.legal = true) (phase : Nat) : ((sampleAt c phase).toNat : Int) =
    128 + c.wave.getD (phase / 2 ^ (c.phaseBits - c.tableBits)) 0 := by
  obtain ⟨hamp, -⟩ := wave_of_legal h
  have hw := wave_getD_bounds h (phase / 2 ^ (c.phaseBits - c.tableBits))
  rw [sampleAt, BitVec.toNat_ofInt]
  omega

theorem synthesize_bounds {c : Config} (h : c.legal = true) (tone : Tone) (bits : List Bool) :
    ∀ b ∈ synthesize c tone 0 bits, 128 - c.amp ≤ b.toNat ∧ b.toNat ≤ 128 + c.amp := by
  intro b hb
  rw [synthesize_eq_map c bits tone 0 (Nat.two_pow_pos _)] at hb
  obtain ⟨k, -, rfl⟩ := List.mem_map.mp hb
  have hnat := sampleAt_toNat h (phaseFrom c tone 0 bits k)
  have hw := wave_getD_bounds h (phaseFrom c tone 0 bits k / 2 ^ (c.phaseBits - c.tableBits))
  omega

theorem romIndex_lt {c : Config} (h : c.legal = true) {phase : Nat} (hphase : phase < 2 ^ c.phaseBits) :
    phase / 2 ^ (c.phaseBits - c.tableBits) < c.wave.length := by
  obtain ⟨-, -, hbits, hlen, -⟩ := wave_of_legal h
  rwa [hlen, Nat.div_lt_iff_lt_mul (Nat.two_pow_pos _), ← pow_add, Nat.add_sub_cancel' hbits]

theorem reference_legal : Config.reference.legal = true := by decide +kernel

/-- Settles O42: every sample is 128 plus an entry of the ROM, all of which lie within the amplitude. -/
theorem samplesStayInsideTheAmplitude : Obligations.SamplesStayInsideTheAmplitude := by
  refine ⟨fun c tone bits h => ⟨synthesize_length c bits tone 0, fun b hb => ?_, fun _ => romIndex_lt h⟩, fun tone bits =>
    synthesize_bounds reference_legal tone bits⟩
  obtain ⟨hamp, -⟩ := wave_of_legal h
  obtain ⟨hlo, hhi⟩ := synthesize_bounds h tone bits b hb
  omega

/-! ### `MODULATE` in the reference build -/

theorem toneAfter_eq_toneFrom (bits : List Bool) : toneAfter bits = toneFrom .low bits := by
  rw [toneFrom_eq, toneAfter]
  rcases Nat.mod_two_eq_zero_or_one (bits.count false) with h | h <;> rw [h] <;> rfl

/-- Eight samples are one or two whole turns of the phase, so every bit starts at phase 0 and is one of two patterns
(41_modulator.md R143). -/
theorem toneSamples_ref (tone : Tone) : toneSamples ref tone spb 0 = (bitPattern tone, 0) := by
  cases tone <;> decide

theorem synthesize_ref_cons (tone : Tone) (b : Bool) (bits : List Bool) : synthesize ref tone 0 (b :: bits) =
    bitPattern (nrziTone tone b) ++ synthesize ref (nrziTone tone b) 0 bits := by
  rw [synthesize, toneSamples_ref]

theorem bitPattern_length (tone : Tone) : (bitPattern tone).length = 8 := by cases tone <;> rfl

/-- The samples of line bit `j` are the pattern of its tone. -/
theorem synthesize_ref_slice (bits : List Bool) : ∀ tone, ∀ j < bits.length,
    bitPattern (toneFrom tone (bits.take (j + 1))) <+: (synthesize ref tone 0 bits).drop (8 * j) := by
  induction bits with
  | nil => exact fun _ j hj => absurd hj j.not_lt_zero
  | cons b bits ih =>
    intro tone j hj
    rw [synthesize_ref_cons]
    cases j with
    | zero => exact List.prefix_append _ _
    | succ j =>
      have hdrop : (bitPattern (nrziTone tone b) ++ synthesize ref (nrziTone tone b) 0 bits).drop (8 * (j + 1)) =
          (synthesize ref (nrziTone tone b) 0 bits).drop (8 * j) := by
        rw [Nat.mul_succ, Nat.add_comm, ← List.drop_drop, List.drop_left' (bitPattern_length _)]
      rw [hdrop]
      exact ih _ j (Nat.lt_of_succ_lt_succ hj)

/-- A memory that holds bytes holds every slice of them. -/
theorem holds_of_prefix_drop {m : Memory} {a k : Nat} {bs slice : List Byte} (h : Holds m a bs)
    (hslice : slice <+: bs.drop k) : Holds m (a + k) slice := by
  intro i hi
  have hlt : k + i < bs.length := by
    have := hslice.length_le
    rw [List.length_drop] at this
    omega
  rw [hslice.getElem hi, List.getElem_drop, Nat.add_assoc]
  exact h (k + i) hlt

/-- Settles O39: `MODULATE`'s cases for held octets, with the samples sliced into the patterns of their bits. -/
theorem modulateSendsThePatterns : Obligations.ModulateSendsThePatterns := by
  refine fun s nb ne octets ⟨hlen, hin, hold⟩ => ⟨fun hfit => ?_, fun hout => ?_⟩ <;>
    rcases perform_modulate_cases (c := ref) (nb := nb) (ne := ne) hlen hin hold with ⟨h, e⟩ | ⟨h, len, d, hd, e⟩
  · exact absurd hfit (Nat.not_le.mpr h)
  · obtain ⟨rfl, rfl⟩ := hd (by omega)
    refine ⟨_, fun j hj => ?_, ?_, (exec_eq_perform _ _).trans (congrArg _ e)⟩
    · rw [toneAfter_eq_toneFrom]
      exact holds_of_prefix_drop (Memory.read_writeRange_inside _ _ _) (synthesize_ref_slice _ _ j hj)
    · rw [← synthesize_length ref _ ref.initTone 0]
      exact Memory.read_writeRange_outside _ _ _
  · exact (exec_eq_perform _ _).trans (congrArg _ e)
  · exact absurd h (Nat.not_le.mpr hout)

end Sys2Proof.Machine
end

section
/-! PROOFS. The score of `DISCRIMINATE`: its value, its bounds and its exactness in 32 bits. -/

open Sys2Proof Sys2Proof.Machine Sys2Proof.Claims

namespace Sys2Proof.Machine

/-! ### The score in the reference build -/

/-- The sums over the reference tables, with the tables' entries put in (10_state.md R57). -/
theorem scoreIn_ref (w : List Byte) : scoreIn ref w = score w := by
  simp only [scoreIn, score, sumWith, Config.reference, List.range_succ, List.range_zero, List.map_append, List.map_cons,
    List.map_nil, List.sum_append, List.sum_cons, List.sum_nil, List.getD_cons_zero, List.getD_cons_succ]
  ring

/-- Settles O43: the command's meaning on a held window, with the score of the reference build written out. -/
theorem discriminateWritesTheScore : Obligations.DiscriminateWritesTheScore := by
  rintro s w ⟨hlen, hin, hold⟩
  rw [exec_eq_perform, perform_discriminate_of_holds reference_legal hlen hin hold, ← scoreIn_ref]

/-! ### The bounds of a correlation sum -/

@[simp] theorem correlate_nil_left (w : List Byte) : correlate [] w = 0 := by simp [correlate]

@[simp] theorem correlate_nil_right (table : List Int) : correlate table [] = 0 := by simp [correlate]

@[simp] theorem correlate_cons (k : Int) (table : List Int) (b : Byte) (w : List Byte) :
    correlate (k :: table) (b :: w) = centred b * k + correlate table w := rfl

theorem centred_natAbs_le (b : Byte) : (centred b).natAbs ≤ 128 := by
  have := b.isLt
  rw [centred]
  omega

/-- A correlation sum is at most 128 times its table's absolute sum (42_discriminator.md R164). -/
theorem correlate_natAbs_le (table : List Int) :
    ∀ w, (correlate table w).natAbs ≤ 128 * (table.map Int.natAbs).sum := by
  induction table with
  | nil => simp
  | cons k table ih =>
    rintro (_ | ⟨b, w⟩)
    · simp
    · calc (correlate (k :: table) (b :: w)).natAbs
          ≤ (centred b * k).natAbs + (correlate table w).natAbs := Int.natAbs_add_le _ _
        _ ≤ 128 * k.natAbs + 128 * (table.map Int.natAbs).sum := by
            rw [Int.natAbs_mul]
            exact add_le_add (Nat.mul_le_mul_right _ (centred_natAbs_le b)) (ih w)
        _ = 128 * ((k :: table).map Int.natAbs).sum := by simp [Nat.mul_add]

/-- Centring takes 128 times the table's sum from the correlation of the samples (42_discriminator.md R161). -/
theorem correlate_eq_uncentred_sub (table : List Int) : ∀ w : List Byte, table.length = w.length →
    correlate table w = (List.zipWith (fun (b : Byte) (k : Int) => (b.toNat : Int) * k) w table).sum - 128 * table.sum := by
  induction table with
  | nil => simp
  | cons k table ih =>
    rintro (_ | ⟨b, w⟩) hlen
    · cases hlen
    · rw [correlate_cons, ih w (Nat.succ.inj hlen), centred]
      simp only [List.zipWith_cons_cons, List.sum_cons]
      ring

/-- A table whose sum is 0 correlates with centred and with uncentred samples alike (42_discriminator.md R161). -/
theorem correlate_eq_uncentred {table : List Int} {w : List Byte} (hlen : table.length = w.length)
    (hsum : table.sum = 0) :
    correlate table w = (List.zipWith (fun (b : Byte) (k : Int) => (b.toNat : Int) * k) w table).sum := by
  rw [correlate_eq_uncentred_sub table w hlen, hsum, mul_zero, sub_zero]

/-! ### The bounds of the score -/

theorem correlate_low_bounds (w : List Byte) :
    ∀ table ∈ [ref.cl, ref.sl], -5120 ≤ correlate table w ∧ correlate table w ≤ 5120 := by
  intro table htable
  have hsum : (table.map Int.natAbs).sum = 40 := by revert table; decide
  have := correlate_natAbs_le table w
  omega

theorem correlate_high_bounds (w : List Byte) :
    ∀ table ∈ [ref.ch, ref.sh], -4096 ≤ correlate table w ∧ correlate table w ≤ 4096 := by
  intro table htable
  have hsum : (table.map Int.natAbs).sum = 32 := by revert table; decide
  have := correlate_natAbs_le table w
  omega

/-- Two sums of magnitude at most `m` have a power of at most `2 * m ^ 2` (42_discriminator.md R164). -/
theorem power_bounds {x y m : Int} (hx : -m ≤ x ∧ x ≤ m) (hy : -m ≤ y ∧ y ≤ m) :
    0 ≤ x ^ 2 + y ^ 2 ∧ x ^ 2 + y ^ 2 ≤ 2 * m ^ 2 := by
  rw [two_mul]
  exact ⟨by positivity, add_le_add (sq_le_sq' hx.1 hx.2) (sq_le_sq' hy.1 hy.2)⟩

theorem powerLow_bounds (w : List Byte) : 0 ≤ powerLow ref w ∧ powerLow ref w ≤ 52428800 :=
  power_bounds (correlate_low_bounds w ref.cl (by simp)) (correlate_low_bounds w ref.sl (by simp))

theorem powerHigh_bounds (w : List Byte) : 0 ≤ powerHigh ref w ∧ powerHigh ref w ≤ 33554432 :=
  power_bounds (correlate_high_bounds w ref.ch (by simp)) (correlate_high_bounds w ref.sh (by simp))

theorem disc_bounds (w : List Byte) : -52428800 ≤ disc ref w ∧ disc ref w ≤ 52428800 := by
  have hlow := powerLow_bounds w
  have hhigh := powerHigh_bounds w
  rw [disc]
  omega

/-- The 32-bit pattern gives a score in the range of `s32` back. -/
theorem scoreWord_toInt {score : Int} (h : -2 ^ 31 ≤ score ∧ score < 2 ^ 31) : (scoreWord score).toInt = score := by
  rw [scoreWord, BitVec.toInt_ofInt]
  exact Int.bmod_eq_of_le (by omega) (by omega)

/-- Settles O44: every range follows from the tables' absolute sums, and the centring's part from their sums, all 0. -/
theorem scoreIsExact : Obligations.ScoreIsExact := by
  refine ⟨by decide, centred_natAbs_le, fun w hw => ⟨correlate_low_bounds w, correlate_high_bounds w, powerLow_bounds w,
    powerHigh_bounds w, disc_bounds w, scoreWord_toInt ?_, fun table htable => ?_⟩⟩
  · have := disc_bounds w
    omega
  · obtain ⟨hlen, hsum⟩ : table.length = 8 ∧ table.sum = 0 := by revert table; decide
    exact correlate_eq_uncentred (hlen.trans hw.symm) hsum

end Sys2Proof.Machine
end

section
/-! PROOFS. The demodulator's step, one equation for each of its cases, and `DEMOD_STEP` and `DEMOD_RESET` in the
reference build. -/

open Sys2Proof Sys2Proof.Machine Sys2Proof.Claims

namespace Sys2Proof.Machine

/-! ### The step of the demodulator -/

theorem demodTone_prev (c : Config) (st : DemodState) (tone : Tone) : (demodTone c st tone).st.prev = tone := by
  simp only [demodTone]
  split_ifs <;> rfl

section
variable {st : DemodState} {tone : Tone} {bit : Bool} (hbit : decide (tone = st.prev) = bit)
include hbit

/-- The step when the flag test fires (43_demodulator.md R180). -/
theorem demodTone_flag (c : Config) (hflag : st.esc = 0 ∧ shiftIn st.sreg bit = flagByte) :
    demodTone c st tone =
      { st := { prev := tone, inFrame := true, run := 0, esc := 0, sreg := 0#8, bitidx := st.bitidx + 1
                start := st.bitidx }
        event := .flag
        bit := bit } := by
  simp only [demodTone, hbit, if_pos hflag]

variable (hflag : ¬ (st.esc = 0 ∧ shiftIn st.sreg bit = flagByte))
include hflag

/-- The step outside a frame (43_demodulator.md R185). -/
theorem demodTone_outside (c : Config) (hin : st.inFrame = false) :
    demodTone c st tone =
      { st := { st with
          prev := tone, inFrame := false, esc := st.esc - 1, sreg := shiftIn st.sreg bit, bitidx := st.bitidx + 1 }
        event := .none
        bit := bit } := by
  simp only [demodTone, hbit, if_neg hflag, hin, Bool.not_false, if_true]

/-- The step on a data bit in a frame: every eighth bit since the start of the frame ends a byte (43_demodulator.md
R182, R183). -/
theorem demodTone_data (c : Config) (hin : st.inFrame = true) (hdata : ¬ (bit = false ∧ st.run = 5)) {whole : Bool}
    (hwhole : decide ((st.bitidx - st.start).toNat % 8 = 0) = whole) :
    demodTone c st tone =
      { st := { st with
          prev := tone, inFrame := true, run := if bit then min (st.run + 1) c.runMax else 0, esc := st.esc - 1
          sreg := if whole then 0#8 else shiftIn st.sreg bit, bitidx := st.bitidx + 1 }
        event := if whole then .byte (shiftIn st.sreg bit) else .none
        bit := bit } := by
  simp only [demodTone, hbit, if_neg hflag, hin, Bool.not_true, Bool.false_eq_true, if_false, if_neg hdata]
  cases whole with
  | true => simp only [if_pos (of_decide_eq_true hwhole), if_true]
  | false => simp only [if_neg (of_decide_eq_false hwhole), Bool.false_eq_true, if_false]

end

/-! ### The counters of `DM_STATE` -/

theorem ofNat_demod_esc_sub_one (g : Regs) : BitVec.ofNat 4 (g.demod.esc - 1) = countedDown (escOf g) := by
  have hcount : ∀ esc : BitVec 4, BitVec.ofNat 4 (esc.toNat - 1) = countedDown esc := by decide
  exact hcount _

theorem ofNat_demod_run (g : Regs) : BitVec.ofNat 4 g.demod.run = runOf g := BitVec.ofNat_toNat _ _

/-- `RUN` saturates at the reference build's `RUN_MAX` (43_demodulator.md R182). -/
theorem ofNat_demod_run_step (g : Regs) (bit : Bool) :
    BitVec.ofNat 4 (if bit then min (g.demod.run + 1) ref.runMax else 0) = tracked (runOf g) bit := by
  have hrun : ∀ (run : BitVec 4) (bit : Bool),
      BitVec.ofNat 4 (if bit then min (run.toNat + 1) 15 else 0) = tracked run bit := by decide
  exact hrun _ _

/-! ### The bit of a window in the reference build -/

theorem toneBit_toneOfScore_disc {w : List Byte} (hw : w.length = 8) :
    toneBit (toneOfScore (disc ref w)) = toneBitOf w := by
  rw [toneBit_toneOfScore, disc_eq_scoreIn reference_legal hw, scoreIn_ref, toneBitOf]

theorem bitIn_ref (g : Regs) (w : List Byte) : bitIn ref g w = decodedBit g w := by
  rw [bitIn, scoreIn_ref, decodedBit, toneBitOf]

theorem shiftedIn_ref (g : Regs) (w : List Byte) : shiftedIn ref g w = shifted g w := by
  rw [shiftedIn, bitIn_ref, shifted]

theorem decide_tone_eq_decodedBit {w : List Byte} (hw : w.length = 8) (g : Regs) :
    decide (toneOfScore (disc ref w) = g.demod.prev) = decodedBit g w :=
  (decodedBit_eq_bitIn reference_legal hw g).trans (bitIn_ref g w)

theorem shiftIn_eq_shifted (g : Regs) (w : List Byte) : shiftIn g.demod.sreg (decodedBit g w) = shifted g w :=
  shiftIn_eq_append _ _

theorem flagTest_iff_flagFires (g : Regs) (w : List Byte) :
    (g.demod.esc = 0 ∧ shiftIn g.demod.sreg (decodedBit g w) = flagByte) ↔ FlagFires g w := by
  rw [shiftIn_eq_shifted]
  exact and_congr_left' (BitVec.toNat_inj (y := 0#4))

/-! ### The commands -/

/-- `DEMOD_STEP` on a held window puts the result of the step into the registers (43_demodulator.md R186). -/
theorem exec_demodStep_of_dstep {s : State} {w : List Byte} {r : StepResult} (h : WindowAt s w)
    (hr : dstep ref s.regs.demod w = r) :
    exec .demodStep s = .next (ended s .ok { s.regs with
      dmState   := dmStateOf r.st.sreg (BitVec.ofNat 4 r.st.esc) (BitVec.ofNat 4 r.st.run) r.st.inFrame (toneBitOf w)
      dmBitidx  := r.st.bitidx
      dmStart   := r.st.start
      dmEvent   := dmEventOf r.event.code r.event.value r.bit (toneBitOf w)
      resultAux := BitVec.ofInt 32 (score w) }) := by
  obtain ⟨hw, hin, hold⟩ := h
  have htone : toneBit r.st.prev = toneBitOf w := by
    rw [← hr, dstep, demodTone_prev, toneBit_toneOfScore_disc hw]
  rw [exec_eq_perform, perform, demodStep_of_holds hw hin hold, hr, storeDemod, dmStateWord_eq_dmStateOf,
    dmEventWord_eq_dmEventOf, htone, disc_eq_scoreIn reference_legal hw, scoreIn_ref]
  rfl

/-- Settles O45: the step's first case. -/
theorem demodStepOnAFlag : Obligations.DemodStepOnAFlag := by
  intro s w h hflag
  have hstep : dstep ref s.regs.demod w = _ := demodTone_flag (decide_tone_eq_decodedBit h.1 s.regs) ref
    ((flagTest_iff_flagFires s.regs w).mpr hflag)
  rw [exec_demodStep_of_dstep h hstep]
  rfl

/-- Settles O46: the step on a stuffed bit of any legal build, with the reference build's `ESC_LEN` and score. -/
theorem demodStepOnAStuffedBit : Obligations.DemodStepOnAStuffedBit := by
  rintro s w ⟨hw, hin, hold⟩ hflag hframe hbit hrun
  rw [FlagFires, ← shiftedIn_ref] at hflag
  rw [← bitIn_ref] at hbit
  rw [exec_eq_perform, perform_demodStep_stuffed reference_legal hw hin hold hflag hframe hbit hrun, shiftedIn_ref,
    scoreIn_ref]
  rfl

/-- Settles O47: the step's last case, whose byte is whole or not. -/
theorem demodStepOnADataBit : Obligations.DemodStepOnADataBit := by
  intro s w h hflag hframe hdata bit whole
  have hdata' : ¬ (bit = false ∧ s.regs.demod.run = 5) :=
    mt (And.imp_right fun hrun => BitVec.eq_of_toNat_eq (y := 5#4) hrun) hdata
  have hstep : dstep ref s.regs.demod w = _ := demodTone_data (decide_tone_eq_decodedBit h.1 s.regs)
    (mt (flagTest_iff_flagFires s.regs w).mp hflag) ref hframe hdata' (whole := whole) rfl
  rw [exec_demodStep_of_dstep h hstep, shiftIn_eq_shifted, ofNat_demod_run_step, ofNat_demod_esc_sub_one]
  cases whole <;> rfl

/-- Settles O48: the step's second case. -/
theorem demodStepOutsideAFrame : Obligations.DemodStepOutsideAFrame := by
  intro s w h hflag hframe
  have hstep : dstep ref s.regs.demod w = _ := demodTone_outside (decide_tone_eq_decodedBit h.1 s.regs)
    (mt (flagTest_iff_flagFires s.regs w).mp hflag) ref hframe
  rw [exec_demodStep_of_dstep h hstep, shiftIn_eq_shifted, ofNat_demod_esc_sub_one, ofNat_demod_run]
  rfl

/-- Settles O49: the reset of any build, with the reference build's `INIT_TONE`. -/
theorem demodResetClearsTheDemodulator : Obligations.DemodResetClearsTheDemodulator := by
  refine ⟨rfl, fun s => ?_⟩
  rw [exec_eq_perform, perform_demodReset]
  rfl

end Sys2Proof.Machine
end

section
/-! PROOFS. A trial in any build: the steps it is made of, the complete windows it reads, the span it returns, and the
length of a found frame. -/

open Sys2Proof Sys2Proof.Machine Sys2Proof.Claims

namespace Sys2Proof.Machine

/-! ### The windows -/

theorem windows_append {w : List Byte} (hw : w.length = 8) (rest : List Byte) :
    windows (w ++ rest) = w :: windows rest := by
  match w, hw with
  | [_, _, _, _, _, _, _, _], _ => rfl

/-- Fewer than 8 samples are no complete window (44_phase_search.md R200). -/
theorem windows_of_length_lt {buf : List Byte} (h : buf.length < 8) : windows buf = [] := by
  match buf with
  | [] | [_] | [_, _] | [_, _, _] | [_, _, _, _] | [_, _, _, _, _] | [_, _, _, _, _, _] | [_, _, _, _, _, _, _] => rfl
  | _ :: _ :: _ :: _ :: _ :: _ :: _ :: _ :: _ => simp at h; omega

/-- Samples that complete no further window add none. -/
theorem windows_append_tail (tail buf : List Byte) (h : buf.length % 8 + tail.length < 8) :
    windows (buf ++ tail) = windows buf := by
  by_cases hshort : buf.length < 8
  · rw [windows_of_length_lt hshort, windows_of_length_lt (by rw [List.length_append]; omega)]
  · have hw : (buf.take 8).length = 8 := by rw [List.length_take]; omega
    rw [← List.take_append_drop 8 buf, List.append_assoc, windows_append hw, windows_append hw,
      windows_append_tail tail (buf.drop 8) (by rw [List.length_drop]; omega)]
termination_by buf.length
decreasing_by rw [List.length_drop]; omega

theorem windows_length (buf : List Byte) : (windows buf).length = buf.length / 8 := by
  by_cases hshort : buf.length < 8
  · rw [windows_of_length_lt hshort, List.length_nil, Nat.div_eq_of_lt hshort]
  · have hw : (buf.take 8).length = 8 := by rw [List.length_take]; omega
    rw [← List.take_append_drop 8 buf, windows_append hw, List.length_cons, windows_length (buf.drop 8),
      List.length_append, hw]
    omega
termination_by buf.length
decreasing_by rw [List.length_drop]; omega

/-- Settles O54: the samples from the offset on have the same complete windows. -/
theorem trialIgnoresAPartialWindow : Obligations.TrialIgnoresAPartialWindow := by
  intro c buf tail o ho h
  rw [trial, trial, List.drop_append_of_le_length ho, windows_append_tail]
  rwa [List.length_drop]

/-! ### The steps of a trial -/

section
variable {c : Config} {st : DemodState} {acc w : List Byte} {ws : List (List Byte)}

theorem trialFrom_nil : trialFrom c st acc [] = none := rfl

/-- A flag ends the trial or empties the accumulator (44_phase_search.md R201, R203). -/
theorem trialFrom_flag (h : (dstep c st w).event = .flag) : trialFrom c st acc (w :: ws) =
    if 16 ≤ acc.length then some acc else trialFrom c (dstep c st w).st [] ws := by
  simp only [trialFrom, h]

theorem trialFrom_byte {v : Byte} (h : (dstep c st w).event = .byte v) :
    trialFrom c st acc (w :: ws) = trialFrom c (dstep c st w).st (acc ++ [v]) ws := by
  simp only [trialFrom, h]

/-- `SKIP` and `NONE` leave the accumulator alone (44_phase_search.md R201). -/
theorem trialFrom_quiet (h : (dstep c st w).event = .skip ∨ (dstep c st w).event = .none) :
    trialFrom c st acc (w :: ws) = trialFrom c (dstep c st w).st acc ws := by
  rcases h with h | h <;> simp only [trialFrom, h]

end

/-- The bits since the start of the frame, modulo 8: 0 at the step that ends a byte (43_demodulator.md R183). -/
def DemodState.bitPhase (st : DemodState) : Nat := (st.bitidx - st.start).toNat % 8

theorem succ_sub_toNat_mod_eight (a b : Word) : (a + 1 - b).toNat % 8 = ((a - b).toNat % 8 + 1) % 8 := by
  bv_omega

/-- Everything a step can do to the frame: a flag enters it; outside it nothing is emitted; inside it a stuffed bit keeps
the bit phase, and any other bit advances it and ends a byte at phase 0 (43_demodulator.md R180 to R183). -/
theorem dstep_cases (c : Config) (st : DemodState) (w : List Byte) :
    ((dstep c st w).event = .flag ∧ (dstep c st w).st.inFrame = true ∧ (dstep c st w).st.bitPhase = 1) ∨
    (st.inFrame = false ∧ (dstep c st w).event = .none ∧ (dstep c st w).st.inFrame = false) ∨
    (st.inFrame = true ∧ (dstep c st w).event = .skip ∧ (dstep c st w).st.inFrame = true ∧
      (dstep c st w).st.bitPhase = st.bitPhase) ∨
    (st.inFrame = true ∧ (dstep c st w).st.inFrame = true ∧ (dstep c st w).st.bitPhase = (st.bitPhase + 1) % 8 ∧
      ((∃ v, st.bitPhase = 0 ∧ (dstep c st w).event = .byte v) ∨
        (st.bitPhase ≠ 0 ∧ (dstep c st w).event = .none))) := by
  rw [dstep]
  generalize toneOfScore (disc c w) = tone
  by_cases hflag : st.esc = 0 ∧ shiftIn st.sreg (decide (tone = st.prev)) = flagByte
  · rw [demodTone_flag rfl c hflag]
    exact .inl ⟨rfl, rfl, by simp [DemodState.bitPhase]⟩
  · cases hin : st.inFrame with
    | false =>
      rw [demodTone_outside rfl hflag c hin]
      exact .inr (.inl ⟨rfl, rfl, rfl⟩)
    | true =>
      by_cases hstuffed : decide (tone = st.prev) = false ∧ st.run = 5
      · rw [demodTone_stuffed hflag hin hstuffed.1 hstuffed.2]
        refine .inr (.inr (.inl ⟨rfl, rfl, hin, ?_⟩))
        rw [DemodState.bitPhase, DemodState.bitPhase, add_sub_add_right_eq_sub]
      · rw [demodTone_data rfl hflag c hin hstuffed rfl]
        refine .inr (.inr (.inr ⟨rfl, rfl, succ_sub_toNat_mod_eight _ _, ?_⟩))
        by_cases hwhole : st.bitPhase = 0
        · exact .inl ⟨_, hwhole, if_pos (decide_eq_true hwhole)⟩
        · exact .inr ⟨hwhole, if_neg (mt of_decide_eq_true hwhole)⟩

/-! ### The length of a found frame -/

/-- The accumulator's bytes took 8 steps each of the `n` steps so far, and the byte begun takes the rest
(44_phase_search.md R204). -/
def FilledIn (st : DemodState) (acc : List Byte) (n : Nat) : Prop :=
  (st.inFrame = false → acc = []) ∧ (st.inFrame = true → 8 * acc.length + (st.bitPhase + 7) % 8 ≤ n)

theorem filledIn_of_inFrame {st : DemodState} {acc : List Byte} {n : Nat} (hin : st.inFrame = true)
    (h : 8 * acc.length + (st.bitPhase + 7) % 8 ≤ n) : FilledIn st acc n :=
  ⟨fun hout => absurd (hout.symm.trans hin) Bool.false_ne_true, fun _ => h⟩

/-- The length of the frame that a trial finds when it goes on after `n` steps (44_phase_search.md R204). -/
theorem trialFrom_length_le {c : Config} {found : List Byte} (ws : List (List Byte)) : ∀ {st acc n},
    FilledIn st acc n → trialFrom c st acc ws = some found →
    16 ≤ found.length ∧ found.length ≤ (n + ws.length) / 8 := by
  induction ws with
  | nil => exact fun _ h => absurd h (by simp [trialFrom_nil])
  | cons w ws ih =>
    rintro st acc n ⟨hout, hframe⟩ h
    have hnext : ∀ {acc'}, FilledIn (dstep c st w).st acc' (n + 1) →
        trialFrom c (dstep c st w).st acc' ws = some found →
        16 ≤ found.length ∧ found.length ≤ (n + (w :: ws).length) / 8 := fun hfill hrest => by
      rw [List.length_cons, ← Nat.add_assoc, Nat.add_right_comm]
      exact ih hfill hrest
    rcases dstep_cases c st w with ⟨hev, hin, hph⟩ | ⟨hin, hev, hin'⟩ | ⟨hin, hev, hin', hph⟩ |
      ⟨hin, hin', hph, ⟨v, hph0, hev⟩ | ⟨hph0, hev⟩⟩
    · rw [trialFrom_flag hev] at h
      by_cases hlong : 16 ≤ acc.length
      · obtain rfl : acc = found := by simpa [hlong] using h
        refine ⟨hlong, ?_⟩
        cases hst : st.inFrame with
        | false => simp [hout hst]
        | true => have := hframe hst; omega
      · rw [if_neg hlong] at h
        exact hnext (filledIn_of_inFrame hin (by simp [hph])) h
    · rw [trialFrom_quiet (.inr hev)] at h
      exact hnext ⟨fun _ => hout hin, fun hc => absurd (hin'.symm.trans hc) Bool.false_ne_true⟩ h
    · rw [trialFrom_quiet (.inl hev)] at h
      have := hframe hin
      exact hnext (filledIn_of_inFrame hin' (by omega)) h
    · rw [trialFrom_byte hev] at h
      have := hframe hin
      exact hnext (filledIn_of_inFrame hin' (by rw [List.length_append, List.length_singleton]; omega)) h
    · rw [trialFrom_quiet (.inr hev)] at h
      have := hframe hin
      have : st.bitPhase < 8 := Nat.mod_lt _ (by decide)
      exact hnext (filledIn_of_inFrame hin' (by omega)) h

/-- Settles O53: each byte of the frame took eight steps, and each step a window of eight samples. -/
theorem foundFrameLengthBounds : Obligations.FoundFrameLengthBounds := by
  intro c buf o acc h
  have hfill : FilledIn (demodInit c) [] 0 := ⟨fun _ => rfl, fun h => absurd h Bool.false_ne_true⟩
  obtain ⟨hmin, hmax⟩ := trialFrom_length_le _ hfill h
  rw [Nat.zero_add, windows_length, List.length_drop] at hmax
  exact ⟨hmin, hmax, by omega, by omega⟩

/-! ### The span that a trial returns -/

/-- Every span between consecutive flags has fewer than 16 bytes (44_phase_search.md R203). -/
def ShortSpans (evs : List DemodEvent) : Prop :=
  ∀ b' s' r', evs = b' ++ .flag :: s' ++ .flag :: r' → .flag ∉ s' → (bytesOf s').length < 16

/-- `acc` is the first span between consecutive flags that has at least 16 bytes (44_phase_search.md R201, R203). -/
def FirstLongSpan (evs : List DemodEvent) (acc : List Byte) : Prop :=
  ∃ before span rest, evs = before ++ .flag :: span ++ .flag :: rest ∧ .flag ∉ span ∧ bytesOf span = acc ∧
    16 ≤ acc.length ∧ ShortSpans (before ++ [.flag])

theorem bytesOf_append (evs evs' : List DemodEvent) : bytesOf (evs ++ evs') = bytesOf evs ++ bytesOf evs' := by
  induction evs with
  | nil => rfl
  | cons e evs ih => cases e <;> simp [bytesOf, ih]

/-- The events before the first flag are the same, however the list is cut there. -/
theorem eq_of_append_flag {front s l r : List DemodEvent} (hfront : .flag ∉ front) (hs : .flag ∉ s)
    (h : front ++ .flag :: l = s ++ .flag :: r) : front = s := by
  induction front generalizing s with
  | nil => cases s <;> simp_all
  | cons e front ih =>
    cases s with
    | nil => simp_all
    | cons e' s =>
      simp only [List.mem_cons, not_or, List.cons_append, List.cons.injEq] at hfront hs h
      rw [h.1, ih hfront.2 hs.2 h.2]

section
variable {evs front : List DemodEvent} (hfront : .flag ∉ front)
include hfront

/-- Events before the first flag are in no span. -/
theorem ShortSpans.append_left (h : ShortSpans evs) : ShortSpans (front ++ evs) := by
  induction front with
  | nil => exact h
  | cons e front ih =>
    rintro (_ | ⟨e', b'⟩) s' r' heq
    · simp_all
    · exact ih (by simp_all) b' s' r' (by simp_all)

theorem shortSpans_flag_cons : ShortSpans (.flag :: front) := by
  intro b' s' r' heq
  have := congrArg (List.count .flag) heq
  simp [List.count_eq_zero.mpr hfront] at this
  omega

/-- A short span before the flag that opens another one. -/
theorem ShortSpans.cons_span (hshort : (bytesOf front).length < 16) (h : ShortSpans (.flag :: evs)) :
    ShortSpans (.flag :: front ++ .flag :: evs) := by
  rintro (_ | ⟨e', b'⟩) s' r' heq hs
  · rwa [← eq_of_append_flag hfront hs (List.cons.inj heq).2]
  · exact h.append_left hfront b' s' r' (List.cons.inj heq).2 hs

theorem FirstLongSpan.append_left {acc : List Byte} (h : FirstLongSpan evs acc) : FirstLongSpan (front ++ evs) acc := by
  obtain ⟨before, span, rest, rfl, hspan, hacc, hlong, hshort⟩ := h
  exact ⟨front ++ before, span, rest, by simp, hspan, hacc, hlong, by simpa using hshort.append_left hfront⟩

theorem FirstLongSpan.cons_span {acc : List Byte} (hshort : (bytesOf front).length < 16)
    (h : FirstLongSpan (.flag :: evs) acc) : FirstLongSpan (.flag :: front ++ .flag :: evs) acc := by
  obtain ⟨before, span, rest, heq, hspan, hacc, hlong, hbefore⟩ := h
  obtain ⟨evs', hopen⟩ : ∃ evs', before ++ [.flag] = .flag :: evs' := by
    cases before with
    | nil => exact ⟨[], rfl⟩
    | cons e before => exact ⟨before ++ [.flag], by rw [(List.cons.inj heq).1, List.cons_append]⟩
  refine ⟨.flag :: front ++ before, span, rest, by simp [heq], hspan, hacc, hlong, ?_⟩
  rw [List.append_assoc, hopen]
  exact ShortSpans.cons_span hfront hshort (hopen ▸ hbefore)

end

/-- What a trial says of the events it reads, those before it put first. -/
def TrialSpan (evs : List DemodEvent) : Option (List Byte) → Prop
  | some acc => FirstLongSpan evs acc
  | none     => ShortSpans evs

theorem TrialSpan.append_left {evs front : List DemodEvent} {r : Option (List Byte)} (hfront : .flag ∉ front)
    (h : TrialSpan evs r) : TrialSpan (front ++ evs) r := by
  cases r with
  | none => exact ShortSpans.append_left hfront h
  | some acc => exact FirstLongSpan.append_left hfront h

theorem TrialSpan.cons_span {evs front : List DemodEvent} {r : Option (List Byte)} (hfront : .flag ∉ front)
    (hshort : (bytesOf front).length < 16) (h : TrialSpan (.flag :: evs) r) :
    TrialSpan (.flag :: front ++ .flag :: evs) r := by
  cases r with
  | none => exact ShortSpans.cons_span hfront hshort h
  | some acc => exact FirstLongSpan.cons_span hfront hshort h

/-- In a frame the accumulator holds the bytes of the events since the last flag (44_phase_search.md R201). -/
theorem trialSpan_of_flag (c : Config) (ws : List (List Byte)) : ∀ (st : DemodState) (since : List DemodEvent),
    .flag ∉ since →
    TrialSpan (.flag :: since ++ eventsOf c st ws) (trialFrom c st (bytesOf since) ws) := by
  induction ws with
  | nil =>
    intro st since hsince
    rw [eventsOf, List.append_nil, trialFrom_nil]
    exact shortSpans_flag_cons hsince
  | cons w ws ih =>
    intro st since hsince
    have hnext : (dstep c st w).event ≠ .flag →
        TrialSpan (.flag :: since ++ eventsOf c st (w :: ws))
          (trialFrom c (dstep c st w).st (bytesOf since ++ bytesOf [(dstep c st w).event]) ws) := fun hne => by
      have := ih (dstep c st w).st (since ++ [(dstep c st w).event]) (by simp [hsince, hne.symm])
      rwa [bytesOf_append, ← List.cons_append, List.append_assoc, List.singleton_append] at this
    cases he : (dstep c st w).event with
    | flag =>
      rw [trialFrom_flag he, eventsOf, he]
      split_ifs with hlong
      · exact ⟨[], since, _, rfl, hsince, rfl, hlong, shortSpans_flag_cons List.not_mem_nil⟩
      · exact TrialSpan.cons_span hsince (Nat.lt_of_not_le hlong) (ih _ [] List.not_mem_nil)
    | byte v => simpa [trialFrom_byte he, he, bytesOf] using hnext
    | skip => simpa [trialFrom_quiet (.inl he), he, bytesOf] using hnext
    | none => simpa [trialFrom_quiet (.inr he), he, bytesOf] using hnext

/-- Before the first flag nothing is emitted (43_demodulator.md R188). -/
theorem trialSpan_of_outside (c : Config) (ws : List (List Byte)) : ∀ st : DemodState, st.inFrame = false →
    TrialSpan (eventsOf c st ws) (trialFrom c st [] ws) := by
  induction ws with
  | nil => exact fun st _ b' s' r' heq => by simp [eventsOf] at heq
  | cons w ws ih =>
    intro st hst
    rcases dstep_cases c st w with ⟨hev, -⟩ | ⟨-, hev, hin⟩ | ⟨hin, -⟩ | ⟨hin, -⟩
    · rw [trialFrom_flag hev, eventsOf, hev, if_neg (by simp)]
      exact trialSpan_of_flag c ws _ [] List.not_mem_nil
    · rw [trialFrom_quiet (.inr hev), eventsOf, hev]
      exact TrialSpan.append_left (front := [.none]) (by simp) (ih _ hin)
    · simp [hst] at hin
    · simp [hst] at hin

/-- Settles O52: the accumulator holds the bytes since the last flag, and it is empty before the first. -/
theorem trialReturnsTheFirstLongSpan : Obligations.TrialReturnsTheFirstLongSpan := by
  intro c buf o evs
  have h : TrialSpan evs (trial c buf o) := trialSpan_of_outside c _ (demodInit c) rfl
  refine ⟨fun acc hacc => ?_, fun hnone => ?_⟩
  · rw [hacc] at h
    exact h
  · rw [hnone] at h
    exact h

end Sys2Proof.Machine
end

section
/-! PROOFS. `DEMOD_TRIAL` and `DEMODULATE` on held samples in the reference build. -/

open Sys2Proof Sys2Proof.Machine Sys2Proof.Claims

namespace Sys2Proof.Machine

/-! ### The search -/

theorem search_eq_none {c : Config} {buf : List Byte} (h : ∀ o < 8, trial c buf o = none) : search c buf = none := by
  rw [search, List.findSome?_eq_none_iff]
  intro o ho
  rw [h o (List.mem_range.mp ho), Option.map_none]

/-- The search stops at the least offset whose trial finds a frame (44_phase_search.md R205). -/
theorem search_eq_some {c : Config} {buf acc : List Byte} {o : Nat} (ho : o < 8) (hfound : trial c buf o = some acc)
    (hleast : ∀ o' < o, trial c buf o' = none) : search c buf = some (o, acc) := by
  obtain ⟨k, hk⟩ := Nat.exists_eq_add_of_lt ho
  have hsplit : List.range spb = List.range o ++ o :: ((List.range k).map Nat.succ).map (o + ·) := by
    rw [show spb = o + (k + 1) from hk, List.range_add, List.range_succ_eq_map, List.map_cons, Nat.add_zero]
  rw [search, List.findSome?_eq_some_iff]
  refine ⟨_, o, _, hsplit, by rw [hfound, Option.map_some], fun o' ho' => ?_⟩
  rw [hleast o' (List.mem_range.mp ho'), Option.map_none]

/-! ### The commands -/

/-- How a command that found the frame `acc` at the offset `o` ends (44_phase_search.md R206, R207). -/
def Delivers (s : State) (o : Nat) (acc : List Byte) (t : State) : Prop :=
  (s.regs.dstAddr.toNat + acc.length ≤ 4096 →
    ∃ m : Memory, Holds m s.regs.dstAddr.toNat acc ∧ SameOutside s.oct m s.regs.dstAddr.toNat acc.length ∧
      t = { ended s .ok { s.regs with
        resultLen := BitVec.ofNat 32 acc.length, resultAux := BitVec.ofNat 32 o } with oct := m }) ∧
  (4096 < s.regs.dstAddr.toNat + acc.length → t = ended s .rangeError s.regs)

theorem deliverFrame_delivers (s : State) (o : Nat) (acc : List Byte) : Delivers s o acc (deliverFrame ref o acc s) := by
  rcases deliverFrame_cases ref o acc s with ⟨hout, heq⟩ | ⟨hfit, heq⟩ <;> rw [heq]
  · exact ⟨fun hfit => absurd hfit (Nat.not_le.mpr hout), fun _ => rfl⟩
  · exact ⟨fun _ => ⟨_, Memory.read_writeRange_inside _ _ _, Memory.read_writeRange_outside _ _ _, rfl⟩,
      fun hout => absurd hfit (Nat.not_le.mpr hout)⟩

section
variable {s : State} {buf : List Byte} (h : InputAt s .smp buf)
include h

theorem memRead_of_input : s.regs.srcAddr.toNat + s.regs.srcLen.toNat ≤ 65536 ∧
    memRead s .smp s.regs.srcAddr.toNat s.regs.srcLen.toNat = (buf, s) := by
  obtain ⟨hlen, hin, hold⟩ := h
  exact ⟨hlen ▸ hin, memRead_holds hlen hold⟩

/-- What is left of the cases of `DEMOD_TRIAL` for held samples (44_phase_search.md R206). -/
theorem demodTrial_of_input {o : Byte} (ho : o.toNat < 8) :
    (trial ref buf o.toNat = none ∧ demodTrial ref o s = ended s .notFound s.regs) ∨
    (∃ acc, trial ref buf o.toNat = some acc ∧ demodTrial ref o s = deliverFrame ref o.toNat acc s) := by
  obtain ⟨hin, hread⟩ := memRead_of_input h
  rcases demodTrial_cases ref o s with ⟨ho', -⟩ | ⟨-, hout, -⟩ | ⟨buf', s1, -, -, hread', hcases⟩
  · exact absurd ho (Nat.not_lt.mpr ho')
  · exact absurd hin (Nat.not_le.mpr hout)
  · obtain ⟨rfl, rfl⟩ : buf = buf' ∧ s = s1 := Prod.mk.inj (hread.symm.trans hread')
    exact hcases

/-- What is left of the cases of `DEMODULATE` for held samples (44_phase_search.md R207). -/
theorem demodulate_of_input :
    (search ref buf = none ∧ demodulate ref s = ended s .notFound s.regs) ∨
    (∃ o acc, search ref buf = some (o, acc) ∧ demodulate ref s = deliverFrame ref o acc s) := by
  obtain ⟨hin, hread⟩ := memRead_of_input h
  rcases demodulate_cases ref s with ⟨hout, -⟩ | ⟨buf', s1, -, hread', hcases⟩
  · exact absurd hin (Nat.not_le.mpr hout)
  · obtain ⟨rfl, rfl⟩ : buf = buf' ∧ s = s1 := Prod.mk.inj (hread.symm.trans hread')
    exact hcases

theorem demodulate_delivers {o : Nat} {acc : List Byte} (hfound : search ref buf = some (o, acc)) :
    Delivers s o acc (demodulate ref s) := by
  rcases demodulate_of_input h with ⟨hnone, -⟩ | ⟨o', acc', hsome, heq⟩
  · simp [hfound] at hnone
  · obtain ⟨rfl, rfl⟩ : o = o' ∧ acc = acc' := by simpa [hfound] using hsome
    exact heq ▸ deliverFrame_delivers s o acc

end

/-- Settles O50: the frame of the trial is delivered or does not fit. -/
theorem demodTrialDeliversItsFrame : Obligations.DemodTrialDeliversItsFrame := by
  intro s o buf ho h
  rw [exec_eq_perform, perform]
  simp only [Host.Outcome.next.injEq]
  rcases demodTrial_of_input h ho with ⟨hnone, heq⟩ | ⟨acc, hsome, heq⟩
  · simp [hnone, heq]
  · obtain ⟨hfits, hout⟩ := deliverFrame_delivers s o.toNat acc
    rw [heq, hsome]
    refine ⟨?_, ?_, fun hnone => nomatch hnone⟩ <;> rintro _ ⟨⟩
    · exact hfits
    · exact hout

/-- Settles O51: the frame that the search finds is delivered or does not fit. -/
theorem demodulateTakesTheLowestOffset : Obligations.DemodulateTakesTheLowestOffset := by
  intro s buf h
  rw [exec_eq_perform, perform]
  simp only [Host.Outcome.next.injEq]
  refine ⟨fun o acc ho hfound hleast => demodulate_delivers h (search_eq_some ho hfound hleast), fun hnone => ?_⟩
  rcases demodulate_of_input h with ⟨-, heq⟩ | ⟨o, acc, hsome, -⟩
  · exact heq
  · simp [search_eq_none hnone] at hsome

end Sys2Proof.Machine
end

section
/-! PROOFS. The modem round trip: a trial on a modulation, line bit by line bit (44_phase_search.md R208, R209). -/

open Sys2Proof Sys2Proof.Machine Sys2Proof.Claims

namespace Sys2Proof.Machine

/-! ### A trial as a run over line bits -/

/-- The discriminator decides the tone that the modulator sent (42_discriminator.md R167). -/
theorem toneOfScore_bitPattern (tone : Tone) : toneOfScore (disc ref (bitPattern tone)) = tone := by
  cases tone <;> decide

/-- The step on the window of one line bit, sent from the tone of the bit before. -/
def bitStep (st : DemodState) (bit : Bool) : StepResult := demodTone ref st (nrziTone st.prev bit)

/-- The trial from a demodulator state on, over the samples of line bits sent from the tone of the bit before. -/
def trialOfBits (st : DemodState) (acc : List Byte) (bits : List Bool) : Option (List Byte) :=
  trialFrom ref st acc (windows (synthesize ref st.prev 0 bits))

/-- The tone of a bit, read against the tone before it, gives the bit back (43_demodulator.md R176). -/
theorem nrziTone_eq_iff (tone : Tone) (bit : Bool) : decide (nrziTone tone bit = tone) = bit := by
  cases tone <;> cases bit <;> rfl

theorem dstep_bitPattern (st : DemodState) (bit : Bool) :
    dstep ref st (bitPattern (nrziTone st.prev bit)) = bitStep st bit := by
  rw [dstep, toneOfScore_bitPattern, bitStep]

/-- Each line bit is one window of the trial (41_modulator.md R139). -/
theorem trialOfBits_cons (st : DemodState) (acc : List Byte) (bit : Bool) (bits : List Bool) :
    trialOfBits st acc (bit :: bits) = trialFrom ref st acc
      (bitPattern (nrziTone st.prev bit) :: windows (synthesize ref (bitStep st bit).st.prev 0 bits)) := by
  rw [trialOfBits, synthesize_ref_cons, windows_append (bitPattern_length _), bitStep, demodTone_prev]

section
variable {st : DemodState} {bit : Bool} (acc : List Byte) (bits : List Bool)

theorem trialOfBits_flag (h : (bitStep st bit).event = .flag) : trialOfBits st acc (bit :: bits) =
    if 16 ≤ acc.length then some acc else trialOfBits (bitStep st bit).st [] bits := by
  rw [← dstep_bitPattern] at h
  rw [trialOfBits_cons, trialFrom_flag h, dstep_bitPattern, trialOfBits]

theorem trialOfBits_byte {v : Byte} (h : (bitStep st bit).event = .byte v) :
    trialOfBits st acc (bit :: bits) = trialOfBits (bitStep st bit).st (acc ++ [v]) bits := by
  rw [← dstep_bitPattern] at h
  rw [trialOfBits_cons, trialFrom_byte h, dstep_bitPattern, trialOfBits]

theorem trialOfBits_quiet (h : (bitStep st bit).event = .skip ∨ (bitStep st bit).event = .none) :
    trialOfBits st acc (bit :: bits) = trialOfBits (bitStep st bit).st acc bits := by
  rw [← dstep_bitPattern] at h
  rw [trialOfBits_cons, trialFrom_quiet h, dstep_bitPattern, trialOfBits]

end

/-! ### The bits in the shift register -/

/-- The register after bits were shifted into a cleared one (43_demodulator.md R177). -/
def shiftedBits (bits : List Bool) : Byte := bits.foldl shiftIn 0#8

theorem shiftedBits_concat (bits : List Bool) (bit : Bool) :
    shiftedBits (bits ++ [bit]) = shiftIn (shiftedBits bits) bit := by
  rw [shiftedBits, List.foldl_append]
  rfl

theorem getLsbD_shiftIn (sreg : Byte) (bit : Bool) {i : Nat} (hi : i < 8) :
    (shiftIn sreg bit).getLsbD i = if i = 7 then bit else sreg.getLsbD (i + 1) := by
  cases bit <;> interval_cases i <;> simp [shiftIn]

/-- The last of up to eight shifted bits is at the top, and what they do not reach is clear. -/
theorem getLsbD_shiftedBits (bits : List Bool) {i : Nat} (hi : i < 8) (hlen : bits.length ≤ 8) :
    (shiftedBits bits).getLsbD i = (decide (8 ≤ i + bits.length) && bits.getD (i + bits.length - 8) false) := by
  induction bits using List.reverseRecOn generalizing i with
  | nil => simp [shiftedBits]
  | append_singleton bits bit ih =>
    rw [List.length_append, List.length_singleton] at hlen ⊢
    rw [shiftedBits_concat, getLsbD_shiftIn _ _ hi]
    split_ifs with htop
    · subst htop
      rw [show 7 + (bits.length + 1) - 8 = bits.length by omega, decide_eq_true (by omega)]
      simp
    · rw [ih (by omega) (by omega), Nat.add_assoc, Nat.add_comm 1]
      by_cases hreach : 8 ≤ i + (bits.length + 1)
      · rw [List.getD_append _ _ _ _ (by omega)]
      · simp [hreach]

/-- Eight shifts of a byte's bits in wire order give the byte (43_demodulator.md R177). -/
theorem shiftedBits_byteBits (b : Byte) : shiftedBits (byteBits b) = b := by
  refine BitVec.eq_of_getLsbD_eq fun i hi => ?_
  rw [getLsbD_shiftedBits _ hi (byteBits_length b).le, byteBits_length]
  simp [byteBits, hi]

/-- The left shift of a stuffed bit's step undoes the shift of its 0 (43_demodulator.md R181). -/
theorem shiftIn_false_shiftLeft {sreg : Byte} (h : sreg.getLsbD 0 = false) : shiftIn sreg false <<< 1 = sreg := by
  refine BitVec.eq_of_getLsbD_eq fun i hi => ?_
  cases i with
  | zero => simpa using h.symm
  | succ i => simp [shiftIn, hi, Nat.add_comm 1]

/-! ### The data of a frame -/

/-- The demodulator in the data of a frame, `ones` 1 bits since the last 0 and the bits `pend` of a byte begun. With
`guarded` no flag is seen: since the last stuffed bit there were only 1s, which the escape window outlasts, or the 1s on
top of the register are those of the run (43_demodulator.md R179, R188). -/
structure InData (st : DemodState) (ones : Nat) (pend : List Bool) : Prop where
  inFrame : st.inFrame = true
  run     : st.run = ones
  phase   : st.bitPhase = (pend.length + 1) % 8
  sreg    : st.sreg = shiftedBits pend
  esc     : st.esc ≤ 6
  guarded : st.esc + ones = 6 ∨ st.sreg.getLsbD (7 - ones) = false

/-- No data bit and no stuffed bit is taken for the end of a flag (43_demodulator.md R188). -/
theorem InData.no_flag {st : DemodState} {ones : Nat} {pend : List Bool} (h : InData st ones pend) (hones : ones ≤ 5)
    (bit : Bool) : ¬ (st.esc = 0 ∧ shiftIn st.sreg bit = flagByte) := by
  rintro ⟨hesc, hflag⟩
  rcases h.guarded with hg | hg
  · omega
  · have htop := getLsbD_shiftIn st.sreg bit (i := 6 - ones) (by omega)
    have hset : ∀ k ≤ 5, flagByte.getLsbD (6 - k) = true := by decide
    rw [if_neg (by omega), show 6 - ones + 1 = 7 - ones by omega, hg, hflag, hset ones hones] at htop
    cases htop

/-- What a data bit completes: the byte it ends, if any, and the bits of the byte then begun. -/
def pushBit (pend : List Bool) (bit : Bool) : List Byte × List Bool :=
  if pend.length = 7 then ([shiftedBits (pend ++ [bit])], []) else ([], pend ++ [bit])

theorem dataBits_cons (b : Byte) (octets : List Byte) : dataBits (b :: octets) = byteBits b ++ dataBits octets := rfl

/-- The bytes that a data bit completes are the first of the octets sent. -/
theorem pushBit_spec {pend bits : List Bool} {bit : Bool} {octets : List Byte} (hlen : pend.length < 8)
    (h : pend ++ bit :: bits = dataBits octets) : ∃ octets', octets = (pushBit pend bit).1 ++ octets' ∧
      (pushBit pend bit).2 ++ bits = dataBits octets' ∧ (pushBit pend bit).2.length < 8 := by
  by_cases hwhole : pend.length = 7
  · rw [pushBit, if_pos hwhole]
    cases octets with
    | nil => simp [dataBits] at h
    | cons b octets =>
      rw [dataBits_cons, List.append_cons] at h
      obtain ⟨hb, hrest⟩ := List.append_inj h (by simp [hwhole])
      exact ⟨octets, by rw [hb, shiftedBits_byteBits, List.singleton_append], hrest, Nat.zero_lt_succ 7⟩
  · rw [pushBit, if_neg hwhole]
    exact ⟨octets, rfl, by rw [List.append_assoc, List.singleton_append, h], by
      rw [List.length_append, List.length_singleton]; omega⟩

/-- A data bit keeps the guard: a 0 is clear at the top, and a 1 lengthens the run and shortens the escape window. -/
theorem InData.guarded_shiftIn {st : DemodState} {ones : Nat} {pend : List Bool} (h : InData st ones pend)
    (hones : ones < 5) (bit : Bool) : st.esc - 1 + (if bit then ones + 1 else 0) = 6 ∨
      (shiftIn st.sreg bit).getLsbD (7 - if bit then ones + 1 else 0) = false := by
  cases bit with
  | false => exact .inr (getLsbD_shiftIn _ _ (Nat.lt_succ_self 7))
  | true =>
    rcases h.guarded with hg | hg
    · exact .inl (by rw [if_pos rfl]; omega)
    · refine .inr ?_
      rw [if_pos rfl, getLsbD_shiftIn _ _ (by omega), if_neg (by omega), show 7 - (ones + 1) + 1 = 7 - ones by omega, hg]

section
variable {st : DemodState} {ones : Nat} {pend : List Bool} (h : InData st ones pend) (hpend : pend.length < 8)
include h hpend

/-- A data bit in a frame (43_demodulator.md R182, R183). -/
theorem InData.data (hones : ones < 5) (bit : Bool) :
    ∃ st', InData st' (if bit then ones + 1 else 0) (pushBit pend bit).2 ∧ ∀ acc rest,
      trialOfBits st acc (bit :: rest) = trialOfBits st' (acc ++ (pushBit pend bit).1) rest := by
  have hflag := h.no_flag hones.le bit
  have hguard := h.guarded_shiftIn hones bit
  obtain ⟨hin, hrun, hph, hsreg, hesc, -⟩ := h
  have hesc' : st.esc - 1 ≤ 6 := Nat.le_trans (Nat.sub_le _ _) hesc
  have hrun' : (if bit then min (st.run + 1) ref.runMax else 0) = if bit then ones + 1 else 0 := by
    rw [hrun, Nat.min_eq_left (show ones + 1 ≤ ref.runMax from Nat.le_trans hones (by decide))]
  have hph' := succ_sub_toNat_mod_eight st.bitidx st.start
  rw [← DemodState.bitPhase, hph] at hph'
  by_cases hlast : pend.length = 7
  · have hwhole : st.bitPhase = 0 := by rw [hph, hlast]
    have hstep : bitStep st bit = _ := demodTone_data (nrziTone_eq_iff _ _) hflag ref hin (fun hc => by omega)
      (decide_eq_true hwhole)
    rw [pushBit, if_pos hlast, shiftedBits_concat, ← hsreg]
    refine ⟨(bitStep st bit).st, ?_, fun acc rest => trialOfBits_byte _ _ (by rw [hstep]; rfl)⟩
    rw [hstep]
    exact ⟨rfl, hrun', hph'.trans (by rw [hlast]; rfl), rfl, hesc', .inr BitVec.getLsbD_zero⟩
  · have hpart : st.bitPhase ≠ 0 := by omega
    have hstep : bitStep st bit = _ := demodTone_data (nrziTone_eq_iff _ _) hflag ref hin (fun hc => by omega)
      (decide_eq_false hpart)
    rw [pushBit, if_neg hlast]
    refine ⟨(bitStep st bit).st, ?_, fun acc rest => ?_⟩
    · rw [hstep]
      refine ⟨rfl, hrun', hph'.trans ?_, ?_, hesc', hguard⟩
      · rw [List.length_append, List.length_singleton]; omega
      · rw [shiftedBits_concat, ← hsreg]; rfl
    · rw [trialOfBits_quiet _ _ (.inr (by rw [hstep]; rfl)), List.append_nil]

/-- A stuffed bit in a frame (43_demodulator.md R181). -/
theorem InData.stuffed (hones : ones = 5) :
    ∃ st', InData st' 0 pend ∧ ∀ acc rest, trialOfBits st acc (false :: rest) = trialOfBits st' acc rest := by
  have hflag := h.no_flag hones.le false
  obtain ⟨hin, hrun, hph, hsreg, -, -⟩ := h
  have hbottom : st.sreg.getLsbD 0 = false := by
    rw [hsreg, getLsbD_shiftedBits _ (by decide) hpend.le, decide_eq_false (by omega), Bool.false_and]
  have hbit := nrziTone_eq_iff st.prev false
  have hstep : bitStep st false = _ := demodTone_stuffed (by rwa [hbit]) hin hbit (hrun.trans hones)
  refine ⟨(bitStep st false).st, ?_, fun acc rest => trialOfBits_quiet _ _ (.inl (by rw [hstep]))⟩
  rw [hstep]
  refine ⟨hin, rfl, ?_, (shiftIn_false_shiftLeft hbottom).trans hsreg, Nat.le_refl 6, .inl rfl⟩
  rw [← hph, DemodState.bitPhase, DemodState.bitPhase, add_sub_add_right_eq_sub]

end

/-- The stuffed data of whole octets: their bytes join the accumulator, and no flag is seen (43_demodulator.md R188). -/
theorem trialOfBits_stuffBits (bits : List Bool) : ∀ {st ones pend octets}, InData st ones pend → ones < 5 →
    pend.length < 8 → pend ++ bits = dataBits octets → ∃ st' ones', InData st' ones' [] ∧ ones' < 5 ∧
      ∀ acc rest, trialOfBits st acc (stuffBits ones bits ++ rest) = trialOfBits st' (acc ++ octets) rest := by
  induction bits with
  | nil =>
    intro st ones pend octets h hones hpend hoctets
    have hlen := congrArg List.length hoctets
    rw [List.append_nil, dataBits_length] at hlen
    obtain rfl : octets = [] := List.eq_nil_of_length_eq_zero (by omega)
    obtain rfl : pend = [] := List.eq_nil_of_length_eq_zero hlen
    exact ⟨st, ones, h, hones, fun acc rest => by rw [stuffBits, List.nil_append, List.append_nil]⟩
  | cons bit bits ih =>
    intro st ones pend octets h hones hpend hoctets
    obtain ⟨octets', rfl, hrest, hpend'⟩ := pushBit_spec hpend hoctets
    obtain ⟨st1, h1, hrun1⟩ := h.data hpend hones bit
    have hnext : ∀ {st2 ones2}, InData st2 ones2 (pushBit pend bit).2 → ones2 < 5 →
        (∀ acc rest, trialOfBits st acc (stuffBits ones (bit :: bits) ++ rest) =
          trialOfBits st2 (acc ++ (pushBit pend bit).1) (stuffBits ones2 bits ++ rest)) →
        ∃ st' ones', InData st' ones' [] ∧ ones' < 5 ∧ ∀ acc rest,
          trialOfBits st acc (stuffBits ones (bit :: bits) ++ rest) =
            trialOfBits st' (acc ++ ((pushBit pend bit).1 ++ octets')) rest := fun h2 hones2 hrun2 => by
      obtain ⟨st', ones', h', hones', hrun'⟩ := ih h2 hones2 hpend' hrest
      exact ⟨st', ones', h', hones', fun acc rest => by rw [hrun2, hrun', List.append_assoc]⟩
    cases bit with
    | false => exact hnext h1 (Nat.zero_lt_succ 4) fun acc rest => by rw [stuffBits_false, List.cons_append, hrun1]; rfl
    | true =>
      rw [if_pos rfl] at h1
      rcases Nat.lt_succ_iff_lt_or_eq.mp hones with h4 | rfl
      · exact hnext h1 (by omega) fun acc rest => by rw [stuffBits_one h4, List.cons_append, hrun1]
      · obtain ⟨st2, h2, hrun2⟩ := h1.stuffed hpend' rfl
        exact hnext h2 (by decide) fun acc rest => by
          rw [stuffBits_fifth_one, List.cons_append, List.cons_append, hrun1, hrun2]

/-! ### A flag after the data -/

/-- The demodulator in a frame after the first `n` bits of a flag that follows whole octets. A 0 after five 1s would be
taken for a stuffed bit, and the flag's first bit is not one (43_demodulator.md R181). -/
structure InFlag (st : DemodState) (n : Nat) : Prop where
  inFrame : st.inFrame = true
  run     : n = 0 → st.run < 5
  phase   : st.bitPhase = (n + 1) % 8
  sreg    : st.sreg = shiftedBits (flagBits.take n)
  esc     : st.esc ≤ 6 - n

theorem InFlag.succ {st : DemodState} {n : Nat} (h : InFlag st n) (hn : n < 7) :
    ∃ st', InFlag st' (n + 1) ∧ ∀ acc rest,
      trialOfBits st acc (flagBits.drop n ++ rest) = trialOfBits st' acc (flagBits.drop (n + 1) ++ rest) := by
  obtain ⟨hin, hrun, hph, hsreg, hesc⟩ := h
  have hlt : n < flagBits.length := Nat.lt_succ_of_lt hn
  have hshift : shiftIn st.sreg flagBits[n] = shiftedBits (flagBits.take (n + 1)) := by
    rw [hsreg, ← shiftedBits_concat, List.take_append_getElem]
  have hearly : ∀ n < 7, shiftedBits (flagBits.take (n + 1)) ≠ flagByte := by decide
  have hfirst : ∀ n, (hn : n < 7) → flagBits[n]'(Nat.lt_succ_of_lt hn) = false → n = 0 := by decide
  have hstep : bitStep st flagBits[n] = _ := demodTone_data (whole := false) (nrziTone_eq_iff _ _)
    (fun hc => hearly n hn (hshift ▸ hc.2)) ref hin
    (fun hc => by have := hrun (hfirst n hn hc.1); omega) (decide_eq_false (by rw [← DemodState.bitPhase, hph]; omega))
  refine ⟨(bitStep st flagBits[n]).st, ?_, fun acc rest => ?_⟩
  · rw [hstep]
    refine ⟨rfl, fun hc => by omega, ?_, hshift, by simp only; omega⟩
    rw [DemodState.bitPhase, succ_sub_toNat_mod_eight, ← DemodState.bitPhase, hph]
    omega
  · rw [← List.cons_getElem_drop_succ (h := hlt), List.cons_append, trialOfBits_quiet _ _ (.inr (by rw [hstep]; rfl))]

theorem InFlag.advance {st : DemodState} (h : InFlag st 0) (n : Nat) (hn : n ≤ 7) : ∃ st', InFlag st' n ∧
    ∀ acc rest, trialOfBits st acc (flagBits ++ rest) = trialOfBits st' acc (flagBits.drop n ++ rest) := by
  induction n with
  | zero => exact ⟨st, h, fun _ _ => rfl⟩
  | succ n ih =>
    obtain ⟨st1, h1, hrun1⟩ := ih (Nat.le_of_succ_le hn)
    obtain ⟨st2, h2, hrun2⟩ := h1.succ hn
    exact ⟨st2, h2, fun acc rest => (hrun1 acc rest).trans (hrun2 acc rest)⟩

/-- After a flag the demodulator is in the data of a frame, at its first bit (43_demodulator.md R180). -/
theorem bitStep_of_flag {st : DemodState} {bit : Bool} (hesc : st.esc = 0) (hsreg : shiftIn st.sreg bit = flagByte) :
    (bitStep st bit).event = .flag ∧ InData (bitStep st bit).st 0 [] := by
  rw [bitStep, demodTone_flag (nrziTone_eq_iff _ _) ref ⟨hesc, hsreg⟩]
  refine ⟨rfl, rfl, rfl, ?_, rfl, Nat.zero_le 6, .inr BitVec.getLsbD_zero⟩
  simp [DemodState.bitPhase]

section
variable {st : DemodState} {ones : Nat}

/-- A flag after whole octets ends the trial or starts the next frame (43_demodulator.md R188). -/
theorem InData.flag (h : InData st ones []) (hones : ones < 5) : ∃ st', InData st' 0 [] ∧ ∀ acc rest,
    trialOfBits st acc (flagBits ++ rest) = if 16 ≤ acc.length then some acc else trialOfBits st' [] rest := by
  obtain ⟨hin, hrun, hph, hsreg, hesc, -⟩ := h
  have hbegin : InFlag st 0 := ⟨hin, fun _ => hrun ▸ hones, hph, hsreg, hesc⟩
  obtain ⟨st1, h1, hrun1⟩ := hbegin.advance 7 (Nat.le_refl 7)
  obtain ⟨hev, hdata⟩ := bitStep_of_flag (bit := false) (Nat.le_zero.mp h1.esc) (by rw [h1.sreg]; decide)
  exact ⟨_, hdata, fun acc rest => (hrun1 acc rest).trans (trialOfBits_flag acc rest hev)⟩

/-- Flags in a row close no bytes (44_phase_search.md R203). -/
theorem InData.markers (k : Nat) (h : InData st 0 []) : ∃ st', InData st' 0 [] ∧ ∀ rest,
    trialOfBits st [] (markerBits flagByte k ++ rest) = trialOfBits st' [] rest := by
  induction k generalizing st with
  | zero => exact ⟨st, h, fun _ => rfl⟩
  | succ k ih =>
    obtain ⟨st1, h1, hrun1⟩ := h.flag (by decide)
    obtain ⟨st2, h2, hrun2⟩ := ih h1
    exact ⟨st2, h2, fun rest => by
      rw [markerBits_flag_succ, List.append_assoc, hrun1, if_neg (by decide), hrun2]⟩

end

/-! ### The idle byte and the first flag -/

/-- The demodulator after bits on which it emits nothing; none if it emits something. -/
def quietRun : DemodState → List Bool → Option DemodState
  | st, []          => some st
  | st, bit :: bits => if (bitStep st bit).event = .none then quietRun (bitStep st bit).st bits else none

theorem trialOfBits_quietRun {front : List Bool} (acc : List Byte) (rest : List Bool) : ∀ {st st'},
    quietRun st front = some st' → trialOfBits st acc (front ++ rest) = trialOfBits st' acc rest := by
  induction front with
  | nil => rintro st _ ⟨⟩; rfl
  | cons bit front ih =>
    intro st st' h
    by_cases hev : (bitStep st bit).event = .none
    · rw [quietRun, if_pos hev] at h
      rw [List.cons_append, trialOfBits_quiet _ _ (.inr hev), ih h]
    · simp [quietRun, hev] at h

/-- A fresh demodulator emits nothing on the bits `idle` and sees a first flag after them. -/
def SyncsAfter (idle : List Bool) : Prop := ∃ st, quietRun (demodInit ref) (idle ++ flagBits.take 7) = some st ∧
  st.esc = 0 ∧ shiftIn st.sreg false = flagByte

theorem syncsAfter_idle : SyncsAfter (List.replicate 8 false) := ⟨_, rfl, rfl, by decide⟩

/-- The idle byte without its first bit: its second is read as a 1, against the tone of a fresh demodulator
(44_phase_search.md R209). -/
theorem syncsAfter_cut_idle : SyncsAfter (true :: List.replicate 6 false) := ⟨_, rfl, rfl, by decide⟩

/-! ### The whole modulation -/

/-- After the idle byte, or what is left of it, the trial returns the frame (44_phase_search.md R208, R209). -/
theorem trialOfBits_frame {idle : List Bool} (hsync : SyncsAfter idle) {f : List Byte} {nb ne : Nat}
    (hf : 16 ≤ f.length) (hnb : 1 ≤ nb) (hne : 1 ≤ ne) : trialOfBits (demodInit ref) []
      (idle ++ (markerBits flagByte nb ++ (stuffBits 0 (dataBits f) ++ markerBits flagByte ne))) = some f := by
  obtain ⟨nb, rfl⟩ := Nat.exists_eq_add_of_le' hnb
  obtain ⟨ne, rfl⟩ := Nat.exists_eq_add_of_le' hne
  obtain ⟨st, hquiet, hesc, hsreg⟩ := hsync
  obtain ⟨hev, h1⟩ := bitStep_of_flag hesc hsreg
  obtain ⟨st2, h2, hmarkers⟩ := h1.markers nb
  obtain ⟨st3, ones, h3, hones, hdata⟩ := trialOfBits_stuffBits (dataBits f) h2 (by decide) (by decide) rfl
  obtain ⟨st4, -, hend⟩ := h3.flag hones
  have hfirst : ∀ rest, idle ++ (flagBits ++ rest) = idle ++ flagBits.take 7 ++ (false :: rest) := fun rest => by
    rw [List.append_assoc]; rfl
  calc trialOfBits (demodInit ref) [] _
      = trialOfBits st [] (false :: (markerBits flagByte nb ++ _)) := by
        rw [markerBits_flag_succ, List.append_assoc, hfirst, trialOfBits_quietRun _ _ hquiet]
    _ = trialOfBits st2 [] (stuffBits 0 (dataBits f) ++ markerBits flagByte (ne + 1)) := by
        rw [trialOfBits_flag _ _ hev, if_neg (by decide), hmarkers]
    _ = some f := by rw [hdata, List.nil_append, markerBits_flag_succ, hend, if_pos hf]

/-- The trial at offset 0 returns the frame (44_phase_search.md R208). -/
theorem trial_synthesize_lineBits {f : List Byte} {nb ne : Nat} (hf : 16 ≤ f.length) (hnb : 1 ≤ nb) (hne : 1 ≤ ne) :
    trial ref (synthesize ref .low 0 (lineBits ref f nb ne)) 0 = some f := by
  rw [lineBits_ref]
  exact trialOfBits_frame syncsAfter_idle hf hnb hne

/-- Settles O56: the cut and the offset drop the idle byte's first bit, and the rest of it, read by a fresh demodulator,
holds no flag. -/
theorem alignedTrialSurvivesTruncation : Obligations.AlignedTrialSurvivesTruncation := by
  intro f nb ne k hf hnb hne hk hk7
  have hcut : ∀ rest, (synthesize ref .low 0 (List.replicate 8 false ++ rest)).drop 8 =
      synthesize ref .low 0 (true :: List.replicate 6 false ++ rest) := fun rest => by
    rw [List.replicate_succ, List.replicate_succ, List.cons_append, List.cons_append, synthesize_ref_cons,
      List.drop_left' (bitPattern_length _), synthesize_ref_cons, List.cons_append, synthesize_ref_cons]
    rfl
  rw [trial, List.drop_drop, Nat.add_sub_cancel' (by omega), lineBits_ref, hcut]
  exact trialOfBits_frame syncsAfter_cut_idle hf hnb hne

/-- `DEMODULATE` of a held modulation, to where the frame fits (44_phase_search.md R208). -/
theorem demodulate_modulation {s : State} {f : List Byte} {nb ne : Nat} (hf : 16 ≤ f.length) (hnb : 1 ≤ nb)
    (hne : 1 ≤ ne) (h : InputAt s .smp (synthesize ref .low 0 (lineBits ref f nb ne)))
    (hfit : s.regs.dstAddr.toNat + f.length ≤ 4096) :
    (demodulate ref s).regs.err = .ok ∧ (demodulate ref s).regs.resultLen.toNat = f.length ∧
      (demodulate ref s).regs.resultAux = 0#32 ∧ Holds (demodulate ref s).oct s.regs.dstAddr.toNat f := by
  have hsearch := search_eq_some (Nat.zero_lt_succ 7) (trial_synthesize_lineBits hf hnb hne)
    fun _ ho => absurd ho (Nat.not_lt_zero _)
  obtain ⟨m, hm, -, hend⟩ := (demodulate_delivers h hsearch).1 hfit
  rw [hend]
  exact ⟨rfl, Nat.mod_eq_of_lt (by omega), rfl, hm⟩

/-- Settles O55: `MODULATE` leaves the samples of the line bits, whose trial at offset 0 returns the frame, and no offset
is lower. -/
theorem modemRoundTrip : Obligations.ModemRoundTrip := by
  rintro s nb ne f d ⟨hlen, hin, hold⟩ hf hnb hne hfit hd
  rcases perform_modulate_cases (c := ref) (nb := nb) (ne := ne) hlen hin hold with ⟨hout, -⟩ | ⟨-, len, draws, hlen', ht⟩
  · exact absurd hfit (Nat.not_le.mpr hout)
  · obtain ⟨rfl, -⟩ := hlen' (by omega)
    refine ⟨_, _, (exec_eq_perform _ _).trans (congrArg _ ht), exec_eq_perform _ _,
      demodulate_modulation hf hnb hne ⟨?_, ?_, Memory.read_writeRange_inside _ _ _⟩ hd⟩
    · rw [synthesize_length]
      exact (Nat.mod_eq_of_lt (show 8 * _ < 2 ^ 32 by omega)).symm
    · rw [synthesize_length]
      exact hfit

end Sys2Proof.Machine
end

section
/-! PROOFS. The CRC of 45_frame_codec.md R225: the byte-wise update against the bit-serial register, and its residue. -/

open Sys2Proof Sys2Proof.Machine Sys2Proof.Claims

namespace Sys2Proof.Machine

/-! ### The byte-wise update -/

/-- The high byte of the register only moves down; the table entry depends on the low byte and the data alone. -/
theorem crcUpdate_eq_shift_xor (crc : BitVec 16) (d : Byte) :
    crcUpdate crc d = crc >>> 8 ^^^ crcUpdate 0#16 (d ^^^ crc.setWidth 8) := by
  refine BitVec.eq_of_getLsbD_eq fun i hi => ?_
  unfold crcUpdate
  interval_cases i <;> simp

/-! ### The bit-serial register -/

theorem getLsbD_serialBit (crc : BitVec 16) (i : Nat) :
    (serialBit crc).getLsbD i = (crc.getLsbD (i + 1) ^^ (crc.getLsbD 0 && (0x8408#16).getLsbD i)) := by
  rw [serialBit, Nat.add_comm i 1]
  cases crc.getLsbD 0 <;> simp

theorem serialBit_xor (a b : BitVec 16) : serialBit (a ^^^ b) = serialBit a ^^^ serialBit b := by
  refine BitVec.eq_of_getLsbD_eq fun i _ => ?_
  simp only [getLsbD_serialBit, BitVec.getLsbD_xor, Bool.and_xor_distrib_right, Bool.xor_assoc,
    Bool.xor_left_comm]

theorem serialBit_iterate_xor (a b : BitVec 16) (n : Nat) :
    serialBit^[n] (a ^^^ b) = serialBit^[n] a ^^^ serialBit^[n] b := by
  induction n generalizing a b with
  | zero => rfl
  | succ n ih => simp only [Function.iterate_succ_apply, serialBit_xor, ih]

/-- While the bits shifted out are 0 the polynomial never comes in. -/
theorem serialBit_iterate_eq_shift (n : Nat) : ∀ v : BitVec 16, (∀ i < n, v.getLsbD i = false) →
    serialBit^[n] v = v >>> n := by
  induction n with
  | zero => exact fun v _ => (BitVec.ushiftRight_zero v).symm
  | succ n ih =>
    intro v hv
    have hbit : serialBit v = v >>> 1 := by rw [serialBit, hv 0 n.succ_pos]; rfl
    have hrest : ∀ i < n, (v >>> 1).getLsbD i = false := fun i hi => by
      rw [BitVec.getLsbD_ushiftRight]
      exact hv _ (by omega)
    rw [Function.iterate_succ_apply, hbit, ih _ hrest, ← BitVec.shiftRight_add, Nat.add_comm]

theorem serialUpdate_eq_iterate (crc : BitVec 16) (d : Byte) :
    serialUpdate crc d = serialBit^[8] (crc ^^^ d.setWidth 16) := rfl

theorem serialUpdate_eq_shift_xor (crc : BitVec 16) (d : Byte) :
    serialUpdate crc d = crc >>> 8 ^^^ serialUpdate 0#16 (d ^^^ crc.setWidth 8) := by
  have hsplit : crc ^^^ d.setWidth 16 = (crc >>> 8) <<< 8 ^^^ (0#16 ^^^ (d ^^^ crc.setWidth 8).setWidth 16) := by
    refine BitVec.eq_of_getLsbD_eq fun i hi => ?_
    interval_cases i <;> simp [Bool.xor_comm]
  have hhigh : serialBit^[8] ((crc >>> 8) <<< 8) = crc >>> 8 := by
    rw [serialBit_iterate_eq_shift 8 _ fun i hi => by simp [hi]]
    refine BitVec.eq_of_getLsbD_eq fun i hi => ?_
    interval_cases i <;> simp
  rw [serialUpdate_eq_iterate, hsplit, serialBit_iterate_xor, hhigh, serialUpdate_eq_iterate]

/-! ### The two forms -/

theorem crcUpdate_zero_eq_serialUpdate : ∀ d : Byte, crcUpdate 0#16 d = serialUpdate 0#16 d := by decide

theorem crcUpdate_eq_serialUpdate (crc : BitVec 16) (d : Byte) : crcUpdate crc d = serialUpdate crc d := by
  rw [crcUpdate_eq_shift_xor, serialUpdate_eq_shift_xor, crcUpdate_zero_eq_serialUpdate]

theorem crc16_eq_not (bs : List Byte) : crc16 bs = ~~~(bs.foldl crcUpdate 0xFFFF#16) := BitVec.xor_allOnes

/-- Settles O37: the two updates agree on every register and byte. -/
theorem crcIsTheReflectedSerialCrc : Obligations.CrcIsTheReflectedSerialCrc := fun bs => by
  rw [crc16_eq_not, funext₂ crcUpdate_eq_serialUpdate]

/-! ### The residue -/

/-- The trailer's two bytes leave in the register a value that no longer depends on the register. -/
theorem crcUpdate_trailer (v : BitVec 16) :
    crcUpdate (crcUpdate v ((~~~v).extractLsb' 0 8)) ((~~~v).extractLsb' 8 8) = 0xF0B8#16 := by
  have hlow : (~~~v).extractLsb' 0 8 ^^^ v.setWidth 8 = 0xFF#8 := by
    refine BitVec.eq_of_getLsbD_eq fun i hi => ?_
    interval_cases i <;> simp
  have hhigh : ∀ k : BitVec 16, (~~~v).extractLsb' 8 8 ^^^ (v >>> 8 ^^^ k).setWidth 8 = 0xFF#8 ^^^ k.setWidth 8 := by
    intro k
    refine BitVec.eq_of_getLsbD_eq fun i hi => ?_
    interval_cases i <;> simp
  have hgone : ∀ k : BitVec 16, (v >>> 8 ^^^ k) >>> 8 = k >>> 8 := by
    intro k
    refine BitVec.eq_of_getLsbD_eq fun i hi => ?_
    interval_cases i <;> simp
  rw [crcUpdate_eq_shift_xor v, hlow, crcUpdate_eq_shift_xor, hhigh, hgone]
  decide

/-- Settles O38: the register after the trailer is a constant. -/
theorem crcOfAFrameIsTheResidue : Obligations.CrcOfAFrameIsTheResidue := fun bs => by
  rw [crc16_eq_not, List.foldl_append, List.foldl_cons, List.foldl_cons, List.foldl_nil, crc16_eq_not,
    crcUpdate_trailer]
  rfl

end Sys2Proof.Machine
end

section
/-! PROOFS. `CRC16`, `ENCODE_FRAME` and `DECODE_FRAME` in the reference build (45_frame_codec.md). -/

open Sys2Proof Sys2Proof.Machine Sys2Proof.Claims

namespace Sys2Proof.Machine

theorem memRead_of_inputAt {s : State} {sp : Space} {bs : List Byte} (h : InputAt s sp bs) :
    s.regs.srcAddr.toNat + s.regs.srcLen.toNat ≤ bytesIn sp ∧
      memRead s sp s.regs.srcAddr.toNat s.regs.srcLen.toNat = (bs, s) := by
  obtain ⟨hlen, hin, hold⟩ := h
  exact ⟨hlen ▸ hin, memRead_holds hlen hold⟩

/-! ### `CRC16` -/

/-- Settles O36: the held range leaves one case of `CRC16`. -/
theorem crcCommandGivesTheCrc : Obligations.CrcCommandGivesTheCrc := by
  intro s bs h
  obtain ⟨hin, hread⟩ := memRead_of_inputAt h
  rcases crcCommand_cases ref s with ⟨hout, -⟩ | ⟨bs', s1, -, hread', heq⟩
  · exact absurd hin (Nat.not_le.mpr hout)
  · obtain ⟨rfl, rfl⟩ : bs = bs' ∧ s = s1 := Prod.mk.inj (hread.symm.trans hread')
    rw [exec_eq_perform, perform, heq, setWidth_thirtyTwo]
    rfl

/-! ### `ENCODE_FRAME` -/

theorem encodedBodyIn_ref (g : Regs) (p : List Byte) : encodedBodyIn ref g p = encodedBody g p := by
  have hssid : ∀ v : BitVec 4,
      ((0x30#8 ||| (0#4 ++ v : Byte)) <<< 1) ||| 1#8 = 0x61#8 ||| ((0#4 ++ v : Byte) <<< 1) := by decide
  simp only [encodedBodyIn, encodedBody, Config.reference, hssid]
  rfl

/-- Settles O31: the claim in every legal build, for the reference build. -/
theorem encodeFrameBuildsTheFrame : Obligations.EncodeFrameBuildsTheFrame := by
  rintro s p ⟨hlen, hin, hold⟩ hcall hfit hapart
  have hexec := perform_encodeFrame_of_holds reference_legal hlen hin hold hcall hfit
    (hapart.imp_left List.length_eq_zero_iff.mpr)
  have hframe := length_withCrc_encodedBodyIn reference_legal s.regs p
  rw [encodedBodyIn_ref] at hexec hframe
  refine ⟨_, ?_, ?_, (exec_eq_perform _ _).trans (congrArg _ hexec)⟩
  · rw [← withCrc_eq_append]
    exact Memory.read_writeRange_inside _ _ _
  · rw [← hframe]
    exact Memory.read_writeRange_outside _ _ _

theorem encodeOverlaps_iff (a n d : Nat) : encodeOverlaps a n d = true ↔ 0 < n ∧ a < d + 18 + n ∧ d < a + n := by
  simp [encodeOverlaps, and_assoc]

/-- Settles O32: the cases of `ENCODE_FRAME` are the claimed ones. -/
theorem encodeFrameChecksInOrder : Obligations.EncodeFrameChecksInOrder := by
  refine fun s => ⟨_, exec_eq_perform _ _, ?_⟩
  have hcases := encodeFrame_cases ref s
  rw [spaceSize_oct, encodeOverlaps_iff, ← Bool.not_eq_true, encodeOverlaps_iff] at hcases
  rw [show callLength s.regs = s.regs.callLen from rfl, perform]
  dsimp only
  rcases hcases with ⟨hout, heq⟩ | ⟨p, s1, hin, -, ⟨hlong, heq⟩ | ⟨hcall, hbad, heq⟩ | ⟨hcall, hfit, hapart, heq⟩⟩
  · rw [if_pos hout, heq, raise_regs]
  · rw [if_neg (Nat.not_lt.mpr hin), if_pos hlong, heq, raise_regs]
  · rw [if_neg (Nat.not_lt.mpr hin), if_neg (Nat.not_lt.mpr hcall), heq, raise_regs]
    rcases hbad with hout | hover
    · rw [if_pos hout]
    · rw [if_pos hover, ite_self]
  · rw [if_neg (Nat.not_lt.mpr hin), if_neg (Nat.not_lt.mpr hcall), if_neg (Nat.not_lt.mpr hfit), if_neg hapart, heq,
      finish_regs]

/-! ### The format checks of `DECODE_FRAME` -/

theorem terminatorIndex_eq_some_iff (f : List Byte) (t : Nat) : terminatorIndex f = some t ↔ IsTerminator f t := by
  simp only [terminatorIndex, Option.map_eq_some_iff, List.findIdx?_eq_some_iff_getElem, List.length_drop,
    List.getElem_drop, Bool.not_eq_true]
  constructor
  · rintro ⟨k, ⟨hlt, hset, hleast⟩, rfl⟩
    refine ⟨by omega, by omega, by rwa [List.getD_eq_getElem _ _ (by omega)], fun i hge hi => ?_⟩
    obtain ⟨j, rfl⟩ := Nat.exists_eq_add_of_le hge
    rw [List.getD_eq_getElem _ _ (by omega)]
    exact hleast j (by omega)
  · rintro ⟨hge, hlt, hset, hleast⟩
    obtain ⟨k, rfl⟩ := Nat.exists_eq_add_of_le hge
    rw [List.getD_eq_getElem _ _ hlt] at hset
    refine ⟨k, ⟨by omega, hset, fun j hj => ?_⟩, rfl⟩
    rw [← List.getD_eq_getElem _ 0#8 (by omega)]
    exact hleast _ (by omega) (by omega)

/-- The format checks pass exactly with a terminator and its five octets (45_frame_codec.md R230). -/
theorem frameTerminator_eq_some_iff (f : List Byte) (t : Nat) :
    frameTerminator f = some t ↔ IsTerminator f t ∧ t + 5 ≤ f.length := by
  rw [← terminatorIndex_eq_some_iff, frameTerminator]
  by_cases hshort : f.length < 14
  · rw [if_pos hshort, terminatorIndex_eq_some_iff]
    exact ⟨nofun, fun ⟨⟨hge, hlt, _⟩, _⟩ => by omega⟩
  · rw [if_neg hshort]
    cases terminatorIndex f with
    | none => simp
    | some t' =>
      simp only [Option.ite_none_left_eq_some, Nat.not_lt, Option.some.injEq]
      exact ⟨fun ⟨hroom, heq⟩ => ⟨heq, heq ▸ hroom⟩, fun ⟨heq, hroom⟩ => ⟨heq ▸ hroom, heq⟩⟩

theorem isTerminator_unique {f : List Byte} {t t' : Nat} (h : IsTerminator f t) (h' : IsTerminator f t') : t = t' :=
  Option.some.inj (((terminatorIndex_eq_some_iff f t).mpr h).symm.trans ((terminatorIndex_eq_some_iff f t').mpr h'))

/-- What is left of the cases of `DECODE_FRAME` for held octets (45_frame_codec.md R237). -/
theorem decodeFrame_of_input {s : State} {f : List Byte} (h : InputAt s .oct f) :
    (frameTerminator f = none ∧ decodeFrame ref s = ended s .formatError s.regs) ∨
    (∃ t, frameTerminator f = some t ∧ decodeFrame ref s = ended s
      (if computedCrc f = receivedCrc f then .ok else .invalidChecksum)
      (decodeResults s.regs.srcAddr.toNat f t s.regs)) := by
  obtain ⟨hin, hread⟩ := memRead_of_inputAt h
  rcases decodeFrame_cases ref s with ⟨hout, -⟩ | ⟨f', s1, -, hread', hcases⟩
  · exact absurd hin (Nat.not_le.mpr hout)
  · obtain ⟨rfl, rfl⟩ : f = f' ∧ s = s1 := Prod.mk.inj (hread.symm.trans hread')
    exact hcases

/-- Settles O34: on each cause no terminator has its five octets. -/
theorem decodeFrameRejectsBadFormats : Obligations.DecodeFrameRejectsBadFormats := by
  intro s f h hbad
  have hnone : ∀ t, frameTerminator f ≠ some t := by
    intro t hsome
    obtain ⟨hterm, hroom⟩ := (frameTerminator_eq_some_iff f t).mp hsome
    rcases hbad with hshort | hclear | ⟨t', hterm', hshort⟩
    · omega
    · obtain ⟨hge, hlt, hset, -⟩ := hterm
      exact Bool.false_ne_true ((hclear t hge hlt).symm.trans hset)
    · obtain rfl := isTerminator_unique hterm hterm'
      omega
  rcases decodeFrame_of_input h with ⟨-, heq⟩ | ⟨t, hsome, -⟩
  · exact (exec_eq_perform _ _).trans (congrArg _ heq)
  · exact absurd hsome (hnone t)

/-! ### The results of `DECODE_FRAME` -/

/-- The first of four packed bytes is the lowest (20_memory.md R86). -/
theorem packBytes_eq_append (b0 b1 b2 b3 : Byte) : packBytes b0 b1 b2 b3 = b3 ++ b2 ++ b1 ++ b0 := by
  refine BitVec.eq_of_getLsbD_eq fun i hi => ?_
  rw [packBytes]
  simp only [BitVec.getLsbD_append]
  interval_cases i <;> simp

theorem receivedCrc_eq_append (f : List Byte) :
    receivedCrc f = f.getD (f.length - 1) 0#8 ++ f.getD (f.length - 2) 0#8 := by
  refine BitVec.eq_of_getLsbD_eq fun i hi => ?_
  rw [receivedCrc]
  simp only [BitVec.getLsbD_append, octetAt]
  interval_cases i <;> simp

theorem frameCfg_eq_append {m : Nat} (hm : m ≤ 6) (b : Byte) :
    (BitVec.ofNat 32 m <<< 8) ||| ((b >>> 1) &&& 0x0F#8).setWidth 32 =
      0#20 ++ BitVec.ofNat 4 m ++ 0#4 ++ b.extractLsb' 1 4 := by
  rw [← BitVec.setWidth_ofNat_of_le_of_lt (v := 32) (w := 4) (by decide) (by omega)]
  refine BitVec.eq_of_getLsbD_eq fun i hi => ?_
  simp only [BitVec.getLsbD_append]
  interval_cases i <;> simp

theorem crcPair_eq_append (rx computed : BitVec 16) :
    (rx.setWidth 32 <<< 16) ||| computed.setWidth 32 = rx ++ computed := by
  refine BitVec.eq_of_getLsbD_eq fun i hi => ?_
  simp only [BitVec.getLsbD_append]
  interval_cases i <;> simp

/-- The trailing spaces end at the last character that is none (45_frame_codec.md R231). -/
theorem trimmedLength_map_range {char : Nat → Byte} {m : Nat} (hlast : 0 < m → char (m - 1) ≠ spaceByte) (n : Nat) :
    m ≤ n → (∀ k, m ≤ k → k < n → char k = spaceByte) → trimmedLength ((List.range n).map char) = m := by
  induction n with
  | zero => exact fun hm _ => (Nat.le_zero.mp hm).symm
  | succ n ih =>
    intro hm hspace
    have hsplit : ((List.range (n + 1)).map char).reverse = char n :: ((List.range n).map char).reverse := by
      rw [List.range_succ, List.map_append, List.reverse_append]
      rfl
    rw [trimmedLength, hsplit, List.dropWhile_cons]
    rcases Nat.lt_or_eq_of_le hm with hlt | rfl
    · rw [if_pos (beq_iff_eq.mpr (hspace n (by omega) (by omega)))]
      exact ih (by omega) fun k hk hkn => hspace k hk (by omega)
    · have hn : char n ≠ spaceByte := hlast n.succ_pos
      rw [if_neg (mt beq_iff_eq.mp hn)]
      simp

theorem trimmedLength_sourceChars {f : List Byte} {m : Nat} (h : IsTrimmed f m) :
    trimmedLength (sourceChars f) = m := by
  obtain ⟨hm, hspace, hlast⟩ := h
  refine trimmedLength_map_range (fun hpos => ?_) 6 hm hspace
  rw [show 7 + (m - 1) = 6 + m by omega]
  exact hlast hpos

/-- Settles O33: every field of the results, in the claimed form. -/
theorem decodeFrameReadsTheFields : Obligations.DecodeFrameReadsTheFields := by
  intro s f t m h hterm hroom htrim F rx computed
  have hsome := (frameTerminator_eq_some_iff f t).mpr ⟨hterm, hroom⟩
  rcases decodeFrame_of_input h with ⟨hnone, -⟩ | ⟨t', hsome', heq⟩
  · simp [hnone] at hsome
  · obtain rfl : t = t' := Option.some.inj (hsome.symm.trans hsome')
    rw [exec_eq_perform, perform, heq, decodeResults, trimmedLength_sourceChars htrim, frameCfg_eq_append htrim.1,
      crcPair_eq_append, receivedCrc_eq_append, packBytes_eq_append, packBytes_eq_append, packBytes_eq_append]
    rfl

end Sys2Proof.Machine
end

section
/-! PROOFS. The frame round trip (45_frame_codec.md R240): the octets of an encoded frame, and what `DECODE_FRAME` reads
from them. -/

open Sys2Proof Sys2Proof.Machine Sys2Proof.Claims

namespace Sys2Proof.Machine

/-! ### The octets of an encoded frame -/

/-- The frame that `ENCODE_FRAME` builds for the payload `p`, with its trailer (45_frame_codec.md R220 to R229). -/
def encodedFrame (g : Regs) (p : List Byte) : List Byte :=
  encodedBody g p ++ [(crc16 (encodedBody g p)).extractLsb' 0 8, (crc16 (encodedBody g p)).extractLsb' 8 8]

@[simp] theorem encodedFrame_length (g : Regs) (p : List Byte) : (encodedFrame g p).length = 18 + p.length := by
  simp [encodedFrame, encodedBody]
  omega

theorem encodedFrame_callsign (g : Regs) (p : List Byte) {k : Nat} (hk : k < 6) :
    (encodedFrame g p).getD (7 + k) 0#8 = (if k < callLength g then char g k else 0x20#8) <<< 1 := by
  interval_cases k <;> rfl

theorem encodedFrame_ssidOctet (g : Regs) (p : List Byte) :
    (encodedFrame g p).getD 13 0#8 = 0x61#8 ||| ((0#4 ++ g.frameCfg.extractLsb' 0 4) <<< 1) := rfl

theorem payload_prefix_encodedFrame (g : Regs) (p : List Byte) : p <+: (encodedFrame g p).drop 16 := ⟨_, rfl⟩

theorem encodedFrame_take (g : Regs) (p : List Byte) :
    (encodedFrame g p).take ((encodedFrame g p).length - 2) = encodedBody g p := by
  simp [encodedFrame]

/-- The two octets of the trailer make up the CRC (45_frame_codec.md R229, R236). -/
theorem encodedFrame_trailer (g : Regs) (p : List Byte) :
    ((encodedFrame g p).getD ((encodedFrame g p).length - 1) 0#8 ++
      (encodedFrame g p).getD ((encodedFrame g p).length - 2) 0#8 : BitVec 16) = crc16 (encodedBody g p) := by
  have hjoin : ∀ v : BitVec 16, v.extractLsb' 8 8 ++ v.extractLsb' 0 8 = v := fun v => by
    refine BitVec.eq_of_getLsbD_eq fun i hi => ?_
    simp only [BitVec.getLsbD_append]
    interval_cases i <;> simp
  simp only [encodedFrame, List.length_append, List.length_cons, List.length_nil]
  rw [List.getD_append_right _ _ _ _ (by omega), List.getD_append_right _ _ _ _ (by omega)]
  simpa using hjoin _

/-! ### The fields that `DECODE_FRAME` finds in them -/

/-- The SSID octet ends the address and holds the SSID (45_frame_codec.md R223, R232). -/
theorem ssidOctet_fields : ∀ ssid : BitVec 4, (0x61#8 ||| ((0#4 ++ ssid : Byte) <<< 1)).getLsbD 0 = true ∧
    (0x61#8 ||| ((0#4 ++ ssid : Byte) <<< 1)).extractLsb' 1 4 = ssid := by decide

theorem encodedFrame_isTerminator (g : Regs) (p : List Byte) : IsTerminator (encodedFrame g p) 13 := by
  refine ⟨le_rfl, ?_, ?_, fun i hge hlt => absurd hge (Nat.not_le.mpr hlt)⟩
  · rw [encodedFrame_length]
    omega
  · rw [encodedFrame_ssidOctet]
    exact (ssidOctet_fields _).1

theorem encodedFrame_ssid (g : Regs) (p : List Byte) :
    ((encodedFrame g p).getD 13 0#8).extractLsb' 1 4 = g.frameCfg.extractLsb' 0 4 := by
  rw [encodedFrame_ssidOctet]
  exact (ssidOctet_fields _).2

theorem shiftLeft_ushiftRight_of_lt {b : Byte} (h : b.toNat < 0x80) : (b <<< 1) >>> 1 = b := by
  refine BitVec.eq_of_toNat_eq ?_
  rw [BitVec.toNat_ushiftRight, BitVec.toNat_shiftLeft, Nat.shiftLeft_eq, Nat.shiftRight_eq_div_pow]
  omega

section
variable {g : Regs} (hchar : ∀ k < callLength g, (char g k).toNat < 0x80) (p : List Byte)
include hchar

/-- The shift loses nothing of a character of seven bits (45_frame_codec.md R240). -/
theorem encodedFrame_char {k : Nat} (hk : k < 6) :
    (encodedFrame g p).getD (7 + k) 0#8 >>> 1 = if k < callLength g then char g k else 0x20#8 := by
  rw [encodedFrame_callsign g p hk]
  by_cases hlt : k < callLength g
  · rw [if_pos hlt, shiftLeft_ushiftRight_of_lt (hchar k hlt)]
  · rw [if_neg hlt]
    rfl

theorem encodedFrame_isTrimmed (hcall : callLength g ≤ 6)
    (hlast : 0 < callLength g → char g (callLength g - 1) ≠ 0x20#8) : IsTrimmed (encodedFrame g p) (callLength g) := by
  refine ⟨hcall, fun k hge hk => ?_, fun hpos => ?_⟩
  · rw [encodedFrame_char hchar p hk, if_neg (Nat.not_lt.mpr hge)]
  · rw [show 6 + callLength g = 7 + (callLength g - 1) by omega, encodedFrame_char hchar p (by omega),
      if_pos (by omega)]
    exact hlast hpos

end

/-! ### The fields of the registers -/

theorem char_of_bytes {g : Regs} {b : Nat → Byte} (hlo : g.callLo = b 3 ++ b 2 ++ b 1 ++ b 0)
    (hhi : g.callHi = 0#16 ++ b 5 ++ b 4) {k : Nat} (hk : k < 6) : char g k = b k := by
  rw [char, hlo, hhi]
  refine BitVec.eq_of_getLsbD_eq fun i hi => ?_
  simp only [BitVec.getLsbD_extractLsb', BitVec.getLsbD_append]
  interval_cases k <;> grind

theorem callLength_of_fields (n ssid : BitVec 4) : (0#20 ++ n ++ 0#4 ++ ssid : Word).extractLsb' 8 4 = n := by
  refine BitVec.eq_of_getLsbD_eq fun i hi => ?_
  simp only [BitVec.getLsbD_extractLsb', BitVec.getLsbD_append]
  interval_cases i <;> simp

theorem ssid_of_fields (n ssid : BitVec 4) : (0#20 ++ n ++ 0#4 ++ ssid : Word).extractLsb' 0 8 = 0#4 ++ ssid := by
  refine BitVec.eq_of_getLsbD_eq fun i hi => ?_
  simp only [BitVec.getLsbD_extractLsb', BitVec.getLsbD_append]
  interval_cases i <;> simp

theorem extractLsb'_eight_of_lt {v : Word} (h : (v.extractLsb' 0 8).toNat < 16) :
    v.extractLsb' 0 8 = 0#4 ++ v.extractLsb' 0 4 := by
  refine BitVec.eq_of_toNat_eq ?_
  simp only [BitVec.extractLsb'_toNat, Nat.shiftRight_zero] at h
  rw [BitVec.toNat_append, BitVec.toNat_zero, Nat.zero_shiftLeft, Nat.zero_or, BitVec.extractLsb'_toNat,
    BitVec.extractLsb'_toNat, Nat.shiftRight_zero]
  omega

/-! ### The round trip -/

/-- `DECODE_FRAME` of an encoded frame, wherever it is held. -/
theorem decodeFrame_encodedFrame {t : State} {g : Regs} {p : List Byte} (h : InputAt t .oct (encodedFrame g p))
    (hcall : callLength g ≤ 6) (hchar : ∀ k < callLength g, (char g k).toNat < 0x80)
    (hlast : 0 < callLength g → char g (callLength g - 1) ≠ 0x20#8) : ∃ u : State, exec .decodeFrame t = .next u ∧
      u.regs.err = .ok ∧ callLength u.regs = callLength g ∧ (∀ k < callLength g, char u.regs k = char g k) ∧
      u.regs.frameCfg.extractLsb' 0 8 = 0#4 ++ g.frameCfg.extractLsb' 0 4 ∧
      u.regs.payloadLen.toNat = p.length ∧ Holds u.oct u.regs.payloadOff.toNat p := by
  have hdecode := decodeFrameReadsTheFields t _ 13 _ h (encodedFrame_isTerminator g p)
    (by rw [encodedFrame_length]; omega) (encodedFrame_isTrimmed hchar p hcall hlast)
  obtain ⟨-, hin, hold⟩ := h
  rw [encodedFrame_length, bytesIn] at hin
  refine ⟨_, hdecode, ?_, ?_, fun k hk => ?_, ?_, ?_, ?_⟩
  · exact if_pos ((congrArg crc16 (encodedFrame_take g p)).trans (encodedFrame_trailer g p).symm)
  · refine (congrArg BitVec.toNat (callLength_of_fields _ _)).trans ?_
    exact Nat.mod_eq_of_lt (by omega)
  · have hk6 : k < 6 := hk.trans_le hcall
    refine (char_of_bytes (b := fun k => (encodedFrame g p).getD (7 + k) 0#8 >>> 1) rfl rfl hk6).trans ?_
    rw [encodedFrame_char hchar p hk6, if_pos hk]
  · exact (ssid_of_fields _ _).trans (congrArg _ (encodedFrame_ssid g p))
  · change (BitVec.ofNat 32 ((encodedFrame g p).length - 13 - 5)).toNat = _
    rw [encodedFrame_length, BitVec.toNat_ofNat]
    omega
  · have hoff : (BitVec.ofNat 32 (t.regs.srcAddr.toNat + 13 + 3)).toNat = t.regs.srcAddr.toNat + 16 :=
      Nat.mod_eq_of_lt (by omega)
    change Holds t.oct (BitVec.ofNat 32 (t.regs.srcAddr.toNat + 13 + 3)).toNat p
    rw [hoff]
    exact holds_of_prefix_drop hold (payload_prefix_encodedFrame g p)

/-- Settles O35: `ENCODE_FRAME` leaves the encoded frame at its output, and `DECODE_FRAME` of it gives the fields
back. -/
theorem frameRoundTrip : Obligations.FrameRoundTrip := by
  intro s p h hcall hfit hapart hchar hlast hssid
  obtain ⟨m, hm, -, hencode⟩ := encodeFrameBuildsTheFrame s p h hcall hfit hapart
  rw [extractLsb'_eight_of_lt hssid]
  have hlen : (encodedFrame s.regs p).length = (BitVec.ofNat 32 (18 + p.length)).toNat := by
    rw [encodedFrame_length, BitVec.toNat_ofNat, Nat.mod_eq_of_lt (by omega)]
  refine ⟨_, Exists.imp (fun u hu => ⟨hencode, hu⟩)
    (decodeFrame_encodedFrame ⟨hlen, ?_, hm⟩ hcall hchar hlast)⟩
  rw [encodedFrame_length]
  exact hfit

end Sys2Proof.Machine
end

section
/-! PROOFS. Acceptance, completion and errors (60_exceptions.md): a write to `CMD`, the writes that are ignored while busy,
the engine's turn, and the code and the effects that every command ends with. -/

open Sys2Proof Sys2Proof.Machine Sys2Proof.Claims

namespace Sys2Proof.Machine

/-! ### Writes while a command is pending, and acceptance -/

theorem busy_of_pending {s : State} (h : s.latch ≠ none) : s.busy = true := Option.isSome_iff_ne_none.mpr h

theorem writeReg_ignored (c : Config) {r : Reg} (v : Word) {s : State} (hl : s.latch ≠ none) (hctrl : r ≠ .ctrl)
    (hstatus : r ≠ .status) (hcmd : r ≠ .cmd) : writeReg c r v s = s := by
  rw [writeReg_plain c v s hctrl hstatus hcmd, if_pos (busy_of_pending hl)]

/-- Settles O17: the offset holds no register, or one whose write is ignored while busy. -/
theorem otherWritesWhileBusyAreIgnored : Obligations.OtherWritesWhileBusyAreIgnored := by
  intro s off v rest hs hl ha ho hctrl hstatus hcmd
  cases hr : regAt off with
  | none =>
    rw [step, nextStep_host hs, hostAccess_regWrite ref _ _ _ _ ho]
    simp [hostRegWrite, regularAccess, ha, hr]
  | some r =>
    obtain rfl := offset_of_regAt hr
    rw [step_regWrite hs, writeReg_ignored ref v (s := { s with schedule := rest }) hl (mt offset_eq_ctrl.mpr hctrl)
      (mt offset_eq_status.mpr hstatus) (mt offset_eq_cmd.mpr hcmd)]

/-- Settles O16: `writeCmd` drops the word while busy. -/
theorem cmdWriteWhileBusyIsDropped : Obligations.CmdWriteWhileBusyIsDropped := by
  intro s w rest hs hl
  rw [step_regWrite (r := .cmd) hs, writeReg]
  rcases writeCmd_cases w { s with schedule := rest } with ⟨hidle, -⟩ | ⟨-, e⟩
  · exact absurd hidle hl
  · rw [e]

/-- The status word after acceptance: `BUSY`, and `OVR` as before (60_exceptions.md R265). -/
theorem status_accept (w : Word) (s : State) :
    (accept w s).status = if s.regs.ovr then 0x5#32 else 0x1#32 := by
  change bitWord true ||| (bitWord false <<< 1) ||| (bitWord s.regs.ovr <<< 2) |||
    (ErrCode.ok.code.setWidth 32 <<< 8) = _
  cases s.regs.ovr <;> decide

/-- Settles O15: `writeCmd` accepts the word on an idle block. -/
theorem cmdWriteIsAccepted : Obligations.CmdWriteIsAccepted := by
  intro s w rest hs hl
  have hstep := step_regWrite (r := .cmd) hs
  rw [writeReg] at hstep
  rcases writeCmd_cases w { s with schedule := rest } with ⟨-, e⟩ | ⟨hbusy, -⟩
  · rw [e] at hstep
    exact ⟨_, hstep, rfl, status_accept w { s with schedule := rest }, rfl⟩
  · exact absurd hl hbusy

/-! ### The engine's turn -/

theorem engineTurn_of_idle (c : Config) {s : State} (hl : s.latch = none) : engineTurn c s = .next s := by
  simp only [engineTurn, hl]

theorem engineTurn_of_ok (c : Config) {s : State} {w : Word} {i : Instr} (hl : s.latch = some w)
    (hd : decode w = .ok i) (hdist : s.disturbed = false) : engineTurn c s = .next (perform c i s) := by
  simp only [engineTurn, hl, hd, hdist, Bool.false_eq_true, if_false]

/-- Settles O6: the turn decodes the latch, in any build, and `exec` is `perform` in the reference build. -/
theorem engineTurnRunsTheDecodedCommand : Obligations.EngineTurnRunsTheDecodedCommand := by
  have runs (c : Config) (s : State) (rest : List Event) (w : Word) (i : Instr) (hs : EngineNext s rest)
      (hl : s.latch = some w) (hdist : s.disturbed = false) (hd : decode w = .ok i) :
      nextStep c s = .next (perform c i { s with schedule := rest }) := by
    rw [nextStep_engine hs, engineTurn_of_ok c (s := { s with schedule := rest }) hl hd hdist]
  have idles (c : Config) (s : State) (rest : List Event) (hs : EngineNext s rest) (hl : s.latch = none) :
      nextStep c s = .next { s with schedule := rest } := by
    rw [nextStep_engine hs, engineTurn_of_idle c (s := { s with schedule := rest }) hl]
  refine ⟨fun s rest w i hs hl hdist hd => ?_, idles ref, runs, idles⟩
  rw [step, runs ref s rest w i hs hl hdist hd, exec_eq_perform]

theorem engineTurn_answers (c : Config) (s : State) : ∃ t, engineTurn c s = .next t := by
  rcases engineTurn_cases c s with ⟨-, e⟩ | ⟨_, _, -, -, e⟩ | ⟨_, _, -, -, -, e⟩ | ⟨_, _, -, -, -, e⟩ <;> exact ⟨_, e⟩

theorem nextStep_answers (c : Config) (s : State) : ∃ t, nextStep c s = .next t := by
  rcases nextStep_turns c s with ⟨rest, -, e⟩ | ⟨_, _, -, e⟩ | ⟨_, -, e⟩
  · rw [e]
    exact engineTurn_answers c _
  all_goals exact ⟨_, e⟩

/-- Settles O8: of the events only the engine's turn could stop, and it has a next state in each of its cases. -/
theorem everyStepAnswersANextState : Obligations.EveryStepAnswersANextState :=
  ⟨nextStep_answers ref, nextStep_answers⟩

/-! ### Every command completes -/

/-- A command that no legal word holds (30_encoding.md R112, R114). -/
theorem perform_of_not_wf (c : Config) {i : Instr} (h : i.wf = false) (s : State) :
    perform c i s = raise .illegalCommand s := by
  cases i with
  | demodTrial o =>
    rcases demodTrial_cases c o s with ⟨-, e⟩ | ⟨ho, -⟩ | ⟨_, _, ho, -⟩
    · exact e
    all_goals exact absurd ho (of_decide_eq_false h)
  | encodeFrame | decodeFrame | modulate | demodulate | discriminate | demodStep | demodReset | crc16 => cases h

theorem perform_completes (c : Config) (i : Instr) (s : State) : ∃ s1, EndsFrom s1 (perform c i s) := by
  cases hwf : i.wf with
  | true => exact ⟨_, perform_endsFrom hwf⟩
  | false => exact ⟨s, perform_of_not_wf c hwf s ▸ raise_endsFrom _ s⟩

theorem withResults_flags (i : Instr) (g r : Regs) : (withResults i g r).irqEn = g.irqEn ∧
    (withResults i g r).ovr = g.ovr ∧ (withResults i g r).cmd = g.cmd := by cases i <;> exact ⟨rfl, rfl, rfl⟩

/-- Settles O14: `complete` sets `DONE` and empties the latch, and the command's frame keeps the rest. -/
theorem everyCommandCompletes : Obligations.EveryCommandCompletes := by
  intro i s
  have ht := exec_eq_perform i s
  obtain ⟨s1, hend⟩ := perform_completes ref i s
  obtain ⟨hschedule, hreads, hregs, -, -⟩ := exec_commandFrame ht
  obtain ⟨hirq, hovr, hcmd⟩ := withResults_flags i s.regs (perform ref i s).regs
  rw [← hregs] at hirq hovr hcmd
  refine ⟨_, ht, hend.done, busy_none hend.latch, hend.latch, ?_, hirq, hovr, hcmd, hschedule, hreads⟩
  rw [State.irq, hend.done, hirq, Bool.true_and]

/-! ### The codes of the table and what a failing command changes -/

/-- The ends of a well-formed command `i` from `s`: with `OK`, with a checksum that does not agree, or with another
error that the table gives it, which changes nothing but `STATUS`, the latch and the model's own mark and draws
(60_exceptions.md R262, R263). -/
inductive TabledEnd (i : Instr) (s : State) : State → Prop where
  | ok {t : State} (h : t.regs.err = .ok) : TabledEnd i s t
  | badChecksum {t : State} (hi : .invalidChecksum ∈ allowedErrors i) (h : t.regs.err = .invalidChecksum) :
    TabledEnd i s t
  | failed {e : ErrCode} (he : e ∈ allowedErrors i) (m : Bool) (d : Nat) :
    TabledEnd i s (raise e { s with mark := m, draws := d })

section
variable {i : Instr} {s s1 : State} {e : ErrCode}

theorem tabledEnd_raise (he : e ∈ allowedErrors i) : TabledEnd i s (raise e s) := .failed he s.mark s.draws

/-- An error that is raised after the input was read. -/
theorem tabledEnd_raise_of_memRead {sp : Space} {a n : Nat} {bs : List Byte} (hread : memRead s sp a n = (bs, s1))
    (he : e ∈ allowedErrors i) : TabledEnd i s (raise e s1) := by
  obtain ⟨m, d, rfl⟩ := memRead_changes hread
  exact .failed he m d

end

section
variable (c : Config) (s : State)

theorem crcCommand_tabledEnd : TabledEnd .crc16 s (crcCommand c s) := by
  rcases crcCommand_cases c s with ⟨-, e⟩ | ⟨_, _, -, -, e⟩ <;> rw [e]
  · exact tabledEnd_raise (by decide)
  · exact .ok rfl

theorem discriminate_tabledEnd : TabledEnd .discriminate s (discriminate c s) := by
  rcases discriminate_cases c s with ⟨-, e⟩ | ⟨_, _, -, -, e⟩ <;> rw [e]
  · exact tabledEnd_raise (by decide)
  · exact .ok rfl

theorem demodStep_tabledEnd : TabledEnd .demodStep s (demodStep c s) := by
  rcases demodStep_cases c s with ⟨-, e⟩ | ⟨_, _, -, -, e⟩ <;> rw [e]
  · exact tabledEnd_raise (by decide)
  · exact .ok rfl

theorem decodeFrame_tabledEnd : TabledEnd .decodeFrame s (decodeFrame c s) := by
  rcases decodeFrame_cases c s with ⟨-, e⟩ | ⟨_, _, -, hread, ⟨-, e⟩ | ⟨_, -, e⟩⟩ <;> rw [e]
  · exact tabledEnd_raise (by decide)
  · exact tabledEnd_raise_of_memRead hread (by decide)
  · split
    · exact .ok rfl
    · exact .badChecksum (by decide) rfl

theorem encodeFrame_tabledEnd : TabledEnd .encodeFrame s (encodeFrame c s) := by
  rcases encodeFrame_cases c s with ⟨-, e⟩ | ⟨_, _, -, hread, ⟨-, e⟩ | ⟨-, -, e⟩ | ⟨-, -, -, e⟩⟩ <;> rw [e]
  · exact tabledEnd_raise (by decide)
  · exact tabledEnd_raise_of_memRead hread (by decide)
  · exact tabledEnd_raise_of_memRead hread (by decide)
  · exact .ok rfl

theorem modulate_tabledEnd (nb ne : Byte) : TabledEnd (.modulate nb ne) s (modulate c nb ne s) := by
  have hrange : ErrCode.rangeError ∈ allowedErrors (.modulate nb ne) := List.mem_cons_self
  rcases modulate_cases c nb ne s with ⟨-, e⟩ | ⟨_, _, -, hread, ⟨-, e⟩ | ⟨-, _, _, -, e⟩⟩ <;> rw [e]
  · exact tabledEnd_raise hrange
  · exact tabledEnd_raise_of_memRead hread hrange
  · exact .ok rfl

/-- The end of a search for a frame in the samples that were read (44_phase_search.md R206, R207). -/
theorem deliverFrame_tabledEnd {i : Instr} {s s1 : State} {sp : Space} {a n : Nat} {bs : List Byte}
    (hread : memRead s sp a n = (bs, s1)) (hrange : .rangeError ∈ allowedErrors i) (o : Nat) (acc : List Byte) :
    TabledEnd i s (deliverFrame c o acc s1) := by
  rcases deliverFrame_cases c o acc s1 with ⟨-, e⟩ | ⟨-, e⟩ <;> rw [e]
  · exact tabledEnd_raise_of_memRead hread hrange
  · exact .ok rfl

theorem demodulate_tabledEnd : TabledEnd .demodulate s (demodulate c s) := by
  rcases demodulate_cases c s with ⟨-, e⟩ | ⟨_, _, -, hread, ⟨-, e⟩ | ⟨_, _, -, e⟩⟩ <;> rw [e]
  · exact tabledEnd_raise (by decide)
  · exact tabledEnd_raise_of_memRead hread (by decide)
  · exact deliverFrame_tabledEnd c hread (by decide) _ _

theorem demodTrial_tabledEnd {o : Byte} (ho : o.toNat < spb) : TabledEnd (.demodTrial o) s (demodTrial c o s) := by
  have hrange : ErrCode.rangeError ∈ allowedErrors (.demodTrial o) := List.mem_cons_self
  have hnone : ErrCode.notFound ∈ allowedErrors (.demodTrial o) := List.mem_cons_of_mem _ List.mem_cons_self
  rcases demodTrial_cases c o s with ⟨h, -⟩ | ⟨-, -, e⟩ | ⟨_, _, -, -, hread, ⟨-, e⟩ | ⟨_, -, e⟩⟩
  · exact absurd ho (Nat.not_lt.mpr h)
  all_goals rw [e]
  · exact tabledEnd_raise hrange
  · exact tabledEnd_raise_of_memRead hread hnone
  · exact deliverFrame_tabledEnd c hread hrange _ _

theorem perform_tabledEnd {i : Instr} (hwf : i.wf = true) : TabledEnd i s (perform c i s) := by
  cases i with
  | encodeFrame => exact encodeFrame_tabledEnd c s
  | decodeFrame => exact decodeFrame_tabledEnd c s
  | modulate nb ne => exact modulate_tabledEnd c s nb ne
  | demodulate => exact demodulate_tabledEnd c s
  | discriminate => exact discriminate_tabledEnd c s
  | demodStep => exact demodStep_tabledEnd c s
  | demodReset => exact .ok rfl
  | crc16 => exact crcCommand_tabledEnd c s
  | demodTrial o => exact demodTrial_tabledEnd c s (of_decide_eq_true hwf)

end

theorem exec_tabledEnd {i : Instr} {s t : State} (hwf : i.wf = true) (h : exec i s = .next t) : TabledEnd i s t := by
  obtain rfl := Host.Outcome.next.inj ((exec_eq_perform i s).symm.trans h)
  exact perform_tabledEnd ref s hwf

/-- Settles O27: each of a command's ends has `OK` or a code of the table. -/
theorem errorsAreThoseOfTheTable : Obligations.ErrorsAreThoseOfTheTable := by
  intro i s t hwf ht
  cases exec_tabledEnd hwf ht with
  | ok h => exact .inl h
  | badChecksum hi h => exact .inr (h ▸ hi)
  | failed he m d => exact .inr he

/-- Settles O26: an error but `INVALID_CHECKSUM` is raised on the state before or on that of the `MemRead`. -/
theorem failingCommandWritesOnlyStatus : Obligations.FailingCommandWritesOnlyStatus := by
  intro i s t ht hok hsum
  cases hwf : i.wf with
  | false =>
    rw [exec_eq_perform, perform_of_not_wf ref hwf s] at ht
    cases ht
    rfl
  | true =>
    cases exec_tabledEnd hwf ht with
    | ok h => exact absurd h hok
    | badChecksum _ h => exact absurd h hsum
    | failed _ m d => rfl

end Sys2Proof.Machine
end

section
/-! PROOFS. A pending command ends under weak fairness, and what the soft reset and the power-on reset leave
(70_reset_and_hazards.md). -/

open Sys2Proof Sys2Proof.Machine Sys2Proof.Claims

namespace Sys2Proof.Machine

/-! ### The steps up to the end of a command -/

theorem perform_schedule (c : Config) (i : Instr) (s : State) : (perform c i s).schedule = s.schedule :=
  (congrArg State.schedule (perform_withSchedule c i s s.schedule) :)

theorem engineTurn_schedule {c : Config} {s t : State} (h : engineTurn c s = .next t) : t.schedule = s.schedule := by
  rcases engineTurn_cases c s with ⟨-, e⟩ | ⟨w, err, -, -, e⟩ | ⟨w, i, -, -, -, e⟩ | ⟨w, i, -, -, -, e⟩ <;>
    obtain rfl := Host.Outcome.next.inj (e.symm.trans h)
  · rfl
  · exact raise_schedule _ s
  · exact congrArg Untouched.schedule (completeUnconstrained_endsFrom c i s).untouched
  · exact perform_schedule c i s

/-- A step takes one event off the schedule and leaves the others (70_reset_and_hazards.md R300). -/
theorem nextStep_schedule {c : Config} {s t : State} (h : nextStep c s = .next t) :
    t.schedule = s.schedule.tail := by
  rcases nextStep_cases c s with ⟨hs, e⟩ | ⟨a, rest, hs, e⟩ | ⟨rest, hs, e⟩ | ⟨rest, hs, e⟩ <;>
    rw [e] at h <;> rw [hs]
  · exact (engineTurn_schedule h).trans hs
  · obtain rfl := Host.Outcome.next.inj h
    exact hostAccess_schedule c a _
  · exact engineTurn_schedule h
  · obtain rfl := Host.Outcome.next.inj h
    rfl

/-- After the engine's turn no command is pending, whether or not one was. -/
theorem engineTurn_empties_latch {c : Config} {s t : State} (h : engineTurn c s = .next t) : t.latch = none := by
  by_cases hl : s.latch = none
  · obtain rfl := Host.Outcome.next.inj ((engineTurn_of_idle c hl).symm.trans h)
    exact hl
  · exact (engineTurn_ends h hl).1

theorem run_core_succ {s t : State} (h : step s = .next t) (k : Nat) :
    Host.Core.run core (k + 1) s = Host.Core.run core k t := by
  have hcore : core.step s = .next t := h
  simp only [Host.Core.run, hcore]

/-- The run that takes all of the schedule `es` and one step more ends with an empty latch: its last step is the
engine's turn. -/
theorem run_schedule_empties_latch (es : List Event) : ∀ s : State, s.schedule = es →
    ∃ t : State, Host.Core.run core (es.length + 1) s = .next t ∧ t.latch = none := by
  induction es with
  | nil =>
    intro s hs
    obtain ⟨t, ht⟩ := engineTurn_answers ref s
    have hstep : step s = .next t := by simpa only [step, nextStep, hs] using ht
    exact ⟨t, run_core_succ hstep 0, engineTurn_empties_latch ht⟩
  | cons e es ih =>
    intro s hs
    obtain ⟨s1, hstep⟩ := nextStep_answers ref s
    obtain ⟨t, hrun, hlatch⟩ := ih s1 (by rw [nextStep_schedule hstep, hs, List.tail_cons])
    exact ⟨t, (run_core_succ hstep _).trans hrun, hlatch⟩

/-- Settles O13: the run through the whole schedule and one step more ends with the engine's turn. -/
theorem pendingCommandEnds : Obligations.PendingCommandEnds := fun s _ =>
  ⟨_, Nat.le_refl _, run_schedule_empties_latch s.schedule s rfl⟩

/-! ### The resets -/

theorem resetValueIn_ref (r : Reg) : resetValueIn ref r = resetValue r := by cases r <;> rfl

/-- What the registers read once the block of the reference build is reset. -/
theorem regValue_of_reset_ref {s : State} (hregs : s.regs = Regs.reset ref) (hl : s.latch = none) (r : Reg) :
    s.regValue r = resetValue r := (regValue_of_reset hregs hl r).trans (resetValueIn_ref r)

/-- Settles O23: the step is the power-on reset, in the reference build. -/
theorem powerOnResetClearsTheBlock : Obligations.PowerOnResetClearsTheBlock := fun _ _ hs =>
  ⟨_, nextStep_powerOn hs, regValue_of_reset_ref rfl rfl, rfl, powerOnReset_irq ref _, powerOnReset_read ref _, rfl,
    rfl⟩

theorem softReset_mem (c : Config) (s : State) (sp : Space) : (softReset c s).mem sp = (abortPending c s).mem sp := by
  cases sp <;> rfl

theorem abortPending_of_idle (c : Config) {s : State} (hl : s.latch = none) : abortPending c s = s := by
  simp only [abortPending, hl]

theorem abortPending_of_illegal (c : Config) {s : State} {w : Word} {e : DecodeError} (hl : s.latch = some w)
    (hd : decode w = .error e) : abortPending c s = s := by simp only [abortPending, hl, hd]

theorem abortPending_of_ok (c : Config) {s : State} {w : Word} {i : Instr} (hl : s.latch = some w)
    (hd : decode w = .ok i) (hdist : s.disturbed = false) : abortPending c s = abortCommand c i s := by
  simp only [abortPending, hl, hd, hdist, Bool.false_eq_true, if_false]

theorem abortCommand_of_no_output (c : Config) {i : Instr} (hi : outputSpace i = none) (s : State) :
    abortCommand c i s = s := by
  cases i with
  | encodeFrame | modulate | demodulate | demodTrial => cases hi
  | decodeFrame | discriminate | demodStep | demodReset | crc16 => rfl

/-- The range that a soft reset forgets is that of the command's own completion (70_reset_and_hazards.md R291). -/
theorem abortCommand_of_output (c : Config) {i : Instr} {sp : Space} (hi : outputSpace i = some sp) (s : State) :
    abortCommand c i s = forgetOutput sp (storedCount c i s) s (perform c i s) := by
  cases i with
  | encodeFrame | modulate | demodulate | demodTrial => cases hi; rfl
  | decodeFrame | discriminate | demodStep | demodReset | crc16 => cases hi

/-- The byte `x` of the space `sp` is one that the command `i` writes from `s` in the build `c`: it ends with `OK` and
the byte lies in its output range (20_memory.md R90; 70_reset_and_hazards.md R291). -/
abbrev InOutRange (c : Config) (i : Instr) (s : State) (sp : Space) (x : Nat) : Prop :=
  (perform c i s).regs.err = .ok ∧ outputSpace i = some sp ∧ s.regs.dstAddr.toNat ≤ x ∧
    x < s.regs.dstAddr.toNat + storedCount c i s

/-- What an aborted command leaves of the memories (70_reset_and_hazards.md R291). -/
theorem abortCommand_read (c : Config) (i : Instr) (s : State) (sp : Space) (x : Nat) :
    ((abortCommand c i s).mem sp).read x = if InOutRange c i s sp x then none else (s.mem sp).read x := by
  rcases Option.eq_none_or_eq_some (outputSpace i) with hi | ⟨sp', hi⟩
  · simp [abortCommand_of_no_output c hi, InOutRange, hi]
  · simp only [abortCommand_of_output c hi, forgetOutput_read, InOutRange, hi, Option.some.injEq,
      eq_comm (a := sp)]

/-- The output range of a command does not depend on what is scheduled. -/
theorem inOutRange_withSchedule (c : Config) (i : Instr) (s : State) (rest : List Event) (sp : Space) (x : Nat) :
    InOutRange c i { s with schedule := rest } sp x ↔ InOutRange c i s sp x := by
  have hcount : storedCount c i { s with schedule := rest } = storedCount c i s := by
    simp only [storedCount, memRead_withSchedule]
  simp only [InOutRange, perform_withSchedule, hcount]

/-- The step of a host write to `CTRL` with `SRST` is the soft reset (10_state.md R34). -/
theorem nextStep_softReset (c : Config) {s : State} {v : Word} {rest : List Event}
    (hs : HostNext s (.regWrite 0x04 32 v) rest) (hv : v.getLsbD 1 = true) :
    nextStep c s = .next (softReset c { s with schedule := rest }) := by
  have haccess := hostAccess_register c .ctrl v { s with schedule := rest }
  rw [writeReg_ctrl_of_reset c hv] at haccess
  rw [nextStep_host hs]
  exact congrArg _ haccess

theorem softReset_read (c : Config) {s : State} {w : Word} {i : Instr} (rest : List Event) (hl : s.latch = some w)
    (hd : decode w = .ok i) (hdist : s.disturbed = false) (sp : Space) (x : Nat) :
    ((softReset c { s with schedule := rest }).mem sp).read x =
      if InOutRange c i s sp x then none else (s.mem sp).read x := by
  have hmem : ({ s with schedule := rest } : State).mem sp = s.mem sp := by cases sp <;> rfl
  rw [softReset_mem, abortPending_of_ok c (s := { s with schedule := rest }) hl hd hdist, abortCommand_read, hmem]
  exact if_congr (inOutRange_withSchedule c i s rest sp x) rfl rfl

/-- A soft reset that aborts no command keeps both memories. -/
theorem softReset_keeps_memories {c : Config} {s : State} (h : abortPending c s = s) :
    (softReset c s).oct = s.oct ∧ (softReset c s).smp = s.smp :=
  ⟨(congrArg State.oct h :), (congrArg State.smp h :)⟩

/-- Settles O22: the step is the soft reset, whose forgotten range is that of the command's completion. -/
theorem softResetForgetsTheAbortedOutput : Obligations.SoftResetForgetsTheAbortedOutput := by
  refine ⟨fun s v rest hs hv => ?_, fun c s v w i rest hs hv hl hd hdist =>
    ⟨_, nextStep_softReset c hs hv, softReset_read c rest hl hd hdist⟩⟩
  obtain ⟨hmark, hschedule, hreads⟩ := abortPending_frame ref { s with schedule := rest }
  refine ⟨_, nextStep_softReset ref hs hv, regValue_of_reset_ref rfl rfl, rfl, rfl, hmark, hschedule, hreads,
    fun hl => ?_, fun w e hl hd => ?_, fun w i u hl hd hdist hu => ?_⟩
  · exact softReset_keeps_memories (abortPending_of_idle ref (s := { s with schedule := rest }) hl)
  · exact softReset_keeps_memories (abortPending_of_illegal ref (s := { s with schedule := rest }) hl hd)
  · obtain rfl := Host.Outcome.next.inj ((exec_eq_perform i s).symm.trans hu)
    exact softReset_read ref rest hl hd hdist

end Sys2Proof.Machine
end
